-- ==== Sys2Proof/Word.lean ====
section
/-! DEFINITION. The words the spec counts in: bytes, 32-bit bus words, byte strings (00_scope.md R10, R11). -/

namespace Sys2Proof

/-- One byte. -/
abbrev Byte := BitVec 8

/-- One 32-bit word of the host bus (20_memory.md R82). -/
abbrev Word := BitVec 32

/-- A byte string, byte 0 first (00_scope.md R10). -/
abbrev Bytes := List Byte

end Sys2Proof
end

