-- ==== Sys2Proof/Syntax.lean ====
section
/-! DEFINITION. The commands of spec/opcode_table.json, one constructor a row (30_encoding.md R121, R122). -/

namespace Sys2Proof

/-- A command. `ctx` is the CTX field, bits [11:8] of the command word (30_encoding.md R121, R128). -/
inductive Instr where
  /-- NOP, 44_control_interleaver.md R300 -/
  | nop
  /-- INIT.ECB, 43_stream_driver.md R260 -/
  | initEcb (ctx : Fin 16)
  /-- INIT.CBC, 43_stream_driver.md R260 -/
  | initCbc (ctx : Fin 16)
  /-- INIT.CFB, 43_stream_driver.md R260 -/
  | initCfb (ctx : Fin 16)
  /-- INIT.OFB, 43_stream_driver.md R260 -/
  | initOfb (ctx : Fin 16)
  /-- INIT.CTR, 43_stream_driver.md R260 -/
  | initCtr (ctx : Fin 16)
  /-- ENCRYPT, 43_stream_driver.md R266 -/
  | encrypt (ctx : Fin 16)
  /-- DECRYPT, 43_stream_driver.md R267 -/
  | decrypt (ctx : Fin 16)
  /-- DISCARD, 44_control_interleaver.md R302 -/
  | discard (ctx : Fin 16)
  /-- ABORT, 44_control_interleaver.md R305 -/
  | abort (ctx : Fin 16)
  /-- PAD, 41_padding.md R189 -/
  | pad (ctx : Fin 16)
  /-- UNPAD, 41_padding.md R194 -/
  | unpad (ctx : Fin 16)
deriving DecidableEq, Repr

/-- The context a command acts on; NOP acts on none (30_encoding.md R128). -/
def Instr.ctx? : Instr → Option (Fin 16)
  | .nop => none
  | .initEcb n => some n
  | .initCbc n => some n
  | .initCfb n => some n
  | .initOfb n => some n
  | .initCtr n => some n
  | .encrypt n => some n
  | .decrypt n => some n
  | .discard n => some n
  | .abort n => some n
  | .pad n => some n
  | .unpad n => some n

end Sys2Proof
end

