-- ==== Sys2Proof/Decode.lean ====
section
/-! DEFINITION. Command words: the decoder, total and rejecting by name, and the encoder (30_encoding.md R120 to R132). -/

namespace Sys2Proof

/-- Why a word with `OPC ≠ 0` stands for no command (30_encoding.md R124, R125). Each is IllegalCommand. -/
inductive DecodeError where
  /-- `OPC > 7` (R124 check 1) -/
  | reservedOpcode
  /-- `w[7] ≠ 0` or `w[31:12] ≠ 0` (R124 check 2) -/
  | reservedBits
  /-- INIT with MODE 5, 6 or 7, or another opcode with MODE ≠ 0 (R124 check 3) -/
  | reservedMode
deriving DecidableEq, Repr

/-- `w[3:0]` (R121). -/
def opcField (w : Word) : Nat := w.toNat % 16

/-- `w[6:4]` (R121). -/
def modeField (w : Word) : Nat := w.toNat / 16 % 8

/-- `w[11:8]` (R121). -/
def ctxField (w : Word) : Fin 16 := Fin.ofNat 16 (w.toNat / 256)

/-- `w[7] = 0` and `w[31:12] = 0` (R124 check 2). -/
def reservedZero (w : Word) : Bool := w.toNat / 128 % 2 == 0 && w.toNat / 4096 == 0

/-- INIT by its MODE field (R123). -/
def decodeInit (mode : Nat) (n : Fin 16) : Except DecodeError Instr :=
  match mode with
  | 0 => .ok (.initEcb n)
  | 1 => .ok (.initCbc n)
  | 2 => .ok (.initCfb n)
  | 3 => .ok (.initOfb n)
  | 4 => .ok (.initCtr n)
  | _ => .error .reservedMode

/-- The opcode map (R122), reserved bits already checked. -/
def decodeOpcode (opc mode : Nat) (n : Fin 16) : Except DecodeError Instr :=
  match opc with
  | 0 => .ok .nop
  | 1 => decodeInit mode n
  | 2 => if mode = 0 then .ok (.encrypt n) else .error .reservedMode
  | 3 => if mode = 0 then .ok (.decrypt n) else .error .reservedMode
  | 4 => if mode = 0 then .ok (.discard n) else .error .reservedMode
  | 5 => if mode = 0 then .ok (.abort n) else .error .reservedMode
  | 6 => if mode = 0 then .ok (.pad n) else .error .reservedMode
  | 7 => if mode = 0 then .ok (.unpad n) else .error .reservedMode
  | _ => .error .reservedOpcode

/-- The command a word stands for (R120, R124 checks 1 to 3, R125, R126). The check `CTX < NCTX` depends on the
instance and is made at issue (`Sys2Proof.Instr.wf`, log 14). -/
def decode (w : Word) : Except DecodeError Instr :=
  if opcField w = 0 then .ok .nop
  else if 7 < opcField w then .error .reservedOpcode
  else if reservedZero w then decodeOpcode (opcField w) (modeField w) (ctxField w)
  else .error .reservedBits

/-- `w = OPC | (MODE << 4) | (CTX << 8)` (R121). -/
def commandWord (opc mode : Nat) (n : Fin 16) : Word := BitVec.ofNat 32 (opc + 16 * mode + 256 * n.val)

/-- The word of a command (R121, R132); NOP's is its canonical word (44_control_interleaver.md R300). -/
def encode : Instr → Word
  | .nop => 0x00000000#32
  | .initEcb n => commandWord 1 0 n
  | .initCbc n => commandWord 1 1 n
  | .initCfb n => commandWord 1 2 n
  | .initOfb n => commandWord 1 3 n
  | .initCtr n => commandWord 1 4 n
  | .encrypt n => commandWord 2 0 n
  | .decrypt n => commandWord 3 0 n
  | .discard n => commandWord 4 0 n
  | .abort n => commandWord 5 0 n
  | .pad n => commandWord 6 0 n
  | .unpad n => commandWord 7 0 n

/-- The word `w` on the bus, bits from `nbits` on zero. Every command is one 32-bit word (R129), so its bytes need no
layout: a host write carries the word itself (20_memory.md R104). -/
def tableWord (nbits w : Nat) : Word := BitVec.ofNat 32 (w % 2 ^ nbits)

/-- The instruction the decoder reads from a row of spec/opcode_table.json. -/
def decodeTableWord (nbits w : Nat) : Option Instr :=
  match decode (tableWord nbits w) with
  | .ok i => some i
  | .error _ => none

end Sys2Proof
end

