-- ==== Sys2Proof/Machine/Bytes.lean ====
section
/-! DEFINITION. Byte strings: exclusive-or, fill, and the two byte orders (00_scope.md R10, R11; 20_memory.md R86). -/

namespace Sys2Proof.Machine

/-- `rep(v, n)` (R10). -/
def rep (v : Byte) (n : Nat) : Bytes := List.replicate n v

/-- `zeros(n)` (R10). -/
def zeros (n : Nat) : Bytes := rep 0#8 n

/-- `xor(a, b)` for strings of one length, and `xor_pre(a, k)` for `len(a) ≤ len(k)` (R10): both stop with the shorter
string. -/
def xorBytes (a b : Bytes) : Bytes := List.zipWith (fun x y => x ^^^ y) a b

/-- `be(s)`: the big-endian value of a string (R11). -/
def be (s : Bytes) : Nat := s.foldl (fun acc x => acc * 256 + x.toNat) 0

/-- `be_w(v)`: the `w`-byte big-endian string of `v`, defined for `v < 256^w` (R11). -/
def beBytes : Nat → Nat → Bytes
  | 0, _ => []
  | w + 1, v => beBytes w (v / 256) ++ [BitVec.ofNat 8 v]

/-- `le32(w)`: the four bytes of a word, bits [7:0] first (R11). -/
def leBytes (w : Word) : Bytes :=
  [w.extractLsb' 0 8, w.extractLsb' 8 8, w.extractLsb' 16 8, w.extractLsb' 24 8]

/-- The word whose bytes are `b0` (bits [7:0]) to `b3` (20_memory.md R86). -/
def leWord (b0 b1 b2 b3 : Byte) : Word := b3 ++ b2 ++ b1 ++ b0

end Sys2Proof.Machine
end

