-- ==== Sys2Proof/Config.lean ====
section
/-! DEFINITION. What an instance fixes (00_scope.md R8) and what the spec leaves free: the block-cipher primitive
(40_primitive.md R160) and the engine's schedule (44_control_interleaver.md R310). -/

namespace Sys2Proof

/-- The primitive `PRIM` an instance is connected to (R8, R160). DESIGN CHOICE (log 2): a name, so that it is plain data. -/
inductive PrimChoice where
  /-- the reference instance XORPRIM (40_primitive.md R166) -/
  | xorprim
  /-- any other primitive; `id` tells two of them apart, and nothing is known of either -/
  | external (id : Nat)
deriving DecidableEq, Repr

/-- The instance parameters of 00_scope.md R8, in the table's order. -/
structure Params where
  b : Nat
  keyBytes : Nat
  nctx : Nat
  msgmemBytes : Nat
  nlanes : Nat
  prim : PrimChoice
deriving DecidableEq, Repr

/-- The default column of the table of 00_scope.md R8. The table gives `PRIM` no default: an unknown one (log 2). -/
def Params.default : Params :=
  { b := 16, keyBytes := 16, nctx := 4, msgmemBytes := 4096, nlanes := 1, prim := .external 0 }

/-- `E` of an external primitive, free (40_primitive.md R160, R161; log 2): a block of exactly `b` bytes for every key
and block, and nothing more is known. -/
opaque Config.extE (id b : Nat) (key block : Bytes) : Vector Byte b

/-- `D` of an external primitive, free. Nothing relates it to `Config.extE` (40_primitive.md R164; log 2). -/
opaque Config.extD (id b : Nat) (key block : Bytes) : Vector Byte b

/-- The engine's free choice among the BUSY contexts, applied to a counter of the state
(44_control_interleaver.md R310; log 4). -/
opaque Config.pick (tick : Nat) : Nat

end Sys2Proof
end

