-- ==== Sys2Proof/Machine/State.lean ====
section
/-! DEFINITION. The state of an MSM-1 instance as plain data (10_state.md R30 to R57), the reasons a step can stop, and
the machine right after reset (10_state.md R57, 70_reset_and_hazards.md R390). -/

namespace Sys2Proof.Machine

/-- `ctx[n].STATE` (10_state.md R46). -/
inductive Lifecycle where
  | empty
  | ready
  | busy
  | spent
deriving DecidableEq, Repr

/-- MODE (30_encoding.md R123). The values 5 to 7 are never produced. -/
inductive Mode where
  | ecb
  | cbc
  | cfb
  | ofb
  | ctr
deriving DecidableEq, Repr

/-- An opcode as LASTOP and OP hold it (30_encoding.md R122); `none` is the value 0 of reset (10_state.md R57). -/
inductive Opcode where
  | none
  | init
  | encrypt
  | decrypt
  | discard
  | abort
  | pad
  | unpad
deriving DecidableEq, Repr

/-- Error codes 0 to 9 (60_exceptions.md R341); 10 to 15 are never produced. -/
inductive ErrCode where
  | none
  | invalidKeyLength
  | invalidIVLength
  | invalidLength
  | invalidPadding
  | counterOverflow
  | illegalCommand
  | badState
  | invalidRange
  | aborted
deriving DecidableEq, Repr

/-- One context (10_state.md R45). -/
structure Ctx where
  /-- STATE (R46) -/
  state : Lifecycle
  mode : Mode
  err : ErrCode
  lastop : Opcode
  outlen : Word
  /-- the latched key, KEY_BYTES bytes (R50) -/
  k : Bytes
  /-- the chaining state, B bytes (R48, R49) -/
  chain : Bytes
  /-- the CTR nonce width -/
  nl : BitVec 5
  /-- the running job's opcode, meaningful only while BUSY -/
  op : Opcode
  jsrc : Nat
  jdst : Nat
  jlen : Nat
  nblk : Nat
  /-- the sequencer (R52) -/
  blk : Nat
  maxout : Nat
deriving DecidableEq, Repr

/-- GSTATUS by its fields (10_state.md R33); every other bit is RAZ/WI. -/
structure Gstatus where
  issueErr : ErrCode
  issueCtx : Fin 16
  rej : Bool
  buserr : Bool
  wrconf : Bool
deriving DecidableEq, Repr

/-- CFG by its fields (10_state.md R37); every other bit reads 0 and ignores writes. -/
structure Cfg where
  keylen : BitVec 6
  ivlen : BitVec 5
  noncelen : BitVec 5
deriving DecidableEq, Repr

/-- MSGMEM: the bytes that differ from what an unlisted byte reads as, by rising offset (20_memory.md R80). -/
abbrev Memory := List Host.Cell

/-- A host bus access at a window offset (20_memory.md R82). -/
inductive BusAccess where
  | read (offset : BitVec 16)
  | write (offset : BitVec 16) (value : Word)
deriving DecidableEq, Repr

/-- One atomic step of the execution (20_memory.md R100; reset by 70_reset_and_hazards.md R390). -/
inductive Event where
  /-- a host bus access -/
  | host (access : BusAccess)
  /-- the engine's turn on context `ctx` (44_control_interleaver.md R310) -/
  | engine (ctx : Fin 16)
  /-- the reset input -/
  | rst
deriving DecidableEq, Repr

/-- What a host access returns (20_memory.md R82): SLVERR or OKAY, and data for a read. -/
structure BusResponse where
  slverr : Bool
  data : Option Word
deriving DecidableEq, Repr

/-- The state of one instance (10_state.md R30). -/
structure State where
  /-- the instance parameters (00_scope.md R8); no step writes them (log 1) -/
  inst : Params
  /-- GSTATUS (R33) -/
  gstatus : Gstatus
  /-- IRQ_STATUS (R34) -/
  irqStatus : Word
  /-- IRQ_ENABLE (R35) -/
  irqEnable : Word
  /-- CFG (R37) -/
  cfg : Cfg
  /-- SRC (R38) -/
  src : Word
  /-- DST (R38) -/
  dst : Word
  /-- LEN (R38) -/
  len : Word
  /-- KEY0 to KEY7 (R40) -/
  key : Vector Word 8
  /-- IV0 to IV3 (R41) -/
  iv : Vector Word 4
  /-- CTRINIT0 to CTRINIT3 (R42) -/
  ctrinit : Vector Word 4
  /-- the contexts (R45); the slots from NCTX on are never used (log 11) -/
  ctxs : Vector Ctx 16
  /-- MSGMEM (20_memory.md R80) -/
  mem : Memory
  /-- the MODEL's own: the atomic steps still to come, oldest first (log 3) -/
  agenda : List Event
  /-- the MODEL's own: the response of the latest host access (log 6) -/
  resp : Option BusResponse
  /-- the MODEL's own: the counter of the free schedule (log 4) -/
  tick : Nat
deriving DecidableEq, Repr

/-- Why a step stops. No rule of the spec stops the block (60_exceptions.md R340): both reasons are the model's, and
`State.Good` of Safety.lean excludes both. -/
inductive Fault where
  /-- Raised by an engine read or write of `length` bytes at `offset` that leaves MSGMEM (20_memory.md R80): such a byte
  does not exist. RangeOK (R90) keeps every job inside. Safe: the model stops where the spec says nothing (log 9). -/
  | outsideMsgmem (offset length : Nat)
  /-- Raised by an engine turn on a BUSY context that no engine rule speaks of: OP is no job's opcode, or BLK is past
  NBLK (44_control_interleaver.md R310). Safe: the model stops where the spec says nothing (log 10). -/
  | noEngineRule (ctx : Fin 16)
deriving DecidableEq, Repr

/-- Why an instruction is refused. -/
inductive Refusal where
  /-- Raised by an arm of `exec` that has no meaning yet. No arm raises it. Safe. -/
  | notModelled (mnemonic : String)
deriving DecidableEq, Repr

/-- A context after reset (10_state.md R57). -/
def Ctx.reset (p : Params) : Ctx :=
  { state := .empty, mode := .ecb, err := .none, lastop := .none, outlen := 0#32,
    k := List.replicate p.keyBytes 0#8, chain := List.replicate p.b 0#8, nl := 0#5, op := .none,
    jsrc := 0, jdst := 0, jlen := 0, nblk := 0, blk := 0, maxout := 0 }

/-- An instance with parameters `p` right after reset (10_state.md R57). -/
def State.resetFor (p : Params) : State :=
  { inst := p,
    gstatus := { issueErr := .none, issueCtx := 0, rej := false, buserr := false, wrconf := false },
    irqStatus := 0#32, irqEnable := 0#32,
    cfg := { keylen := 0#6, ivlen := 0#5, noncelen := 0#5 },
    src := 0#32, dst := 0#32, len := 0#32,
    key := Vector.replicate 8 0#32, iv := Vector.replicate 4 0#32, ctrinit := Vector.replicate 4 0#32,
    ctxs := Vector.replicate 16 (Ctx.reset p),
    mem := [], agenda := [], resp := none, tick := 0 }

/-- The machine right after reset (10_state.md R57, 70_reset_and_hazards.md R390), with the default parameters of
00_scope.md R8. -/
def State.reset : State := State.resetFor Params.default

end Sys2Proof.Machine
end

