-- ==== Sys2Proof/Machine/Ops.lean ====
section
/-! DEFINITION. The named operations over memory, contexts and interrupt causes, and the block's counterpart of taking an
exception and returning from it: `reject`, `failWith` and the acknowledgement (60_exceptions.md R343, R344, R355). -/

namespace Sys2Proof.Machine

/-- The three outcomes over this machine's types. -/
abbrev Result := Host.Outcome State Fault Refusal

/-! ### MSGMEM -/

/-- What an unlisted byte of MSGMEM reads as: its reset value (10_state.md R57). -/
def memDefault : Byte := 0#8

/-- The byte at offset `x`. -/
def Memory.get (m : Memory) (x : Nat) : Byte :=
  match m with
  | [] => memDefault
  | c :: rest => if c.1 = x then c.2 else Memory.get rest x

/-- The list without an entry for `x`. -/
def Memory.erase (m : Memory) (x : Nat) : Memory := m.filter (fun c => c.1 != x)

/-- `v` entered for `x`, before the first entry of a greater offset. -/
def Memory.insert (m : Memory) (x : Nat) (v : Byte) : Memory :=
  match m with
  | [] => [(x, v)]
  | c :: rest => if x < c.1 then (x, v) :: c :: rest else c :: Memory.insert rest x v

/-- One byte written, the canonical form kept. -/
def Memory.set (m : Memory) (x : Nat) (v : Byte) : Memory :=
  if v = memDefault then m.erase x else (m.erase x).insert x v

/-- `MSGMEM[a..a+n)` (00_scope.md R12). -/
def Memory.read (m : Memory) (a n : Nat) : Bytes := (List.range n).map (fun i => m.get (a + i))

/-- The bytes of `bs` written from offset `a` on (00_scope.md R12). -/
def Memory.write (m : Memory) (a : Nat) (bs : Bytes) : Memory :=
  match bs with
  | [] => m
  | v :: rest => Memory.write (m.set a v) (a + 1) rest

/-- The canonical form: offsets strictly rising, and no entry that an unlisted byte would read as. -/
abbrev Memory.wf (m : Memory) : Prop :=
  m.Pairwise (fun c d => c.1 < d.1) ∧ ∀ c ∈ m, c.2 ≠ memDefault

/-- Every listed byte is a byte of MSGMEM. -/
abbrev Memory.below (m : Memory) (bytes : Nat) : Prop := ∀ c ∈ m, c.1 < bytes

/-- Whether the `n` bytes from offset `a` on exist (20_memory.md R80). -/
def inMsgmem (s : State) (a n : Nat) : Bool := n == 0 || decide (a + n ≤ s.inst.msgmemBytes)

/-- The engine's `MemRead(a, n)`: never gated (00_scope.md R12, 20_memory.md R106). -/
def memRead (a n : Nat) (s : State) : Except Fault Bytes :=
  if inMsgmem s a n then .ok (s.mem.read a n) else .error (.outsideMsgmem a n)

/-- The engine's `MemWrite(a, len(bs), bs)`: never dropped (00_scope.md R12, 20_memory.md R106). -/
def memWrite (a : Nat) (bs : Bytes) (s : State) : Except Fault State :=
  if inMsgmem s a bs.length then .ok { s with mem := s.mem.write a bs }
  else .error (.outsideMsgmem a bs.length)

/-- What follows an engine memory access; where the access leaves MSGMEM the step stops. -/
def andThen {α : Type} (r : Except Fault α) (k : α → Result) : Result :=
  match r with
  | .error f => .fault f
  | .ok x => k x

/-! ### Contexts -/

/-- `ctx[n]`. -/
def State.ctx (s : State) (n : Fin 16) : Ctx := s.ctxs[n.val]

/-- `ctx[n] <- c`. -/
def State.setCtx (s : State) (n : Fin 16) (c : Ctx) : State := { s with ctxs := s.ctxs.set n.val c }

/-- The context numbers a command word can name (30_encoding.md R121). -/
def ctxNumbers : List (Fin 16) := [0, 1, 2, 3, 4, 5, 6, 7, 8, 9, 10, 11, 12, 13, 14, 15]

/-- `n < NCTX`. -/
def present (s : State) (n : Fin 16) : Bool := decide (n.val < s.inst.nctx)

/-- `n < NCTX` and `ctx[n].STATE = BUSY`. -/
def busy (s : State) (n : Fin 16) : Bool := present s n && decide ((s.ctx n).state = .busy)

/-! ### Interrupt causes (10_state.md R34, 60_exceptions.md R350) -/

/-- IRQ_STATUS.CDONE[n], bit `n`. -/
def cdoneBit (n : Fin 16) : Word := 1#32 <<< n.val

/-- IRQ_STATUS.REJ_IRQ, bit 31. -/
def rejIrqBit : Word := 0x80000000#32

/-- The implemented bits of IRQ_STATUS and IRQ_ENABLE: 0 to NCTX − 1, and 31 (10_state.md R34, R35). -/
def irqMask (p : Params) : Word := BitVec.ofNat 32 (2 ^ p.nctx - 1) ||| rejIrqBit

/-- A cause becomes pending, whatever IRQ_ENABLE holds (60_exceptions.md R351). -/
def State.raise (s : State) (bit : Word) : State := { s with irqStatus := s.irqStatus ||| bit }

/-! ### Errors and completions (60_exceptions.md R343, R344, R350, R355) -/

/-- `reject(code)` for a word whose CTX field is `n` (R343): nothing but GSTATUS and REJ_IRQ changes. -/
def reject (code : ErrCode) (n : Fin 16) (s : State) : State :=
  { s with gstatus := { s.gstatus with issueErr := code, issueCtx := n, rej := true } }.raise rejIrqBit

/-- A command ends on context `n`: its fields as `c` has them, its STATE, ERR and OUTLEN as given, CDONE[n] pending
(R350; 43_stream_driver.md R264, R280; 41_padding.md R193, R198). OUTLEN is 32 bits wide (log 19). -/
def finish (n : Fin 16) (c : Ctx) (st : Lifecycle) (code : ErrCode) (outlen : Nat) (s : State) : State :=
  (s.setCtx n { c with state := st, err := code, outlen := BitVec.ofNat 32 outlen }).raise (cdoneBit n)

/-- `fail(code)` on context `n` (R344): ERR is the code and OUTLEN is 0. -/
def failWith (n : Fin 16) (c : Ctx) (st : Lifecycle) (code : ErrCode) (s : State) : State :=
  finish n c st code 0 s

/-- The context without a mode state: what InitFail and Discard leave of MODE, NL, K and CHAIN
(43_stream_driver.md R263, 44_control_interleaver.md R303). -/
def Ctx.cleared (p : Params) (c : Ctx) : Ctx :=
  { c with mode := .ecb, nl := 0#5, k := zeros p.keyBytes, chain := zeros p.b }

/-- The host's acknowledgement of IRQ_STATUS causes, the block's only "return" (60_exceptions.md R355): every
implemented bit written 1 is cleared (10_state.md R34). -/
def ackIrq (v : Word) (s : State) : State :=
  { s with irqStatus := s.irqStatus &&& ~~~(v &&& irqMask s.inst) }

/-- The host's acknowledgement of GSTATUS (10_state.md R33): bits 16, 17 and 18 written 1 clear REJ (with ISSUE_ERR and
ISSUE_CTX), BUSERR and WRCONF. -/
def ackGstatus (v : Word) (s : State) : State :=
  let g := s.gstatus
  { s with gstatus :=
    { issueErr := if v.getLsbD 16 then .none else g.issueErr
      issueCtx := if v.getLsbD 16 then 0 else g.issueCtx
      rej := g.rej && !v.getLsbD 16
      buserr := g.buserr && !v.getLsbD 17
      wrconf := g.wrconf && !v.getLsbD 18 } }

/-- Every command but NOP acts on `ctx[n]` (30_encoding.md R128); `CTX ≥ NCTX` is IllegalCommand (R124 check 4). -/
def onCtx (n : Fin 16) (s : State) (k : Ctx → Result) : Result :=
  if present s n then k (s.ctx n) else .next (reject .illegalCommand n s)

end Sys2Proof.Machine
end

