-- ==== Sys2Proof/Machine/Control.lean ====
section
/-! DEFINITION. The control commands NOP, DISCARD and ABORT (44_control_interleaver.md R300 to R306). -/

namespace Sys2Proof.Machine

/-- NOP (44_control_interleaver.md R300): nothing. -/
def execNop (s : State) : Result := .next s

/-- DISCARD (44_control_interleaver.md R302, R303). -/
def execDiscard (n : Fin 16) (s : State) : Result :=
  onCtx n s fun c =>
    if c.state = .busy then .next (reject .badState n s)
    else .next (finish n (({ c with lastop := .discard }).cleared s.inst) .empty .none 0 s)

/-- The state a context goes to when its job ends, by completion or by ABORT (10_state.md R47): SPENT after ENCRYPT or
DECRYPT, EMPTY after PAD or UNPAD. -/
def stateAfterJob (op : Opcode) : Lifecycle := if op = .encrypt ∨ op = .decrypt then .spent else .empty

/-- ABORT (44_control_interleaver.md R305, R306): the destination range is zeroed, CHAIN stays as it is. -/
def execAbort (n : Fin 16) (s : State) : Result :=
  onCtx n s fun c =>
    if c.state ≠ .busy then .next (reject .badState n s)
    else
      andThen (memWrite c.jdst (zeros c.maxout) s) fun t =>
        .next (failWith n { c with lastop := .abort } (stateAfterJob c.op) .aborted t)

end Sys2Proof.Machine
end

