-- ==== Sys2Proof/Machine/Operands.lean ====
section
/-! DEFINITION. Where a command's and a block step's operands come from: the staging registers (30_encoding.md R127), the
locked ranges and RangeOK (20_memory.md R87, R90), and the splitter (43_stream_driver.md R272 to R274). -/

namespace Sys2Proof.Machine

/-! ### Staging operands -/

/-- `KS`, the 32-byte key staging string (10_state.md R40). -/
def keyString (s : State) : Bytes := s.key.toList.flatMap leBytes

/-- `IVS`, the 16-byte IV staging string (10_state.md R41). -/
def ivString (s : State) : Bytes := s.iv.toList.flatMap leBytes

/-- `C0`, the 128-bit starting counter offset (10_state.md R42). -/
def startCounter (s : State) : Nat :=
  s.ctrinit[0].toNat + s.ctrinit[1].toNat * 2 ^ 32 + s.ctrinit[2].toNat * 2 ^ 64 + s.ctrinit[3].toNat * 2 ^ 96

/-! ### Ranges of MSGMEM -/

/-- `x ∈ [a, a + n)`. -/
def inRange (a n x : Nat) : Bool := decide (a ≤ x) && decide (x < a + n)

/-- `[a, a + n) ∩ [b, b + m) = ∅`; a range of length 0 is empty (20_memory.md R87). -/
def disjoint (a n b m : Nat) : Bool :=
  n == 0 || m == 0 || decide (a + n ≤ b) || decide (b + m ≤ a)

/-- `x ∈ S_m`, the source range of a job (20_memory.md R87). -/
def inSource (c : Ctx) (x : Nat) : Bool := inRange c.jsrc c.jlen x

/-- `x ∈ T_m`, the destination range of a job (20_memory.md R87). -/
def inDest (c : Ctx) (x : Nat) : Bool := inRange c.jdst c.maxout x

/-- `x ∈ G`, the read-gated set (20_memory.md R87). -/
def gated (s : State) (x : Nat) : Bool :=
  ctxNumbers.any (fun m => busy s m && inDest (s.ctx m) x)

/-- `x ∈ X`, the write-locked set (20_memory.md R87). -/
def locked (s : State) (x : Nat) : Bool :=
  ctxNumbers.any (fun m => busy s m && (inSource (s.ctx m) x || inDest (s.ctx m) x))

/-- `RangeOK(n, src, len, dst, out)` (20_memory.md R90), in unbounded integers. -/
def rangeOk (n : Fin 16) (src len dst out : Nat) (s : State) : Bool :=
  decide (src + len ≤ s.inst.msgmemBytes) && decide (dst + out ≤ s.inst.msgmemBytes) &&
  (disjoint src len dst out || src == dst) &&
  ctxNumbers.all (fun m => m == n || !busy s m ||
    (disjoint dst out (s.ctx m).jsrc (s.ctx m).jlen && disjoint dst out (s.ctx m).jdst (s.ctx m).maxout &&
     disjoint src len (s.ctx m).jdst (s.ctx m).maxout))

/-! ### The splitter -/

/-- The three ways a job is cut into blocks (43_stream_driver.md R274). -/
inductive JobShape where
  | padded
  | aligned
  | stream
deriving DecidableEq, Repr

/-- ECB and CBC, the block-aligned modes (00_scope.md R16). -/
def Mode.blockAligned : Mode → Bool
  | .ecb => true
  | .cbc => true
  | .cfb => false
  | .ofb => false
  | .ctr => false

/-- The shape of a job by its OP and MODE (43_stream_driver.md R274); an opcode that starts no job has none. -/
def jobShape (op : Opcode) (mode : Mode) : Option JobShape :=
  match op with
  | .encrypt => some (if mode.blockAligned then .padded else .stream)
  | .decrypt => some (if mode.blockAligned then .aligned else .stream)
  | .pad => some .padded
  | .unpad => some .stream
  | .none => none
  | .init => none
  | .discard => none
  | .abort => none

/-- NBLK, the number of block steps (43_stream_driver.md R272). -/
def nblkOf (shape : JobShape) (b len : Nat) : Nat :=
  match shape with
  | .padded => len / b + 1
  | .aligned => len / b
  | .stream => (len + b - 1) / b

/-- MAXOUT, the length of the destination range (43_stream_driver.md R273). -/
def maxoutOf (shape : JobShape) (b len : Nat) : Nat :=
  match shape with
  | .padded => (len / b + 1) * b
  | .aligned => len
  | .stream => len

/-- A block's input piece, its destination offset and its write length (43_stream_driver.md R274). -/
structure Piece where
  input : Bytes
  dstoff : Nat
  wlen : Nat
deriving DecidableEq, Repr

/-- `Split(ctx, i)` (43_stream_driver.md R274). -/
def split (shape : JobShape) (c : Ctx) (i : Nat) (s : State) : Except Fault Piece :=
  let b := s.inst.b
  match shape with
  | .padded =>
    if i + 1 < c.nblk then
      (memRead (c.jsrc + i * b) b s).map (fun x => { input := x, dstoff := i * b, wlen := b })
    else
      let r := c.jlen - i * b
      (memRead (c.jsrc + i * b) r s).map (fun x =>
        { input := x ++ rep (BitVec.ofNat 8 (b - r)) (b - r), dstoff := i * b, wlen := b })
  | .aligned =>
    (memRead (c.jsrc + i * b) b s).map (fun x => { input := x, dstoff := i * b, wlen := b })
  | .stream =>
    let l := min b (c.jlen - i * b)
    (memRead (c.jsrc + i * b) l s).map (fun x => { input := x, dstoff := i * b, wlen := l })

end Sys2Proof.Machine
end

