-- ==== Sys2Proof/Machine/Init.lean ====
section
/-! DEFINITION. INIT, the construction of a mode state (43_stream_driver.md R260 to R264). -/

namespace Sys2Proof.Machine

/-- The checks of INIT, in the order of 43_stream_driver.md R262: the first failing check gives the code. -/
def initCheck (mode : Mode) (s : State) : Option ErrCode :=
  if s.cfg.keylen.toNat ≠ s.inst.keyBytes then some .invalidKeyLength
  else
    match mode with
    | .ecb => none
    | .cbc => if s.cfg.ivlen.toNat ≠ s.inst.b then some .invalidIVLength else none
    | .cfb => if s.cfg.ivlen.toNat ≠ s.inst.b then some .invalidIVLength else none
    | .ofb => if s.cfg.ivlen.toNat ≠ s.inst.b then some .invalidIVLength else none
    | .ctr =>
      if s.inst.b ≤ s.cfg.noncelen.toNat ∨ s.cfg.ivlen ≠ s.cfg.noncelen ∨
          256 ^ (s.inst.b - s.cfg.noncelen.toNat) ≤ startCounter s then some .invalidIVLength
      else none

/-- The CHAIN InitOK latches (43_stream_driver.md R264). -/
def initChain (mode : Mode) (s : State) : Bytes :=
  match mode with
  | .ecb => zeros s.inst.b
  | .cbc => (ivString s).take s.inst.b
  | .cfb => (ivString s).take s.inst.b
  | .ofb => (ivString s).take s.inst.b
  | .ctr =>
    (ivString s).take s.cfg.noncelen.toNat ++ beBytes (s.inst.b - s.cfg.noncelen.toNat) (startCounter s)

/-- The NL InitOK latches (43_stream_driver.md R264). -/
def initNl (mode : Mode) (s : State) : BitVec 5 :=
  match mode with
  | .ecb => 0#5
  | .cbc => 0#5
  | .cfb => 0#5
  | .ofb => 0#5
  | .ctr => s.cfg.noncelen

/-- The issue of INIT in a mode (43_stream_driver.md R260): InitFail is R263, InitOK R264. -/
def issueInit (mode : Mode) (n : Fin 16) (s : State) : Result :=
  onCtx n s fun c =>
    if c.state = .busy then .next (reject .badState n s)
    else
      match initCheck mode s with
      | some code => .next (failWith n (({ c with lastop := .init }).cleared s.inst) .empty code s)
      | none =>
        .next (finish n
          { c with lastop := .init, mode := mode, k := (keyString s).take s.inst.keyBytes,
                   chain := initChain mode s, nl := initNl mode s } .ready .none 0 s)

/-- INIT.ECB (43_stream_driver.md R260). -/
def execInitEcb (n : Fin 16) (s : State) : Result := issueInit .ecb n s

/-- INIT.CBC (43_stream_driver.md R260). -/
def execInitCbc (n : Fin 16) (s : State) : Result := issueInit .cbc n s

/-- INIT.CFB (43_stream_driver.md R260). -/
def execInitCfb (n : Fin 16) (s : State) : Result := issueInit .cfb n s

/-- INIT.OFB (43_stream_driver.md R260). -/
def execInitOfb (n : Fin 16) (s : State) : Result := issueInit .ofb n s

/-- INIT.CTR (43_stream_driver.md R260). -/
def execInitCtr (n : Fin 16) (s : State) : Result := issueInit .ctr n s

end Sys2Proof.Machine
end

