-- ==== Sys2Proof/Machine/Padding.lean ====
section
/-! DEFINITION. The padding handler: `pad`, `PadLen`, `PadCheck` (41_padding.md R180 to R183) and the commands PAD and
UNPAD (R189 to R195). -/

namespace Sys2Proof.Machine

/-- The number of padding bytes of a string of `len` bytes (41_padding.md R180). -/
def padCount (b len : Nat) : Nat := b - len % b

/-- `pad(x)` (41_padding.md R180). -/
def padBytes (b : Nat) (x : Bytes) : Bytes :=
  x ++ rep (BitVec.ofNat 8 (padCount b x.length)) (padCount b x.length)

/-- `PadLen(y)`; `none` is INVALID (41_padding.md R182). -/
def padLen (b : Nat) (y : Bytes) : Option Nat :=
  match y.getLast? with
  | none => none
  | some last =>
    if last.toNat < 1 ∨ b < last.toNat then none
    else if y.length < last.toNat then none
    else if y.drop (y.length - last.toNat) = rep last last.toNat then some last.toNat
    else none

/-- `PadCheck(d, len)`: the engine reads its own output back (41_padding.md R183). -/
def padCheck (d len : Nat) (s : State) : Except Fault (Option Nat) :=
  (memRead d len s).map (padLen s.inst.b)

/-- A job starts: what R190 and 43_stream_driver.md R270 write in common. LASTOP is already set. -/
def accept (n : Fin 16) (c : Ctx) (op : Opcode) (src dst len nblk maxout : Nat) (s : State) : State :=
  s.setCtx n
    { c with state := .busy, op := op, jsrc := src, jdst := dst, jlen := len,
             nblk := nblk, maxout := maxout, blk := 0, err := .none, outlen := 0#32 }

/-- The issue of PAD and UNPAD (41_padding.md R189, R194), which differ in the shape of the job. -/
def issueCopy (op : Opcode) (shape : JobShape) (n : Fin 16) (s : State) : Result :=
  onCtx n s fun c =>
    let len := s.len.toNat
    let out := maxoutOf shape s.inst.b len
    if c.state ≠ .empty then .next (reject .badState n s)
    else if !rangeOk n s.src.toNat len s.dst.toNat out s then .next (reject .invalidRange n s)
    else .next (accept n { c with lastop := op } op s.src.toNat s.dst.toNat len (nblkOf shape s.inst.b len) out s)

/-- PAD (41_padding.md R189, R190). -/
def execPad (n : Fin 16) (s : State) : Result := issueCopy .pad .padded n s

/-- UNPAD (41_padding.md R194, R195). -/
def execUnpad (n : Fin 16) (s : State) : Result := issueCopy .unpad .stream n s

end Sys2Proof.Machine
end

