-- ==== Sys2Proof/Machine/Modes.lean ====
section
/-! DEFINITION. The primitive port (40_primitive.md R160 to R166) and the mode state machine: each mode's per-block
transform and chaining update (42_modes.md R212 to R236). -/

namespace Sys2Proof.Machine

/-- `E(K, x)` (40_primitive.md R160, R166; log 18, log 20). -/
def primE (p : Params) (k x : Bytes) : Bytes :=
  match p.prim with
  | .xorprim => xorBytes x k
  | .external id => (Config.extE id p.b k x).toList

/-- `D(K, x)` (40_primitive.md R160, R166; log 18, log 20). -/
def primD (p : Params) (k x : Bytes) : Bytes :=
  match p.prim with
  | .xorprim => xorBytes x k
  | .external id => (Config.extD id p.b k x).toList

/-- `PRIM_INV` (40_primitive.md R164): a premise of claims, never assumed by the model. -/
def PrimInv (p : Params) : Prop :=
  ∀ k x : Bytes, k.length = p.keyBytes → x.length = p.b → primD p k (primE p k x) = x

/-- `DIR` (42_modes.md, opening). -/
inductive Dir where
  | enc
  | dec
deriving DecidableEq, Repr

/-- ECB (42_modes.md R212, R213): CHAIN stays. -/
def xformEcb (p : Params) (dir : Dir) (k chain input : Bytes) : Bytes × Bytes :=
  match dir with
  | .enc => (primE p k input, chain)
  | .dec => (primD p k input, chain)

/-- CBC (42_modes.md R215, R216): CHAIN becomes the ciphertext block in both directions. -/
def xformCbc (p : Params) (dir : Dir) (k chain input : Bytes) : Bytes × Bytes :=
  match dir with
  | .enc => (primE p k (xorBytes input chain), primE p k (xorBytes input chain))
  | .dec => (xorBytes (primD p k input) chain, input)

/-- CFB (42_modes.md R220 to R223): CHAIN becomes the ciphertext block, and stays after a short last block. -/
def xformCfb (p : Params) (dir : Dir) (k chain input : Bytes) : Bytes × Bytes :=
  let out := xorBytes input (primE p k chain)
  if input.length < p.b then (out, chain)
  else
    match dir with
    | .enc => (out, out)
    | .dec => (out, input)

/-- OFB (42_modes.md R226), both directions. -/
def xformOfb (p : Params) (k chain input : Bytes) : Bytes × Bytes :=
  (xorBytes input (primE p k chain), primE p k chain)

/-- The counter suffix `c = be(CHAIN[NL..B))` of a counter block (10_state.md R49). -/
def counterOf (nl : Nat) (chain : Bytes) : Nat := be (chain.drop nl)

/-- `CHAIN[0..NL) ‖ be_W((c + 1) mod 256^W)` (42_modes.md R230). -/
def nextCounter (p : Params) (nl : Nat) (chain : Bytes) : Bytes :=
  chain.take nl ++ beBytes (p.b - nl) ((counterOf nl chain + 1) % 256 ^ (p.b - nl))

/-- CTR (42_modes.md R230), both directions. -/
def xformCtr (p : Params) (nl : Nat) (k chain input : Bytes) : Bytes × Bytes :=
  (xorBytes input (primE p k chain), nextCounter p nl chain)

/-- `Xform(MODE, DIR, K, CHAIN, in) = (out, CHAIN')` (42_modes.md R211, R236); `nl` is the context's NL. -/
def xform (p : Params) (mode : Mode) (dir : Dir) (nl : Nat) (k chain input : Bytes) : Bytes × Bytes :=
  match mode with
  | .ecb => xformEcb p dir k chain input
  | .cbc => xformCbc p dir k chain input
  | .cfb => xformCfb p dir k chain input
  | .ofb => xformOfb p k chain input
  | .ctr => xformCtr p nl k chain input

/-- `CtrOverflow(C0, W, N)` (42_modes.md R232). -/
def ctrOverflow (c0 w n : Nat) : Bool := decide (1 ≤ n) && decide (256 ^ w ≤ c0 + n - 1)

end Sys2Proof.Machine
end

