-- ==== Sys2Proof/Machine/Stream.lean ====
section
/-! DEFINITION. The commands ENCRYPT and DECRYPT (43_stream_driver.md R266 to R270), and the message function a job
computes (R276). -/

namespace Sys2Proof.Machine

/-- IssueFail(code) (43_stream_driver.md R269). -/
def issueFail (n : Fin 16) (c : Ctx) (code : ErrCode) (s : State) : State := failWith n c .spent code s

/-- The shape of an ENCRYPT job (43_stream_driver.md R274). -/
def encryptShape (mode : Mode) : JobShape := if mode.blockAligned then .padded else .stream

/-- The shape of a DECRYPT job (43_stream_driver.md R274). -/
def decryptShape (mode : Mode) : JobShape := if mode.blockAligned then .aligned else .stream

/-- Whether a job of `nblk` blocks would wrap the counter of a CTR context (42_modes.md R232); false in any other mode. -/
def jobOverflows (p : Params) (c : Ctx) (nblk : Nat) : Bool :=
  decide (c.mode = .ctr) && ctrOverflow (counterOf c.nl.toNat c.chain) (p.b - c.nl.toNat) nblk

/-- ENCRYPT (43_stream_driver.md R266). -/
def execEncrypt (n : Fin 16) (s : State) : Result :=
  onCtx n s fun c =>
    let len := s.len.toNat
    let nblk := nblkOf (encryptShape c.mode) s.inst.b len
    let out := maxoutOf (encryptShape c.mode) s.inst.b len
    let c' := { c with lastop := .encrypt }
    if c.state ≠ .ready then .next (reject .badState n s)
    else if !rangeOk n s.src.toNat len s.dst.toNat out s then .next (reject .invalidRange n s)
    else if jobOverflows s.inst c nblk then .next (issueFail n c' .counterOverflow s)
    else .next (accept n c' .encrypt s.src.toNat s.dst.toNat len nblk out s)

/-- DECRYPT (43_stream_driver.md R267). -/
def execDecrypt (n : Fin 16) (s : State) : Result :=
  onCtx n s fun c =>
    let len := s.len.toNat
    let nblk := nblkOf (decryptShape c.mode) s.inst.b len
    let out := maxoutOf (decryptShape c.mode) s.inst.b len
    let c' := { c with lastop := .decrypt }
    if c.state ≠ .ready then .next (reject .badState n s)
    else if !rangeOk n s.src.toNat len s.dst.toNat out s then .next (reject .invalidRange n s)
    else if c.mode.blockAligned && (len == 0 || len % s.inst.b != 0) then .next (issueFail n c' .invalidLength s)
    else if jobOverflows s.inst c nblk then .next (issueFail n c' .counterOverflow s)
    else .next (accept n c' .decrypt s.src.toNat s.dst.toNat len nblk out s)

/-! ### The message function (43_stream_driver.md R276) -/

/-- The first `n` blocks of a string, `b` bytes each, the last one as short as the string leaves it. -/
def blocks (b n : Nat) (x : Bytes) : List Bytes := (List.range n).map (fun i => (x.drop (i * b)).take b)

/-- What the splitter cuts into blocks: the padded message for a padded job, the message itself otherwise (R274). -/
def splitInput (shape : JobShape) (b : Nat) (x : Bytes) : Bytes :=
  match shape with
  | .padded => padBytes b x
  | .aligned => x
  | .stream => x

/-- `Xform` folded over blocks: the outputs joined in order (R275), and the last CHAIN. -/
def foldBlocks (p : Params) (mode : Mode) (dir : Dir) (nl : Nat) (k : Bytes) : List Bytes → Bytes → Bytes × Bytes
  | [], chain => ([], chain)
  | x :: rest, chain =>
    let r := xform p mode dir nl k chain x
    let t := foldBlocks p mode dir nl k rest r.2
    (r.1 ++ t.1, t.2)

/-- `Msg(MODE, OP, K, c0, X) = (Y, err)` for ENCRYPT (`enc`) and DECRYPT (`dec`) (43_stream_driver.md R276): a failing
job returns no output byte (R281, R283). -/
def message (p : Params) (mode : Mode) (dir : Dir) (nl : Nat) (k c0 x : Bytes) : Bytes × ErrCode :=
  match dir with
  | .enc =>
    let sh := encryptShape mode
    ((foldBlocks p mode .enc nl k (blocks p.b (nblkOf sh p.b x.length) (splitInput sh p.b x)) c0).1, .none)
  | .dec =>
    let sh := decryptShape mode
    let y := (foldBlocks p mode .dec nl k (blocks p.b (nblkOf sh p.b x.length) (splitInput sh p.b x)) c0).1
    if mode.blockAligned then
      match padLen p.b y with
      | none => ([], .invalidPadding)
      | some n => (y.take (x.length - n), .none)
    else (y, .none)

end Sys2Proof.Machine
end

