-- ==== Sys2Proof/Machine/Dispatch.lean ====
section
/-! DEFINITION. The meaning of each command at its issue, one arm a constructor (30_encoding.md R120, R122). -/

namespace Sys2Proof.Machine

def exec (i : Instr) (s : State) : Host.Outcome State Fault Refusal :=
  match i with
  | .nop => Sys2Proof.Machine.execNop s
  | .initEcb n => Sys2Proof.Machine.execInitEcb n s
  | .initCbc n => Sys2Proof.Machine.execInitCbc n s
  | .initCfb n => Sys2Proof.Machine.execInitCfb n s
  | .initOfb n => Sys2Proof.Machine.execInitOfb n s
  | .initCtr n => Sys2Proof.Machine.execInitCtr n s
  | .encrypt n => Sys2Proof.Machine.execEncrypt n s
  | .decrypt n => Sys2Proof.Machine.execDecrypt n s
  | .discard n => Sys2Proof.Machine.execDiscard n s
  | .abort n => Sys2Proof.Machine.execAbort n s
  | .pad n => Sys2Proof.Machine.execPad n s
  | .unpad n => Sys2Proof.Machine.execUnpad n s

end Sys2Proof.Machine
end

