-- ==== Sys2Proof/Machine/Engine.lean ====
section
/-! DEFINITION. The engine: the block step (42_modes.md R211), the copy step (41_padding.md R192), the completion steps
(41_padding.md R193, R198; 43_stream_driver.md R280 to R282), and the interleaver's turn (44_control_interleaver.md R310). -/

namespace Sys2Proof.Machine

/-- What the block step and the copy step share (42_modes.md R211, 41_padding.md R192): the source piece is read before
any destination byte is written, and blocks go in order (44_control_interleaver.md R312, R313; log 16); `f` gives the
output bytes and the new CHAIN. -/
def runBlock (shape : JobShape) (f : Bytes → Bytes × Bytes) (n : Fin 16) (s : State) : Result :=
  let c := s.ctx n
  andThen (split shape c c.blk s) fun piece =>
    let r := f piece.input
    andThen (memWrite (c.jdst + piece.dstoff) (r.1.take piece.wlen) s) fun t =>
      .next (t.setCtx n { c with chain := r.2, blk := c.blk + 1 })

/-- The block step of an ENCRYPT or DECRYPT job (42_modes.md R211). -/
def blockStep (shape : JobShape) (dir : Dir) (n : Fin 16) (s : State) : Result :=
  let c := s.ctx n
  runBlock shape (fun x => xform s.inst c.mode dir c.nl.toNat c.k c.chain x) n s

/-- The copy step of a PAD or UNPAD job: the transform is the identity (41_padding.md R192). -/
def copyStep (shape : JobShape) (n : Fin 16) (s : State) : Result :=
  runBlock shape (fun x => (x, (s.ctx n).chain)) n s

/-- A completion that succeeds (43_stream_driver.md R280, 41_padding.md R193). -/
def completeOk (n : Fin 16) (outlen : Nat) (s : State) : State :=
  let c := s.ctx n
  finish n c (stateAfterJob c.op) .none outlen s

/-- A completion that checks and strips the padding (43_stream_driver.md R280 to R282, 41_padding.md R198): INVALID
zeroes the whole destination, a valid padding is scrubbed. -/
def completeUnpad (n : Fin 16) (s : State) : Result :=
  let c := s.ctx n
  andThen (padCheck c.jdst c.jlen s) fun check =>
    match check with
    | none =>
      andThen (memWrite c.jdst (zeros c.maxout) s) fun t =>
        .next (failWith n c (stateAfterJob c.op) .invalidPadding t)
    | some pads =>
      andThen (memWrite (c.jdst + c.jlen - pads) (zeros pads) s) fun t =>
        .next (completeOk n (c.jlen - pads) t)

/-- The engine's turn on a BUSY context with `BLK < NBLK` (44_control_interleaver.md R310). -/
def nextBlock (n : Fin 16) (s : State) : Result :=
  let c := s.ctx n
  match c.op with
  | .encrypt => blockStep (encryptShape c.mode) .enc n s
  | .decrypt => blockStep (decryptShape c.mode) .dec n s
  | .pad => copyStep .padded n s
  | .unpad => copyStep .stream n s
  | .none => .fault (.noEngineRule n)
  | .init => .fault (.noEngineRule n)
  | .discard => .fault (.noEngineRule n)
  | .abort => .fault (.noEngineRule n)

/-- The completion step of a BUSY context with `BLK = NBLK` (43_stream_driver.md R280, 41_padding.md R193, R198). -/
def complete (n : Fin 16) (s : State) : Result :=
  let c := s.ctx n
  match c.op with
  | .encrypt => .next (completeOk n (if c.mode.blockAligned then c.maxout else c.jlen) s)
  | .decrypt => if c.mode.blockAligned then completeUnpad n s else .next (completeOk n c.jlen s)
  | .pad => .next (completeOk n c.maxout s)
  | .unpad => completeUnpad n s
  | .none => .fault (.noEngineRule n)
  | .init => .fault (.noEngineRule n)
  | .discard => .fault (.noEngineRule n)
  | .abort => .fault (.noEngineRule n)

/-- The engine's turn on context `n` (44_control_interleaver.md R310). A context that is not BUSY has no engine step:
the turn passes and nothing changes (log 7). -/
def engineTurn (n : Fin 16) (s : State) : Result :=
  let c := s.ctx n
  if busy s n then
    if c.blk < c.nblk then nextBlock n s
    else if c.blk = c.nblk then complete n s
    else .fault (.noEngineRule n)
  else .next s

/-- The BUSY contexts. -/
def busyList (s : State) : List (Fin 16) := ctxNumbers.filter (busy s)

/-- Which BUSY context the interleaver steps next when the engine is alone: free (44_control_interleaver.md R310; log 4). -/
def pickBusy (s : State) : Option (Fin 16) :=
  match busyList s with
  | [] => none
  | [n] => some n
  | n :: rest => some ((n :: rest).getD (Config.pick s.tick % (rest.length + 1)) n)

/-- With no host access, engine turn or reset to come: the engine goes on with a BUSY context, and where none is BUSY
nothing is left to do (44_control_interleaver.md R310, R311; log 4, log 5, log 8). -/
def engineAlone (s : State) : Result :=
  match pickBusy s with
  | none => .next s
  | some n => engineTurn n { s with tick := s.tick + 1 }

end Sys2Proof.Machine
end

