-- ==== Sys2Proof/Machine/Flags.lean ====
section
/-! DEFINITION. The status words: the block's only flags (10_state.md R33 to R36, R43, R44, R55) and the codes their
fields show (30_encoding.md R122, R123; 60_exceptions.md R341). -/

namespace Sys2Proof.Machine

/-- STATE as a number (10_state.md R46). -/
def Lifecycle.code : Lifecycle → Nat
  | .empty => 0
  | .ready => 1
  | .busy => 2
  | .spent => 3

/-- MODE as a number (30_encoding.md R123). -/
def Mode.code : Mode → Nat
  | .ecb => 0
  | .cbc => 1
  | .cfb => 2
  | .ofb => 3
  | .ctr => 4

/-- An opcode as a number (30_encoding.md R122). -/
def Opcode.code : Opcode → Nat
  | .none => 0
  | .init => 1
  | .encrypt => 2
  | .decrypt => 3
  | .discard => 4
  | .abort => 5
  | .pad => 6
  | .unpad => 7

/-- An error code as a number (60_exceptions.md R341). -/
def ErrCode.code : ErrCode → Nat
  | .none => 0
  | .invalidKeyLength => 1
  | .invalidIVLength => 2
  | .invalidLength => 3
  | .invalidPadding => 4
  | .counterOverflow => 5
  | .illegalCommand => 6
  | .badState => 7
  | .invalidRange => 8
  | .aborted => 9

/-- A field of value `v` whose lowest bit is bit `lo`. -/
def fieldAt (v lo : Nat) : Word := BitVec.ofNat 32 v <<< lo

/-- One bit at position `lo`. -/
def bitAt (v : Bool) (lo : Nat) : Word := fieldAt v.toNat lo

/-- GSTATUS as a word (10_state.md R33). -/
def Gstatus.word (g : Gstatus) : Word :=
  fieldAt g.issueErr.code 0 ||| fieldAt g.issueCtx.val 8 ||| bitAt g.rej 16 ||| bitAt g.buserr 17 ||| bitAt g.wrconf 18

/-- CFG as a word (10_state.md R37). -/
def Cfg.word (c : Cfg) : Word :=
  fieldAt c.keylen.toNat 0 ||| fieldAt c.ivlen.toNat 8 ||| fieldAt c.noncelen.toNat 16

/-- What a host write of `v` leaves in CFG (10_state.md R37). -/
def Cfg.ofWord (v : Word) : Cfg :=
  { keylen := v.extractLsb' 0 6, ivlen := v.extractLsb' 8 5, noncelen := v.extractLsb' 16 5 }

/-- CTXn_STATUS (10_state.md R43). -/
def Ctx.statusWord (c : Ctx) : Word :=
  fieldAt c.state.code 0 ||| fieldAt c.mode.code 4 ||| fieldAt c.err.code 8 ||| fieldAt c.lastop.code 12

/-- ID (10_state.md R31). -/
def idWord : Word := 0x4D534D31#32

/-- PARAM0 (10_state.md R32). -/
def Params.word0 (p : Params) : Word :=
  fieldAt p.b 0 ||| fieldAt p.keyBytes 8 ||| fieldAt p.nctx 16 ||| fieldAt p.nlanes 24

/-- PARAM1 (10_state.md R32). -/
def Params.word1 (p : Params) : Word := BitVec.ofNat 32 p.msgmemBytes

/-- The output `irq` (10_state.md R36): a level, a function of the state. -/
def State.irq (s : State) : Bool := s.irqStatus &&& s.irqEnable != 0#32

end Sys2Proof.Machine
end

