-- ==== Sys2Proof/Machine/Bus.lean ====
section
/-! DEFINITION. The host's window: the register map, bus reads and writes, the issue of a command (20_memory.md R81 to
R91, 30_encoding.md R120), the reset input (70_reset_and_hazards.md R390), and one event of the agenda (20_memory.md R100). -/

namespace Sys2Proof.Machine

/-- What lies at a word-aligned window offset (20_memory.md R81). -/
inductive Reg where
  | id
  | param0
  | param1
  | gstatus
  | irqStatus
  | irqEnable
  | cfg
  | src
  | dst
  | len
  | cmd
  | key (j : Fin 8)
  | iv (j : Fin 4)
  | ctrinit (j : Fin 4)
  | ctxStatus (n : Fin 16)
  | ctxOutlen (n : Fin 16)
  /-- the MSGMEM word at byte offset `j` -/
  | msgmem (j : Nat)
  | reserved
deriving DecidableEq, Repr

/-- The register map and the decode of a word-aligned offset (20_memory.md R81, R83). -/
def regAt (p : Params) (a : Nat) : Reg :=
  if a = 0x0000 then .id
  else if a = 0x0004 then .param0
  else if a = 0x0008 then .param1
  else if a = 0x0010 then .gstatus
  else if a = 0x0014 then .irqStatus
  else if a = 0x0018 then .irqEnable
  else if a = 0x0020 then .cfg
  else if a = 0x0024 then .src
  else if a = 0x0028 then .dst
  else if a = 0x002C then .len
  else if a = 0x0030 then .cmd
  else if 0x0040 ≤ a ∧ a < 0x0060 then .key (Fin.ofNat 8 ((a - 0x0040) / 4))
  else if 0x0060 ≤ a ∧ a < 0x0070 then .iv (Fin.ofNat 4 ((a - 0x0060) / 4))
  else if 0x0070 ≤ a ∧ a < 0x0080 then .ctrinit (Fin.ofNat 4 ((a - 0x0070) / 4))
  else if 0x0100 ≤ a ∧ a < 0x0180 ∧ (a - 0x0100) / 8 < p.nctx then
    if a % 8 = 0 then .ctxStatus (Fin.ofNat 16 ((a - 0x0100) / 8))
    else .ctxOutlen (Fin.ofNat 16 ((a - 0x0100) / 8))
  else if 0x8000 ≤ a ∧ a < 0x8000 + p.msgmemBytes then .msgmem (a - 0x8000)
  else .reserved

/-! ### MSGMEM words -/

/-- The byte a host read sees (20_memory.md R88). -/
def gatedByte (s : State) (x : Nat) : Byte := if gated s x then 0#8 else s.mem.get x

/-- A host read of the MSGMEM word at byte offset `j` (20_memory.md R86, R88). -/
def readMsgmem (s : State) (j : Nat) : Word :=
  leWord (gatedByte s j) (gatedByte s (j + 1)) (gatedByte s (j + 2)) (gatedByte s (j + 3))

/-- One offered byte of a host write: written unless locked, dropped and recorded in WRCONF if locked (20_memory.md R89).
Locking depends on the contexts only, so the bytes of a word may be offered one after another. -/
def offerByte (s : State) (x : Nat) (v : Byte) : State :=
  if locked s x then { s with gstatus := { s.gstatus with wrconf := true } }
  else { s with mem := s.mem.set x v }

/-- A host write of the MSGMEM word at byte offset `j` (20_memory.md R86, R89). -/
def writeMsgmem (s : State) (j : Nat) (v : Word) : State :=
  offerByte (offerByte (offerByte (offerByte s j (v.extractLsb' 0 8)) (j + 1) (v.extractLsb' 8 8))
    (j + 2) (v.extractLsb' 16 8)) (j + 3) (v.extractLsb' 24 8)

/-! ### Register reads and writes -/

/-- The data of a host read (10_state.md R31 to R44, R58): write-only and reserved locations read 0. -/
def readReg (s : State) (r : Reg) : Word :=
  match r with
  | .id => idWord
  | .param0 => Params.word0 s.inst
  | .param1 => Params.word1 s.inst
  | .gstatus => s.gstatus.word
  | .irqStatus => s.irqStatus
  | .irqEnable => s.irqEnable
  | .cfg => s.cfg.word
  | .src => s.src
  | .dst => s.dst
  | .len => s.len
  | .cmd => 0#32
  | .key _ => 0#32
  | .iv j => s.iv[j.val]
  | .ctrinit j => s.ctrinit[j.val]
  | .ctxStatus n => (s.ctx n).statusWord
  | .ctxOutlen n => (s.ctx n).outlen
  | .msgmem j => readMsgmem s j
  | .reserved => 0#32

/-- The issue of a command word (30_encoding.md R120): a word that stands for no command is rejected with
IllegalCommand (R124, R125). -/
def issue (w : Word) (s : State) : Result :=
  match decode w with
  | .ok i => exec i s
  | .error _ => .next (reject .illegalCommand (ctxField w) s)

/-- A host write (10_state.md R31 to R44, R58): read-only and reserved locations ignore it. -/
def writeReg (r : Reg) (v : Word) (s : State) : Result :=
  match r with
  | .id => .next s
  | .param0 => .next s
  | .param1 => .next s
  | .gstatus => .next (ackGstatus v s)
  | .irqStatus => .next (ackIrq v s)
  | .irqEnable => .next { s with irqEnable := v &&& irqMask s.inst }
  | .cfg => .next { s with cfg := Cfg.ofWord v }
  | .src => .next { s with src := v }
  | .dst => .next { s with dst := v }
  | .len => .next { s with len := v }
  | .cmd => issue v s
  | .key j => .next { s with key := s.key.set j.val v }
  | .iv j => .next { s with iv := s.iv.set j.val v }
  | .ctrinit j => .next { s with ctrinit := s.ctrinit.set j.val v }
  | .ctxStatus _ => .next s
  | .ctxOutlen _ => .next s
  | .msgmem j => .next (writeMsgmem s j v)
  | .reserved => .next s

/-! ### Bus accesses -/

/-- The response of an access put on the bus (20_memory.md R82; log 6, log 15). -/
def respond (slverr : Bool) (data : Option Word) (s : State) : State :=
  { s with resp := some { slverr := slverr, data := data } }

/-- A misaligned access sets BUSERR and does nothing else (20_memory.md R84). -/
def setBuserr (s : State) : State := { s with gstatus := { s.gstatus with buserr := true } }

/-- A host read (20_memory.md R83, R84, R94). -/
def hostRead (offset : BitVec 16) (s : State) : Result :=
  if offset.toNat % 4 ≠ 0 then .next (respond true (some 0#32) (setBuserr s))
  else .next (respond false (some (readReg s (regAt s.inst offset.toNat))) s)

/-- A host write (20_memory.md R83, R84). -/
def hostWrite (offset : BitVec 16) (v : Word) (s : State) : Result :=
  if offset.toNat % 4 ≠ 0 then .next (respond true none (setBuserr s))
  else
    match writeReg (regAt s.inst offset.toNat) v s with
    | .next t => .next (respond false none t)
    | .fault f => .fault f
    | .refused r => .refused r

/-- A host access (20_memory.md R82). -/
def hostAccess (a : BusAccess) (s : State) : Result :=
  match a with
  | .read offset => hostRead offset s
  | .write offset v => hostWrite offset v s

/-- The offset of CMD (20_memory.md R81). -/
def cmdOffset : BitVec 16 := 0x0030#16

/-! ### Reset and events -/

/-- The reset input (70_reset_and_hazards.md R390): every piece of the block's state at its reset value. The parameters
are fixed (10_state.md R32), and what the environment does next is not the block's (log 12). -/
def resetStep (s : State) : State := { State.resetFor s.inst with agenda := s.agenda, tick := s.tick }

/-- One atomic step (20_memory.md R100). -/
def runEvent (e : Event) (s : State) : Result :=
  match e with
  | .host a => hostAccess a s
  | .engine n => engineTurn n s
  | .rst => .next (resetStep s)

/-- The next step of an execution: the first event of the agenda, or the engine alone where the agenda is empty (log 3,
log 4). -/
def runNext (s : State) : Result :=
  match s.agenda with
  | [] => engineAlone s
  | e :: rest => runEvent e { s with agenda := rest }

/-- A command word as the host issues it: a bus write to CMD (10_state.md R39). -/
def commandEvent (w : Word) : Event := .host (.write cmdOffset w)

end Sys2Proof.Machine
end

