-- ==== Sys2Proof/Machine/Step.lean ====
section
/-! DEFINITION. One atomic step of an execution (20_memory.md R100), and where a command stands to be issued next. -/

namespace Sys2Proof.Machine

/-- One step (20_memory.md R100). -/
def step (s : State) : Host.Outcome State Fault Refusal := runNext s

/-- The command word `w` as the next host write to CMD (log 3). -/
def State.withFetchWord (s : State) (nbits w : Nat) : State :=
  { s with agenda := commandEvent (tableWord nbits w) :: s.agenda }

end Sys2Proof.Machine
end

