-- ==== Sys2Proof/WellFormed.lean ====
section
/-! DEFINITION. The checks a command and an instance must meet (30_encoding.md R124, 00_scope.md R8). -/

namespace Sys2Proof

/-- The one field check of 30_encoding.md R124 that depends on the instance: `CTX < NCTX`. NOP has none (R126). The
other checks are the decoder's: a word that fails them stands for no command. -/
def Instr.wf (p : Params) (i : Instr) : Bool :=
  match i.ctx? with
  | none => true
  | some n => decide (n.val < p.nctx)

/-- The legal values of the table of 00_scope.md R8. XORPRIM needs `KEY_BYTES = B` (40_primitive.md R166). -/
def Params.legal (p : Params) : Bool :=
  decide (p.b = 8 ∨ p.b = 16) &&
  decide (1 ≤ p.keyBytes ∧ p.keyBytes ≤ 32) &&
  decide (1 ≤ p.nctx ∧ p.nctx ≤ 16) &&
  decide (p.msgmemBytes % 4 = 0 ∧ 4 ≤ p.msgmemBytes ∧ p.msgmemBytes ≤ 32768) &&
  decide (1 ≤ p.nlanes ∧ p.nlanes ≤ 15) &&
  decide (p.prim = .xorprim → p.keyBytes = p.b)

end Sys2Proof
end

