-- ==== Sys2Proof/Safety.lean ====
section
/-! DEFINITION. What claims are about: the well-formed states every run from reset stays in, a run that never stops, the
work a job has left, and what a running job has computed so far. -/

namespace Sys2Proof.Machine

/-! ### Command words -/

/-- The word passes the four field checks of 30_encoding.md R124; asked only where OPC is not 0. -/
abbrev wellFormedWord (p : Params) (w : Word) : Prop :=
  (w.extractLsb' 0 4).toNat ≤ 7 ∧
  (w.getLsbD 7 = false ∧ w.extractLsb' 12 20 = 0#20) ∧
  (if w.extractLsb' 0 4 = 1#4 then (w.extractLsb' 4 3).toNat ≤ 4 else w.extractLsb' 4 3 = 0#3) ∧
  (w.extractLsb' 8 4).toNat < p.nctx

/-- The command the next step issues, if it is a host write of a command's word to CMD (30_encoding.md R120). -/
def State.nextCommand (s : State) : Option Instr :=
  match s.agenda with
  | .host (.write a w) :: _ => if a = cmdOffset then (decode w).toOption else none
  | _ => none

/-- The five INITs with the mode each asks for (30_encoding.md R123). -/
abbrev isInit (i : Instr) (mode : Mode) (n : Fin 16) : Prop :=
  (i = .initEcb n ∧ mode = .ecb) ∨ (i = .initCbc n ∧ mode = .cbc) ∨ (i = .initCfb n ∧ mode = .cfb) ∨
  (i = .initOfb n ∧ mode = .ofb) ∨ (i = .initCtr n ∧ mode = .ctr)

/-- The commands the context's STATE does not allow (60_exceptions.md R342). -/
def stateForbids (i : Instr) (st : Lifecycle) : Prop :=
  match i with
  | .nop => False
  | .initEcb _ => st = .busy
  | .initCbc _ => st = .busy
  | .initCfb _ => st = .busy
  | .initOfb _ => st = .busy
  | .initCtr _ => st = .busy
  | .encrypt _ => st ≠ .ready
  | .decrypt _ => st ≠ .ready
  | .discard _ => st = .busy
  | .abort _ => st ≠ .busy
  | .pad _ => st ≠ .empty
  | .unpad _ => st ≠ .empty

/-- The shape of the job a command starts on a context of the given MODE (43_stream_driver.md R274). -/
def startedShape (i : Instr) (mode : Mode) : Option JobShape :=
  match i with
  | .nop => none
  | .initEcb _ => none
  | .initCbc _ => none
  | .initCfb _ => none
  | .initOfb _ => none
  | .initCtr _ => none
  | .encrypt _ => jobShape .encrypt mode
  | .decrypt _ => jobShape .decrypt mode
  | .discard _ => none
  | .abort _ => none
  | .pad _ => jobShape .pad mode
  | .unpad _ => jobShape .unpad mode

/-! ### Well-formed states -/

/-- The code is one `ctx[n].ERR` may hold: 0 to 5 and 9 (60_exceptions.md R341). -/
abbrev ErrCode.ofContext (e : ErrCode) : Prop := e ≠ .illegalCommand ∧ e ≠ .badState ∧ e ≠ .invalidRange

/-- The code is one GSTATUS.ISSUE_ERR may hold: 0 and 6 to 8 (60_exceptions.md R341). -/
abbrev ErrCode.ofRejection (e : ErrCode) : Prop :=
  e = .none ∨ e = .illegalCommand ∨ e = .badState ∨ e = .invalidRange

/-- The context holds no mode state: MODE, NL, K and CHAIN are zero (10_state.md R45, R48, R50). -/
abbrev Ctx.noModeState (p : Params) (c : Ctx) : Prop :=
  c.mode = .ecb ∧ c.nl = 0#5 ∧ c.k = zeros p.keyBytes ∧ c.chain = zeros p.b

/-- The fields of a running job of shape `sh` fit each other and MSGMEM (20_memory.md R90; 43_stream_driver.md R267,
R270, R272, R273; 41_padding.md R190; 42_modes.md R232). -/
structure JobFields (p : Params) (c : Ctx) (sh : JobShape) : Prop where
  nblk_eq : c.nblk = nblkOf sh p.b c.jlen
  maxout_eq : c.maxout = maxoutOf sh p.b c.jlen
  blk_le : c.blk ≤ c.nblk
  src_inside : c.jsrc + c.jlen ≤ p.msgmemBytes
  dst_inside : c.jdst + c.maxout ≤ p.msgmemBytes
  own_overlap : disjoint c.jsrc c.jlen c.jdst c.maxout = true ∨ c.jsrc = c.jdst
  aligned_len : sh = .aligned → 0 < c.jlen ∧ c.jlen % p.b = 0
  status : c.err = .none ∧ c.outlen = 0#32 ∧ c.lastop = c.op
  copy_job : c.op = .pad ∨ c.op = .unpad → c.noModeState p
  no_wrap : c.mode = .ctr → c.blk < c.nblk →
    counterOf c.nl.toNat c.chain + (c.nblk - c.blk) ≤ 256 ^ (p.b - c.nl.toNat)

/-- The invariants of one context (10_state.md R45 to R49). -/
structure CtxFields (p : Params) (c : Ctx) : Prop where
  k_len : c.k.length = p.keyBytes
  chain_len : c.chain.length = p.b
  nl_lt : c.nl.toNat < p.b
  nl_zero : c.mode ≠ .ctr → c.nl = 0#5
  ecb_chain : c.mode = .ecb → c.chain = zeros p.b
  err_code : c.err.ofContext
  err_outlen : c.err ≠ .none → c.outlen = 0#32
  empty_state : c.state = .empty → c.noModeState p
  ready_status : c.state = .ready → c.err = .none ∧ c.outlen = 0#32 ∧ c.lastop = .init
  job : c.state = .busy → ∃ sh, jobShape c.op c.mode = some sh ∧ JobFields p c sh

/-- The jobs of two contexts keep off each other: no byte one writes is read or written by the other
(20_memory.md R90, R106). -/
abbrev JobsApart (c d : Ctx) : Prop :=
  disjoint c.jdst c.maxout d.jsrc d.jlen = true ∧ disjoint c.jdst c.maxout d.jdst d.maxout = true

/-- The well-formed states: those the rules of the spec speak of. -/
structure State.Good (s : State) : Prop where
  legal : s.inst.legal = true
  mem_wf : s.mem.wf
  mem_below : s.mem.below s.inst.msgmemBytes
  irq_status : s.irqStatus &&& ~~~(irqMask s.inst) = 0#32
  irq_enable : s.irqEnable &&& ~~~(irqMask s.inst) = 0#32
  issue_err : s.gstatus.issueErr.ofRejection
  no_rejection : s.gstatus.rej = false → s.gstatus.issueErr = .none ∧ s.gstatus.issueCtx = 0
  absent : ∀ n, present s n = false → s.ctx n = Ctx.reset s.inst
  fields : ∀ n, present s n = true → CtxFields s.inst (s.ctx n)
  apart : ∀ m n, m ≠ n → busy s m = true → busy s n = true → JobsApart (s.ctx m) (s.ctx n)

/-! ### Reset -/

/-- The table of reset values, row by row (10_state.md R57); ID, PARAM0 and PARAM1 are constants of the instance. -/
structure ResetValues (t : State) : Prop where
  gstatus : t.gstatus.word = 0#32
  irqStatus : t.irqStatus = 0#32
  irqEnable : t.irqEnable = 0#32
  cfg : t.cfg.word = 0#32
  jobRegs : t.src = 0#32 ∧ t.dst = 0#32 ∧ t.len = 0#32
  key : keyString t = zeros 32
  iv : ivString t = zeros 16
  ctrinit : startCounter t = 0
  lifecycle : ∀ n, (t.ctx n).state = .empty
  status : ∀ n, (t.ctx n).statusWord = 0#32 ∧ (t.ctx n).outlen = 0#32 ∧ (t.ctx n).nl = 0#5 ∧ (t.ctx n).op.code = 0
  k : ∀ n, (t.ctx n).k = zeros t.inst.keyBytes
  chain : ∀ n, (t.ctx n).chain = zeros t.inst.b
  job : ∀ n, (t.ctx n).jsrc = 0 ∧ (t.ctx n).jdst = 0 ∧ (t.ctx n).jlen = 0 ∧ (t.ctx n).nblk = 0 ∧ (t.ctx n).blk = 0 ∧
    (t.ctx n).maxout = 0
  mem : ∀ x, t.mem.get x = 0#8
  irq : t.irq = false

/-! ### Runs -/

/-- The step answers a next state: the machine does not stop. -/
def Completes (s : State) : Prop := ∃ t, step s = .next t

/-- `k` steps, all answered by a next state, lead from `s` to `t`. -/
def Reaches : Nat → State → State → Prop
  | 0, s, t => s = t
  | k + 1, s, t => ∃ u, step s = .next u ∧ Reaches k u t

/-- The engine steps context `n`'s job has left: its block steps and its completion step (44_control_interleaver.md
R310); 0 where it is not BUSY. -/
def stepsLeft (s : State) (n : Fin 16) : Nat :=
  if busy s n then (s.ctx n).nblk - (s.ctx n).blk + 1 else 0

/-- The engine steps all jobs together have left. -/
def workLeft (s : State) : Nat := (ctxNumbers.map (stepsLeft s)).sum

/-! ### What a host can see -/

/-- Two contexts that differ at most in what no bus access shows: K, CHAIN, NL and the job fields except those the locked
ranges are made of (10_state.md R45, R56). -/
abbrev Ctx.sameVisible (c d : Ctx) : Prop :=
  c.state = d.state ∧ c.mode = d.mode ∧ c.err = d.err ∧ c.lastop = d.lastop ∧ c.outlen = d.outlen ∧
  c.jdst = d.jdst ∧ c.maxout = d.maxout

/-- Two states that differ at most in the key staging registers and in the contexts' hidden fields. -/
structure SameVisible (s t : State) : Prop where
  inst : s.inst = t.inst
  gstatus : s.gstatus = t.gstatus
  irqStatus : s.irqStatus = t.irqStatus
  irqEnable : s.irqEnable = t.irqEnable
  cfg : s.cfg = t.cfg
  jobRegs : s.src = t.src ∧ s.dst = t.dst ∧ s.len = t.len
  iv : s.iv = t.iv
  ctrinit : s.ctrinit = t.ctrinit
  mem : s.mem = t.mem
  ctxs : ∀ n, (s.ctx n).sameVisible (t.ctx n)

/-! ### What a running job has computed -/

/-- The fold of a job's transform over input pieces: outputs joined, and CHAIN. ENCRYPT and DECRYPT use `Xform`
(42_modes.md R211), PAD and UNPAD the identity (41_padding.md R192). -/
def jobFold (p : Params) (c : Ctx) (pieces : List Bytes) (chain : Bytes) : Bytes × Bytes :=
  match c.op with
  | .encrypt => foldBlocks p c.mode .enc c.nl.toNat c.k pieces chain
  | .decrypt => foldBlocks p c.mode .dec c.nl.toNat c.k pieces chain
  | .pad => (pieces.flatten, chain)
  | .unpad => (pieces.flatten, chain)
  | .none => ([], chain)
  | .init => ([], chain)
  | .discard => ([], chain)
  | .abort => ([], chain)

/-- What a job on the message `x` delivers, and its result code: `Msg` for ENCRYPT and DECRYPT (43_stream_driver.md R276),
`pad` and `unpad` for PAD and UNPAD (41_padding.md R193, R198). -/
def jobMessage (p : Params) (c : Ctx) (c0 x : Bytes) : Bytes × ErrCode :=
  match c.op with
  | .encrypt => message p c.mode .enc c.nl.toNat c.k c0 x
  | .decrypt => message p c.mode .dec c.nl.toNat c.k c0 x
  | .pad => (padBytes p.b x, .none)
  | .unpad =>
    match padLen p.b x with
    | none => ([], .invalidPadding)
    | some k => (x.take (x.length - k), .none)
  | .none => ([], .none)
  | .init => ([], .none)
  | .discard => ([], .none)
  | .abort => ([], .none)

/-- Context `n` runs a job on the message `x`, begun with CHAIN `c0`, and has done what its BLK says: the outputs of the
first BLK blocks stand at its destination in order (43_stream_driver.md R275), CHAIN is what they left (10_state.md
R53), and the source bytes of the other blocks are still the message's (20_memory.md R106). -/
def JobProgress (s : State) (n : Fin 16) (x c0 : Bytes) : Prop :=
  let c := s.ctx n
  busy s n = true ∧ x.length = c.jlen ∧ c0.length = s.inst.b ∧
  ∃ sh, jobShape c.op c.mode = some sh ∧
    let pieces := (blocks s.inst.b c.nblk (splitInput sh s.inst.b x)).take c.blk
    c.chain = (jobFold s.inst c pieces c0).2 ∧
    s.mem.read c.jdst (jobFold s.inst c pieces c0).1.length = (jobFold s.inst c pieces c0).1 ∧
    s.mem.read (c.jsrc + c.blk * s.inst.b) (c.jlen - c.blk * s.inst.b) = x.drop (c.blk * s.inst.b)

end Sys2Proof.Machine
end

