-- ==== Sys2Proof/Certificates/Slice0/Obligations.lean ====
section
/-! DEFINITION. The statements for the provers, in the order of the spec's files: encoding, steps, commands, the engine, the
host's window, reset, and what holds of every run. -/

open Sys2Proof Sys2Proof.Machine

/-! ### Encoding (30_encoding.md) -/

/-- R125, R126, R132. Decoding an encoded command gives it back; the word of a command other than NOP is its encoding; and
the words that stand for NOP are those whose low four bits are 0. -/
def Obligations.DecodeInvertsEncode : Prop :=
  (∀ i : Instr, decode (encode i) = .ok i) ∧
  (∀ (w : Word) (i : Instr), decode w = .ok i → i ≠ .nop → w = encode i) ∧
  (∀ w : Word, decode w = .ok .nop ↔ w.extractLsb' 0 4 = 0#4)

/-- R124. A word with OPC not 0 is issued as a well-formed command exactly when it passes the four field checks; otherwise
it is rejected with IllegalCommand and its CTX field, and changes nothing else. -/
def Obligations.MalformedWordIsRejected : Prop :=
  ∀ (w : Word) (s : State), w.extractLsb' 0 4 ≠ 0#4 →
    (wellFormedWord s.inst w → ∃ i : Instr, encode i = w ∧ i.wf s.inst = true ∧ issue w s = exec i s) ∧
    (¬ wellFormedWord s.inst w →
      issue w s = .next
        { s with
          gstatus := { s.gstatus with issueErr := .illegalCommand, issueCtx := (w.extractLsb' 8 4).toFin, rej := true }
          irqStatus := s.irqStatus ||| 0x80000000#32 })

/-- R132, R300. Words written out from the encoding decode to the commands they stand for. -/
def Obligations.SpecWordsDecode : Prop :=
  decode 0x00000000#32 = .ok .nop ∧ decode 0xFFFFFFF0#32 = .ok .nop ∧ decode 0x00000001#32 = .ok (.initEcb 0) ∧
  decode 0x00000131#32 = .ok (.initOfb 1) ∧ decode 0x00000241#32 = .ok (.initCtr 2) ∧
  decode 0x00000202#32 = .ok (.encrypt 2) ∧ decode 0x00000303#32 = .ok (.decrypt 3) ∧
  decode 0x00000104#32 = .ok (.discard 1) ∧ decode 0x00000F07#32 = .ok (.unpad 15)

/-! ### Steps (20_memory.md R100) -/

/-- R120, R39, R82, R124. Where the next event is a host write of a word to CMD, whatever the word, the step is the issue of
that word in the state with the event taken off, and then the bus answers OKAY. The issue of a command's word is that
command's meaning, and a word that stands for no command is rejected with IllegalCommand and its CTX field, and changes
nothing else. `withFetchWord` puts such an event first. (The agenda and the stored response are the model's, log 3 and log 6;
the OKAY of a write to CMD, a rejected one included, is DEDUCED, log 15.) -/
def Obligations.StepIssuesTheDecodedCommand : Prop :=
  (∀ (s : State) (w : Word) (rest : List Event), s.agenda = .host (.write 0x0030#16 w) :: rest →
    step s =
      match issue w { s with agenda := rest } with
      | .next t => .next { t with resp := some { slverr := false, data := none } }
      | .fault f => .fault f
      | .refused r => .refused r) ∧
  (∀ (s : State) (w : Word) (i : Instr) (rest : List Event),
    s.agenda = .host (.write 0x0030#16 w) :: rest → decode w = .ok i →
    step s =
      match exec i { s with agenda := rest } with
      | .next t => .next { t with resp := some { slverr := false, data := none } }
      | .fault f => .fault f
      | .refused r => .refused r) ∧
  (∀ (s : State) (w : Word) (rest : List Event),
    s.agenda = .host (.write 0x0030#16 w) :: rest → (∀ i, decode w ≠ .ok i) →
    step s = .next
      { s with
        agenda := rest
        gstatus := { s.gstatus with issueErr := .illegalCommand, issueCtx := (w.extractLsb' 8 4).toFin, rej := true }
        irqStatus := s.irqStatus ||| 0x80000000#32
        resp := some { slverr := false, data := none } }) ∧
  (∀ (s : State) (w : Nat), (s.withFetchWord 32 w).agenda = .host (.write 0x0030#16 (BitVec.ofNat 32 w)) :: s.agenda)

/-- R100, R310, R390. Every event is run by its own rule on the rest of the agenda: a host read, a host write, an engine turn,
and the reset input, which leaves the state of `State.resetFor` but for the rest of the agenda and the schedule's counter.
With an empty agenda the engine steps a BUSY context, one that there is with STATE = BUSY, if there is one. (The agenda is the model's, log 3; the schedule's
counter, which such an engine step advances, and the choice by it are the model's, log 4; an idle step changes nothing, log 8;
reset keeps what is left of the agenda and the counter, log 12.) -/
def Obligations.StepRunsTheNextEvent : Prop :=
  (∀ (s : State) (a : BitVec 16) (rest : List Event), s.agenda = .host (.read a) :: rest →
    step s = hostRead a { s with agenda := rest }) ∧
  (∀ (s : State) (a : BitVec 16) (v : Word) (rest : List Event), s.agenda = .host (.write a v) :: rest →
    step s = hostWrite a v { s with agenda := rest }) ∧
  (∀ (s : State) (n : Fin 16) (rest : List Event), s.agenda = .engine n :: rest →
    step s = engineTurn n { s with agenda := rest }) ∧
  (∀ (s : State) (rest : List Event), s.agenda = .rst :: rest →
    step s = .next (resetStep { s with agenda := rest }) ∧
    resetStep { s with agenda := rest } = { State.resetFor s.inst with agenda := rest, tick := s.tick }) ∧
  (∀ (s : State) (n : Fin 16), busy s n = true ↔ n.val < s.inst.nctx ∧ (s.ctx n).state = .busy) ∧
  (∀ s : State, s.agenda = [] → (∀ n, busy s n = false) → step s = .next s) ∧
  (∀ (s : State) (n : Fin 16), s.agenda = [] → busy s n = true →
    ∃ m, busy s m = true ∧ step s = engineTurn m { s with tick := s.tick + 1 })

/-! ### Commands: completion, result and frame -/

/-- R300. Every word with OPC 0 is NOP, and NOP leaves the whole state unchanged. -/
def Obligations.NopChangesNothing : Prop :=
  (∀ s : State, exec .nop s = .next s) ∧
  (∀ (w : Word) (s : State), w.extractLsb' 0 4 = 0#4 → issue w s = .next s)

/-- R264. INIT on a context there is that is not BUSY, its checks passed: READY with the staged key, IV or counter; nothing
else changes but CDONE. -/
def Obligations.InitMakesContextReady : Prop :=
  ∀ (i : Instr) (mode : Mode) (n : Fin 16) (s : State), isInit i mode n → n.val < s.inst.nctx →
    (s.ctx n).state ≠ .busy → s.cfg.keylen.toNat = s.inst.keyBytes →
    (mode = .cbc ∨ mode = .cfb ∨ mode = .ofb → s.cfg.ivlen.toNat = s.inst.b) →
    (mode = .ctr → s.cfg.noncelen.toNat < s.inst.b ∧ s.cfg.ivlen = s.cfg.noncelen ∧
      startCounter s < 256 ^ (s.inst.b - s.cfg.noncelen.toNat)) →
    exec i s = .next
      { s with
        ctxs := s.ctxs.set n.val
          { s.ctx n with
            state := .ready, mode := mode, k := (keyString s).take s.inst.keyBytes,
            chain :=
              if mode = .ecb then zeros s.inst.b
              else if mode = .ctr then
                (ivString s).take s.cfg.noncelen.toNat ++ beBytes (s.inst.b - s.cfg.noncelen.toNat) (startCounter s)
              else (ivString s).take s.inst.b,
            nl := if mode = .ctr then s.cfg.noncelen else 0#5,
            err := .none, outlen := 0#32, lastop := .init }
        irqStatus := s.irqStatus ||| (1#32 <<< n.val) }

/-- R262, R263. The first failing check gives the code; a failing INIT leaves an EMPTY context without a mode state, whatever
it held; nothing else changes but CDONE. -/
def Obligations.InitFailureEmptiesContext : Prop :=
  ∀ (i : Instr) (mode : Mode) (n : Fin 16) (s : State) (code : ErrCode), isInit i mode n → n.val < s.inst.nctx →
    (s.ctx n).state ≠ .busy →
    (s.cfg.keylen.toNat ≠ s.inst.keyBytes ∧ code = .invalidKeyLength ∨
     s.cfg.keylen.toNat = s.inst.keyBytes ∧ code = .invalidIVLength ∧
      ((mode = .cbc ∨ mode = .cfb ∨ mode = .ofb) ∧ s.cfg.ivlen.toNat ≠ s.inst.b ∨
       mode = .ctr ∧ (s.inst.b ≤ s.cfg.noncelen.toNat ∨ s.cfg.ivlen ≠ s.cfg.noncelen ∨
        256 ^ (s.inst.b - s.cfg.noncelen.toNat) ≤ startCounter s))) →
    exec i s = .next
      { s with
        ctxs := s.ctxs.set n.val
          { s.ctx n with
            state := .empty, mode := .ecb, nl := 0#5, k := zeros s.inst.keyBytes, chain := zeros s.inst.b,
            err := code, outlen := 0#32, lastop := .init }
        irqStatus := s.irqStatus ||| (1#32 <<< n.val) }

/-- R266, R270, R272, R273. ENCRYPT on a READY context whose ranges are free and whose counter does not overflow starts a
job: BUSY with the operands latched; nothing else changes. -/
def Obligations.EncryptStartsJob : Prop :=
  ∀ (n : Fin 16) (s : State) (nblk maxout : Nat), n.val < s.inst.nctx → (s.ctx n).state = .ready →
    nblk = (if (s.ctx n).mode = .ecb ∨ (s.ctx n).mode = .cbc then s.len.toNat / s.inst.b + 1
            else (s.len.toNat + s.inst.b - 1) / s.inst.b) →
    maxout = (if (s.ctx n).mode = .ecb ∨ (s.ctx n).mode = .cbc then (s.len.toNat / s.inst.b + 1) * s.inst.b
              else s.len.toNat) →
    rangeOk n s.src.toNat s.len.toNat s.dst.toNat maxout s = true →
    ((s.ctx n).mode = .ctr → 1 ≤ nblk →
      be ((s.ctx n).chain.drop (s.ctx n).nl.toNat) + nblk - 1 < 256 ^ (s.inst.b - (s.ctx n).nl.toNat)) →
    exec (.encrypt n) s = .next
      { s with
        ctxs := s.ctxs.set n.val
          { s.ctx n with
            state := .busy, op := .encrypt, lastop := .encrypt, jsrc := s.src.toNat, jdst := s.dst.toNat,
            jlen := s.len.toNat, nblk := nblk, maxout := maxout, blk := 0, err := .none, outlen := 0#32 } }

/-- R267, R270, R272, R273. DECRYPT, as ENCRYPT; in ECB and CBC the length is a positive multiple of B. -/
def Obligations.DecryptStartsJob : Prop :=
  ∀ (n : Fin 16) (s : State) (nblk : Nat), n.val < s.inst.nctx → (s.ctx n).state = .ready →
    nblk = (if (s.ctx n).mode = .ecb ∨ (s.ctx n).mode = .cbc then s.len.toNat / s.inst.b
            else (s.len.toNat + s.inst.b - 1) / s.inst.b) →
    ((s.ctx n).mode = .ecb ∨ (s.ctx n).mode = .cbc → 0 < s.len.toNat ∧ s.len.toNat % s.inst.b = 0) →
    rangeOk n s.src.toNat s.len.toNat s.dst.toNat s.len.toNat s = true →
    ((s.ctx n).mode = .ctr → 1 ≤ nblk →
      be ((s.ctx n).chain.drop (s.ctx n).nl.toNat) + nblk - 1 < 256 ^ (s.inst.b - (s.ctx n).nl.toNat)) →
    exec (.decrypt n) s = .next
      { s with
        ctxs := s.ctxs.set n.val
          { s.ctx n with
            state := .busy, op := .decrypt, lastop := .decrypt, jsrc := s.src.toNat, jdst := s.dst.toNat,
            jlen := s.len.toNat, nblk := nblk, maxout := s.len.toNat, blk := 0, err := .none, outlen := 0#32 } }

/-- R269. A message error found at issue, InvalidLength before CounterOverflow, leaves the context SPENT with the code; no
byte of MSGMEM is written and nothing else changes but LASTOP and CDONE. -/
def Obligations.IssueFailureSpendsContext : Prop :=
  ∀ (i : Instr) (op : Opcode) (n : Fin 16) (s : State) (nblk maxout : Nat) (code : ErrCode),
    (i = .encrypt n ∧ op = .encrypt ∧
        nblk = (if (s.ctx n).mode = .ecb ∨ (s.ctx n).mode = .cbc then s.len.toNat / s.inst.b + 1
                else (s.len.toNat + s.inst.b - 1) / s.inst.b) ∧
        maxout = (if (s.ctx n).mode = .ecb ∨ (s.ctx n).mode = .cbc then (s.len.toNat / s.inst.b + 1) * s.inst.b
                  else s.len.toNat) ∨
     i = .decrypt n ∧ op = .decrypt ∧ nblk = (s.len.toNat + s.inst.b - 1) / s.inst.b ∧ maxout = s.len.toNat) →
    n.val < s.inst.nctx → (s.ctx n).state = .ready →
    rangeOk n s.src.toNat s.len.toNat s.dst.toNat maxout s = true →
    ((s.ctx n).mode = .ctr ∧ code = .counterOverflow ∧ 1 ≤ nblk ∧
        256 ^ (s.inst.b - (s.ctx n).nl.toNat) ≤ be ((s.ctx n).chain.drop (s.ctx n).nl.toNat) + nblk - 1 ∨
     op = .decrypt ∧ ((s.ctx n).mode = .ecb ∨ (s.ctx n).mode = .cbc) ∧ code = .invalidLength ∧
        (s.len.toNat = 0 ∨ s.len.toNat % s.inst.b ≠ 0)) →
    exec i s = .next
      { s with
        ctxs := s.ctxs.set n.val { s.ctx n with state := .spent, err := code, outlen := 0#32, lastop := op }
        irqStatus := s.irqStatus ||| (1#32 <<< n.val) }

/-- R302, R303. DISCARD of a context that is not BUSY: EMPTY without a mode state; nothing else changes but CDONE. -/
def Obligations.DiscardEmptiesContext : Prop :=
  ∀ (n : Fin 16) (s : State), n.val < s.inst.nctx → (s.ctx n).state ≠ .busy →
    exec (.discard n) s = .next
      { s with
        ctxs := s.ctxs.set n.val
          { s.ctx n with
            state := .empty, mode := .ecb, nl := 0#5, k := zeros s.inst.keyBytes, chain := zeros s.inst.b,
            err := .none, outlen := 0#32, lastop := .discard }
        irqStatus := s.irqStatus ||| (1#32 <<< n.val) }

/-- R305, R306. ABORT of a BUSY job whose destination lies in MSGMEM (R90 keeps every job's there): every byte of the
destination range reads 0 and every other byte as before; CHAIN stays; nothing else changes but the status named. -/
def Obligations.AbortZeroesDestination : Prop :=
  ∀ (n : Fin 16) (s : State), n.val < s.inst.nctx → (s.ctx n).state = .busy →
    (s.ctx n).jdst + (s.ctx n).maxout ≤ s.inst.msgmemBytes →
    ∃ m : Memory,
      exec (.abort n) s = .next
        { s with
          mem := m
          ctxs := s.ctxs.set n.val
            { s.ctx n with
              state := if (s.ctx n).op = .encrypt ∨ (s.ctx n).op = .decrypt then .spent else .empty,
              err := .aborted, outlen := 0#32, lastop := .abort }
          irqStatus := s.irqStatus ||| (1#32 <<< n.val) } ∧
      ∀ x, m.get x =
        if (s.ctx n).jdst ≤ x ∧ x < (s.ctx n).jdst + (s.ctx n).maxout then 0#8 else s.mem.get x

/-- R189, R190, R194, R195. PAD and UNPAD on an EMPTY context whose ranges are free start a job; nothing else changes. -/
def Obligations.PadAndUnpadStartJob : Prop :=
  ∀ (i : Instr) (op : Opcode) (n : Fin 16) (s : State) (nblk maxout : Nat),
    (i = .pad n ∧ op = .pad ∧ nblk = s.len.toNat / s.inst.b + 1 ∧ maxout = (s.len.toNat / s.inst.b + 1) * s.inst.b ∨
     i = .unpad n ∧ op = .unpad ∧ nblk = (s.len.toNat + s.inst.b - 1) / s.inst.b ∧ maxout = s.len.toNat) →
    n.val < s.inst.nctx → (s.ctx n).state = .empty →
    rangeOk n s.src.toNat s.len.toNat s.dst.toNat maxout s = true →
    exec i s = .next
      { s with
        ctxs := s.ctxs.set n.val
          { s.ctx n with
            state := .busy, op := op, lastop := op, jsrc := s.src.toNat, jdst := s.dst.toNat,
            jlen := s.len.toNat, nblk := nblk, maxout := maxout, blk := 0, err := .none, outlen := 0#32 } }

/-! ### Rejections (60_exceptions.md) -/

/-- R343. A rejection writes its code, the CTX field, REJ and REJ_IRQ, and nothing else. -/
def Obligations.RejectWritesOnlyStatus : Prop :=
  ∀ (code : ErrCode) (w : Word) (s : State),
    reject code (ctxField w) s =
      { s with
        gstatus := { s.gstatus with issueErr := code, issueCtx := (w.extractLsb' 8 4).toFin, rej := true }
        irqStatus := s.irqStatus ||| 0x80000000#32 }

/-- R342. The three causes of a rejection, exactly, in the order of R345: a word that passes none of them is not rejected. -/
def Obligations.RejectionCausesExactly : Prop :=
  ∀ (w : Word) (s : State), w.extractLsb' 0 4 ≠ 0#4 →
    (¬ wellFormedWord s.inst w → issue w s = .next (reject .illegalCommand (ctxField w) s)) ∧
    (wellFormedWord s.inst w → ∃ (i : Instr) (n : Fin 16), decode w = .ok i ∧ i.ctx? = some n ∧ ctxField w = n ∧
      (stateForbids i (s.ctx n).state → issue w s = .next (reject .badState n s)) ∧
      (¬ stateForbids i (s.ctx n).state →
        (∀ sh, startedShape i (s.ctx n).mode = some sh →
          rangeOk n s.src.toNat s.len.toNat s.dst.toNat (maxoutOf sh s.inst.b s.len.toNat) s = false →
          issue w s = .next (reject .invalidRange n s)) ∧
        ((∀ sh, startedShape i (s.ctx n).mode = some sh →
            rangeOk n s.src.toNat s.len.toNat s.dst.toNat (maxoutOf sh s.inst.b s.len.toNat) s = true) →
          ∀ t, issue w s = .next t →
            t.gstatus = s.gstatus ∧ t.irqStatus.getLsbD 31 = s.irqStatus.getLsbD 31)))

/-- R90. The range check is the three conditions on sets of offsets, in unbounded integers. -/
def Obligations.RangeCheckMeansDisjoint : Prop :=
  ∀ (n : Fin 16) (src len dst out : Nat) (s : State),
    rangeOk n src len dst out s = true ↔
      (src + len ≤ s.inst.msgmemBytes ∧ dst + out ≤ s.inst.msgmemBytes) ∧
      ((∀ x, ¬ ((src ≤ x ∧ x < src + len) ∧ dst ≤ x ∧ x < dst + out)) ∨ src = dst) ∧
      ∀ m : Fin 16, m ≠ n → m.val < s.inst.nctx → (s.ctx m).state = .busy → ∀ x,
        ((dst ≤ x ∧ x < dst + out) →
          ¬ ((s.ctx m).jsrc ≤ x ∧ x < (s.ctx m).jsrc + (s.ctx m).jlen) ∧
          ¬ ((s.ctx m).jdst ≤ x ∧ x < (s.ctx m).jdst + (s.ctx m).maxout)) ∧
        ((src ≤ x ∧ x < src + len) → ¬ ((s.ctx m).jdst ≤ x ∧ x < (s.ctx m).jdst + (s.ctx m).maxout))

/-! ### The padding handler (41_padding.md) -/

/-- R181. The length of a padded string, a positive multiple of B. -/
def Obligations.PaddedLengthIsPositiveMultiple : Prop :=
  ∀ (b : Nat) (x : Bytes), 0 < b →
    (padBytes b x).length = (x.length / b + 1) * b ∧ 0 < (padBytes b x).length ∧ (padBytes b x).length % b = 0

/-- R182. PadLen answers `n` exactly when the last byte is `n`, `1 ≤ n ≤ B`, `n ≤ len`, and each of the last `n` bytes is
`n`. -/
def Obligations.PadLenInspectsEveryPaddingByte : Prop :=
  ∀ (b n : Nat) (y : Bytes),
    padLen b y = some n ↔
      y ≠ [] ∧ (y.getD (y.length - 1) 0#8).toNat = n ∧ 1 ≤ n ∧ n ≤ b ∧ n ≤ y.length ∧
      ∀ j, y.length - n ≤ j → j < y.length → (y.getD j 0#8).toNat = n

/-- R185. Unpadding a padded string gives it back, and a last byte 0 or above B is INVALID. -/
def Obligations.UnpadInvertsPad : Prop :=
  ∀ (b : Nat), b = 8 ∨ b = 16 →
    (∀ x : Bytes, ∃ n, padLen b (padBytes b x) = some n ∧ (padBytes b x).take ((padBytes b x).length - n) = x) ∧
    (∀ (y : Bytes) (v : Byte), v = 0#8 ∨ b < v.toNat → padLen b (y ++ [v]) = none)

/-- R183. Only the last `min(L, B)` bytes decide the padding check. -/
def Obligations.PadCheckReadsOnlyTheLastBlock : Prop :=
  ∀ (b : Nat) (y : Bytes), padLen b y = padLen b (y.drop (y.length - min y.length b))

/-! ### The transforms (42_modes.md) -/

/-- R236, R10. Primitive use, output and CHAIN of each mode and direction, for full and for short pieces; the exclusive-or of
two strings is bytewise (R237), as long as the shorter of them, and `zeros n` is `n` bytes 0. (What the exclusive-or of two
strings of different lengths is where the first is the longer is the model's, DEDUCED, log 20.) -/
def Obligations.TransformsFollowTheTable : Prop :=
  (∀ (p : Params) (nl : Nat) (k chain x : Bytes),
    xform p .ecb .enc nl k chain x = (primE p k x, chain) ∧
    xform p .ecb .dec nl k chain x = (primD p k x, chain) ∧
    xform p .cbc .enc nl k chain x = (primE p k (xorBytes x chain), primE p k (xorBytes x chain)) ∧
    xform p .cbc .dec nl k chain x = (xorBytes (primD p k x) chain, x) ∧
    (x.length = p.b → xform p .cfb .enc nl k chain x = (xorBytes x (primE p k chain), xorBytes x (primE p k chain))) ∧
    (x.length = p.b → xform p .cfb .dec nl k chain x = (xorBytes x (primE p k chain), x)) ∧
    (∀ dir, x.length < p.b → xform p .cfb dir nl k chain x = (xorBytes x (primE p k chain), chain)) ∧
    (∀ dir, xform p .ofb dir nl k chain x = (xorBytes x (primE p k chain), primE p k chain)) ∧
    (∀ dir, xform p .ctr dir nl k chain x =
      (xorBytes x (primE p k chain),
       chain.take nl ++ beBytes (p.b - nl) ((be (chain.drop nl) + 1) % 256 ^ (p.b - nl))))) ∧
  (∀ a b : Bytes, (xorBytes a b).length = min a.length b.length ∧
    ∀ i, i < min a.length b.length → (xorBytes a b).getD i 0#8 = a.getD i 0#8 ^^^ b.getD i 0#8) ∧
  (∀ n : Nat, (zeros n).length = n ∧ ∀ x ∈ zeros n, x = 0#8)

/-- R230, R49, R237, R11. The counter of a counter block goes up by 1 modulo `256^W`, and the nonce prefix never changes.
The numbers are big-endian: the first byte of a string is its most significant, and the `W`-byte string of a number below
`256^W` is worth that number. -/
def Obligations.CounterStepKeepsNonce : Prop :=
  (∀ (p : Params) (nl : Nat) (k chain x : Bytes) (dir : Dir), nl ≤ p.b → chain.length = p.b →
    let chain' := (xform p .ctr dir nl k chain x).2
    chain'.length = p.b ∧ chain'.take nl = chain.take nl ∧
    be (chain'.drop nl) = (be (chain.drop nl) + 1) % 256 ^ (p.b - nl) ∧ be (chain'.drop nl) < 256 ^ (p.b - nl)) ∧
  be [] = 0 ∧
  (∀ (x : Byte) (rest : Bytes), be (x :: rest) = x.toNat * 256 ^ rest.length + be rest) ∧
  (∀ w v : Nat, (beBytes w v).length = w) ∧
  (∀ w v : Nat, v < 256 ^ w → be (beBytes w v) = v)

/-- R227. The OFB keystream of block `i` is `E` applied `i + 1` times to the IV, whatever the input. -/
def Obligations.OfbKeystreamIgnoresData : Prop :=
  ∀ (p : Params) (dir : Dir) (nl : Nat) (k iv : Bytes) (pieces : List Bytes),
    foldBlocks p .ofb dir nl k pieces iv =
      ((pieces.zipIdx.map (fun q => xorBytes q.1 ((primE p k)^[q.2 + 1] iv))).flatten,
       (primE p k)^[pieces.length] iv)

/-- R224, R217. In CFB and CBC decryption, block `i + 1` of the output depends on ciphertext blocks `i` and `i + 1` only. -/
def Obligations.DecryptedBlockDependsOnTwoCiphertextBlocks : Prop :=
  ∀ (p : Params) (nl : Nat) (k iv : Bytes) (pieces : List Bytes) (i : Nat) (c d : Bytes),
    p.legal = true → k.length = p.keyBytes → iv.length = p.b → (∀ x ∈ pieces, x.length = p.b) →
    pieces[i]? = some c → pieces[i + 1]? = some d →
    ((foldBlocks p .cfb .dec nl k pieces iv).1.take ((i + 2) * p.b)).drop ((i + 1) * p.b) = xorBytes d (primE p k c) ∧
    ((foldBlocks p .cbc .dec nl k pieces iv).1.take ((i + 2) * p.b)).drop ((i + 1) * p.b) = xorBytes (primD p k d) c

/-- R284. Decrypting an encrypted message with the same key and IV, nonce and counter gives it back without error; ECB and
CBC need the primitive's inverse property (R164). -/
def Obligations.DecryptInvertsEncrypt : Prop :=
  ∀ (p : Params) (mode : Mode) (nl : Nat) (k c0 x : Bytes),
    p.legal = true → k.length = p.keyBytes → c0.length = p.b → nl ≤ p.b →
    (mode = .ecb ∨ mode = .cbc → PrimInv p) →
    (message p mode .enc nl k c0 x).2 = .none ∧
    message p mode .dec nl k c0 (message p mode .enc nl k c0 x).1 = (x, .none)

/-! ### The engine (42_modes.md, 43_stream_driver.md, 44_control_interleaver.md) -/

/-- R274, R12. The splitter gives the `i`-th block of the message, of the padded message for a padded job, with its place and
its length; the message is the bytes of the source range; and ENCRYPT pads and DECRYPT is aligned in ECB and CBC only, PAD
pads, and every other job is a stream. -/
def Obligations.SplitterCutsTheMessage : Prop :=
  (∀ mode : Mode,
    jobShape .encrypt mode = some (if mode = .ecb ∨ mode = .cbc then .padded else .stream) ∧
    jobShape .decrypt mode = some (if mode = .ecb ∨ mode = .cbc then .aligned else .stream) ∧
    jobShape .pad mode = some .padded ∧ jobShape .unpad mode = some .stream) ∧
  ∀ (s : State) (n : Fin 16) (sh : JobShape) (i : Nat), s.Good → busy s n = true →
    jobShape (s.ctx n).op (s.ctx n).mode = some sh → i < (s.ctx n).nblk →
    let c := s.ctx n
    let message := s.mem.read c.jsrc c.jlen
    let whole := if sh = .padded then padBytes s.inst.b message else message
    let block := (whole.drop (i * s.inst.b)).take s.inst.b
    split sh c i s = .ok { input := block, dstoff := i * s.inst.b, wlen := block.length } ∧
    (sh ≠ .stream → block.length = s.inst.b) ∧ 1 ≤ block.length ∧
    message.length = c.jlen ∧ ∀ j < c.jlen, message.getD j 0#8 = s.mem.get (c.jsrc + j)

/-- R211. A block step of an ENCRYPT or DECRYPT job: the transform of the block's piece goes to the destination at the
piece's offset, CHAIN and BLK advance, and no other field, register or byte changes. -/
def Obligations.BlockStepTransformsOneBlock : Prop :=
  ∀ (s : State) (n : Fin 16) (dir : Dir), s.Good → busy s n = true → (s.ctx n).blk < (s.ctx n).nblk →
    ((s.ctx n).op = .encrypt ∧ dir = .enc ∨ (s.ctx n).op = .decrypt ∧ dir = .dec) →
    ∃ (sh : JobShape) (piece : Piece) (m : Memory),
      jobShape (s.ctx n).op (s.ctx n).mode = some sh ∧ split sh (s.ctx n) (s.ctx n).blk s = .ok piece ∧
      (let c := s.ctx n
       let r := xform s.inst c.mode dir c.nl.toNat c.k c.chain piece.input
       engineTurn n s = .next { s with mem := m, ctxs := s.ctxs.set n.val { c with chain := r.2, blk := c.blk + 1 } } ∧
       r.1.length = piece.wlen ∧
       ∀ x, m.get x =
        if c.jdst + piece.dstoff ≤ x ∧ x < c.jdst + piece.dstoff + piece.wlen
        then r.1.getD (x - (c.jdst + piece.dstoff)) 0#8 else s.mem.get x)

/-- R192. A copy step of a PAD or UNPAD job, the same with the identity for the transform. -/
def Obligations.CopyStepCopiesOneBlock : Prop :=
  ∀ (s : State) (n : Fin 16), s.Good → busy s n = true → (s.ctx n).blk < (s.ctx n).nblk →
    ((s.ctx n).op = .pad ∨ (s.ctx n).op = .unpad) →
    ∃ (sh : JobShape) (piece : Piece) (m : Memory),
      jobShape (s.ctx n).op (s.ctx n).mode = some sh ∧ split sh (s.ctx n) (s.ctx n).blk s = .ok piece ∧
      (let c := s.ctx n
       engineTurn n s = .next { s with mem := m, ctxs := s.ctxs.set n.val { c with blk := c.blk + 1 } } ∧
       piece.input.length = piece.wlen ∧
       ∀ x, m.get x =
        if c.jdst + piece.dstoff ≤ x ∧ x < c.jdst + piece.dstoff + piece.wlen
        then piece.input.getD (x - (c.jdst + piece.dstoff)) 0#8 else s.mem.get x)

/-- R193, R280. The completion step of a job without a padding check: SPENT, or EMPTY after PAD; OUTLEN is MAXOUT for a
padded job and JLEN otherwise; no byte is written. (That OUTLEN is the low 32 bits of a length that needs more, as only a state
that is not well formed can hold, is the model's, DEDUCED, log 19.) -/
def Obligations.PlainCompletionReportsLength : Prop :=
  ∀ (s : State) (n : Fin 16), n.val < s.inst.nctx → (s.ctx n).state = .busy → (s.ctx n).blk = (s.ctx n).nblk →
    ((s.ctx n).op = .encrypt ∨ (s.ctx n).op = .pad ∨
      (s.ctx n).op = .decrypt ∧ (s.ctx n).mode ≠ .ecb ∧ (s.ctx n).mode ≠ .cbc) →
    engineTurn n s = .next
      { s with
        ctxs := s.ctxs.set n.val
          { s.ctx n with
            state := if (s.ctx n).op = .pad then .empty else .spent, err := .none,
            outlen := BitVec.ofNat 32
              (if (s.ctx n).op = .pad ∨ (s.ctx n).op = .encrypt ∧ ((s.ctx n).mode = .ecb ∨ (s.ctx n).mode = .cbc)
               then (s.ctx n).maxout else (s.ctx n).jlen) }
        irqStatus := s.irqStatus ||| (1#32 <<< n.val) }

/-- R198, R280, R281, R282. The completion step of an UNPAD job and of an ECB or CBC DECRYPT: INVALID padding zeroes the
whole destination and reports InvalidPadding; valid padding is scrubbed and OUTLEN is what is left; no other byte changes. -/
def Obligations.UnpaddingCompletionScrubs : Prop :=
  ∀ (s : State) (n : Fin 16), s.Good → busy s n = true → (s.ctx n).blk = (s.ctx n).nblk →
    ((s.ctx n).op = .unpad ∨ (s.ctx n).op = .decrypt ∧ ((s.ctx n).mode = .ecb ∨ (s.ctx n).mode = .cbc)) →
    let c := s.ctx n
    let after := if c.op = .unpad then Lifecycle.empty else Lifecycle.spent
    (padLen s.inst.b (s.mem.read c.jdst c.jlen) = none →
      ∃ m : Memory,
        engineTurn n s = .next
          { s with
            mem := m
            ctxs := s.ctxs.set n.val { c with state := after, err := .invalidPadding, outlen := 0#32 }
            irqStatus := s.irqStatus ||| (1#32 <<< n.val) } ∧
        ∀ x, m.get x = if c.jdst ≤ x ∧ x < c.jdst + c.maxout then 0#8 else s.mem.get x) ∧
    (∀ p, padLen s.inst.b (s.mem.read c.jdst c.jlen) = some p →
      ∃ m : Memory,
        engineTurn n s = .next
          { s with
            mem := m
            ctxs := s.ctxs.set n.val { c with state := after, err := .none, outlen := BitVec.ofNat 32 (c.jlen - p) }
            irqStatus := s.irqStatus ||| (1#32 <<< n.val) } ∧
        ∀ x, m.get x = if c.jdst + c.jlen - p ≤ x ∧ x < c.jdst + c.jlen then 0#8 else s.mem.get x)

/-- R54, R80. An engine step of one context changes no other context, no register but that context's CDONE, and no byte
outside that job's destination; a turn on a context that is not BUSY changes nothing (log 7). -/
def Obligations.EngineTurnStaysInItsJob : Prop :=
  (∀ (s : State) (n : Fin 16), busy s n = false → engineTurn n s = .next s) ∧
  (∀ (s t : State) (n : Fin 16), s.Good → engineTurn n s = .next t →
    (∀ m, m ≠ n → t.ctx m = s.ctx m) ∧
    (t.irqStatus = s.irqStatus ∨ t.irqStatus = s.irqStatus ||| (1#32 <<< n.val)) ∧
    (∀ x, ¬ ((s.ctx n).jdst ≤ x ∧ x < (s.ctx n).jdst + (s.ctx n).maxout) → t.mem.get x = s.mem.get x) ∧
    t = { s with ctxs := t.ctxs, mem := t.mem, irqStatus := t.irqStatus })

/-- R231, R49. While a CTR job runs, block `i`'s counter block is the nonce followed by the counter latched at issue plus
`i`. -/
def Obligations.CtrJobCountsFromItsStart : Prop :=
  ∀ (s : State) (n : Fin 16) (x c0 : Bytes), s.Good → JobProgress s n x c0 → (s.ctx n).mode = .ctr →
    (s.ctx n).blk < (s.ctx n).nblk →
    counterOf (s.ctx n).nl.toNat c0 + (s.ctx n).nblk ≤ 256 ^ (s.inst.b - (s.ctx n).nl.toNat) →
    (s.ctx n).chain =
      c0.take (s.ctx n).nl.toNat ++
        beBytes (s.inst.b - (s.ctx n).nl.toNat) (be (c0.drop (s.ctx n).nl.toNat) + (s.ctx n).blk)

/-! ### The host's window (10_state.md, 20_memory.md) -/

/-- R84. A misaligned access answers SLVERR, a read with data 0, and changes nothing but BUSERR (what the model keeps of the
response is log 6). -/
def Obligations.MisalignedAccessSetsOnlyBuserr : Prop :=
  ∀ (a : BitVec 16) (v : Word) (s : State), a.toNat % 4 ≠ 0 →
    hostRead a s = .next
      { s with gstatus := { s.gstatus with buserr := true }, resp := some { slverr := true, data := some 0#32 } } ∧
    hostWrite a v s = .next
      { s with gstatus := { s.gstatus with buserr := true }, resp := some { slverr := true, data := none } }

/-- R94, R58. An aligned read answers OKAY with data and changes nothing. (The OKAY of every aligned access is the model's,
DEDUCED, log 15; the stored response, log 6.) -/
def Obligations.AlignedReadHasNoSideEffect : Prop :=
  ∀ (a : BitVec 16) (s : State), a.toNat % 4 = 0 →
    ∃ v : Word, hostRead a s = .next { s with resp := some { slverr := false, data := some v } }

/-- R91, R81. An aligned access to a reserved offset answers OKAY; a read returns 0 and a write changes nothing (what
the model keeps of the response is log 6). -/
def Obligations.ReservedOffsetsReadZero : Prop :=
  ∀ (a : BitVec 16) (v : Word) (s : State), a.toNat % 4 = 0 →
    (a.toNat = 0x000C ∨ a.toNat = 0x001C ∨ (0x0034 ≤ a.toNat ∧ a.toNat ≤ 0x003C) ∨
     (0x0080 ≤ a.toNat ∧ a.toNat ≤ 0x00FC) ∨ (0x0100 + 8 * s.inst.nctx ≤ a.toNat ∧ a.toNat ≤ 0x7FFC) ∨
     0x8000 + s.inst.msgmemBytes ≤ a.toNat) →
    hostRead a s = .next { s with resp := some { slverr := false, data := some 0#32 } } ∧
    hostWrite a v s = .next { s with resp := some { slverr := false, data := none } }

/-- R31, R32. ID, PARAM0 and PARAM1 read the constants of the instance, writes are ignored, and no step changes the
parameters. (The OKAY of these accesses is the model's, DEDUCED, log 15; the stored response, log 6.) -/
def Obligations.IdAndParamsAreConstant : Prop :=
  (∀ (s t : State), step s = .next t → t.inst = s.inst) ∧
  ∀ (s : State), s.inst.legal = true →
    hostRead 0x0000#16 s = .next { s with resp := some { slverr := false, data := some 0x4D534D31#32 } } ∧
    (∃ v : Word,
      hostRead 0x0004#16 s = .next { s with resp := some { slverr := false, data := some v } } ∧
      (v.extractLsb' 0 8).toNat = s.inst.b ∧ (v.extractLsb' 8 8).toNat = s.inst.keyBytes ∧
      (v.extractLsb' 16 5).toNat = s.inst.nctx ∧ v.extractLsb' 21 3 = 0#3 ∧
      (v.extractLsb' 24 4).toNat = s.inst.nlanes ∧ v.extractLsb' 28 4 = 0#4) ∧
    (∃ v : Word,
      hostRead 0x0008#16 s = .next { s with resp := some { slverr := false, data := some v } } ∧
      v.toNat = s.inst.msgmemBytes) ∧
    ∀ (a : BitVec 16) (v : Word), a = 0x0000#16 ∨ a = 0x0004#16 ∨ a = 0x0008#16 →
      hostWrite a v s = .next { s with resp := some { slverr := false, data := none } }

/-- R33, R341. GSTATUS reads its fields at their places, ISSUE_ERR with the code's number, and 0 elsewhere; a write clears the sticky bits written 1, with ISSUE_ERR
and ISSUE_CTX where bit 16 is, and changes nothing else. (The OKAY of these accesses is the model's, DEDUCED, log 15; the
stored response, log 6.) -/
def Obligations.GstatusFieldsAndWriteOneClear : Prop :=
  ∀ (s : State) (w : Word),
    (∃ v : Word,
      hostRead 0x0010#16 s = .next { s with resp := some { slverr := false, data := some v } } ∧
      (s.gstatus.issueErr = .none → v.extractLsb' 0 4 = 0#4) ∧
      (s.gstatus.issueErr = .invalidKeyLength → v.extractLsb' 0 4 = 1#4) ∧
      (s.gstatus.issueErr = .invalidIVLength → v.extractLsb' 0 4 = 2#4) ∧
      (s.gstatus.issueErr = .invalidLength → v.extractLsb' 0 4 = 3#4) ∧
      (s.gstatus.issueErr = .invalidPadding → v.extractLsb' 0 4 = 4#4) ∧
      (s.gstatus.issueErr = .counterOverflow → v.extractLsb' 0 4 = 5#4) ∧
      (s.gstatus.issueErr = .illegalCommand → v.extractLsb' 0 4 = 6#4) ∧
      (s.gstatus.issueErr = .badState → v.extractLsb' 0 4 = 7#4) ∧
      (s.gstatus.issueErr = .invalidRange → v.extractLsb' 0 4 = 8#4) ∧
      (s.gstatus.issueErr = .aborted → v.extractLsb' 0 4 = 9#4) ∧
      v.extractLsb' 4 4 = 0#4 ∧
      (v.extractLsb' 8 4).toFin = s.gstatus.issueCtx ∧ v.extractLsb' 12 4 = 0#4 ∧
      v.getLsbD 16 = s.gstatus.rej ∧ v.getLsbD 17 = s.gstatus.buserr ∧ v.getLsbD 18 = s.gstatus.wrconf ∧
      v.extractLsb' 19 13 = 0#13) ∧
    hostWrite 0x0010#16 w s = .next
      { s with
        gstatus :=
          { issueErr := if w.getLsbD 16 = true then .none else s.gstatus.issueErr
            issueCtx := if w.getLsbD 16 = true then 0 else s.gstatus.issueCtx
            rej := if w.getLsbD 16 = true then false else s.gstatus.rej
            buserr := if w.getLsbD 17 = true then false else s.gstatus.buserr
            wrconf := if w.getLsbD 18 = true then false else s.gstatus.wrconf }
        resp := some { slverr := false, data := none } }

/-- R34, R35, R58. IRQ_STATUS is write-one-to-clear and IRQ_ENABLE read-write on the implemented bits, bit `i` for a context
`i` there is and bit 31; a write changes nothing else. (The OKAY of these accesses is the model's, DEDUCED, log 15; the stored
response, log 6.) -/
def Obligations.InterruptRegistersBitByBit : Prop :=
  ∀ (s : State) (w : Word), s.inst.nctx ≤ 16 →
    hostRead 0x0014#16 s = .next { s with resp := some { slverr := false, data := some s.irqStatus } } ∧
    hostRead 0x0018#16 s = .next { s with resp := some { slverr := false, data := some s.irqEnable } } ∧
    (∃ v : Word,
      hostWrite 0x0014#16 w s = .next { s with irqStatus := v, resp := some { slverr := false, data := none } } ∧
      ∀ i, v.getLsbD i =
        (s.irqStatus.getLsbD i && !(w.getLsbD i && (decide (i < s.inst.nctx) || decide (i = 31))))) ∧
    (∃ v : Word,
      hostWrite 0x0018#16 w s = .next { s with irqEnable := v, resp := some { slverr := false, data := none } } ∧
      ∀ i, v.getLsbD i = (w.getLsbD i && (decide (i < s.inst.nctx) || decide (i = 31))))

/-- R36. The output line is 1 exactly when a pending cause is enabled. -/
def Obligations.IrqLineIsPendingAndEnabled : Prop :=
  ∀ s : State, s.irq = true ↔ ∃ i, i < 32 ∧ s.irqStatus.getLsbD i = true ∧ s.irqEnable.getLsbD i = true

/-- R37, R38, R41, R42, R58. Each staging register by its offset: CFG takes KEYLEN, IVLEN and NONCELEN from bits 5:0, 12:8 and
20:16 of the word written, and SRC, DST, LEN, IVj and CTRINITj take the word. A write changes that register only, so no latched
operand (R51); a read of it then returns the word written, in CFG with the reserved bits 0, and every other offset reads as
before. (The OKAY of these accesses is the model's, DEDUCED, log 15; the stored response, log 6.) -/
def Obligations.StagingRegistersReadBack : Prop :=
  (∀ (v : Word) (s : State),
    let okay : Option BusResponse := some { slverr := false, data := none }
    hostWrite 0x0020#16 v s = .next
      { s with
        cfg := { keylen := v.extractLsb' 0 6, ivlen := v.extractLsb' 8 5, noncelen := v.extractLsb' 16 5 }, resp := okay } ∧
    hostWrite 0x0024#16 v s = .next { s with src := v, resp := okay } ∧
    hostWrite 0x0028#16 v s = .next { s with dst := v, resp := okay } ∧
    hostWrite 0x002C#16 v s = .next { s with len := v, resp := okay } ∧
    (∀ j : Fin 4, hostWrite (BitVec.ofNat 16 (0x0060 + 4 * j.val)) v s =
      .next { s with iv := s.iv.set j.val v, resp := okay }) ∧
    (∀ j : Fin 4, hostWrite (BitVec.ofNat 16 (0x0070 + 4 * j.val)) v s =
      .next { s with ctrinit := s.ctrinit.set j.val v, resp := okay })) ∧
  (∀ s : State,
    (∃ v : Word,
      hostRead 0x0020#16 s = .next { s with resp := some { slverr := false, data := some v } } ∧
      v.extractLsb' 0 6 = s.cfg.keylen ∧ v.extractLsb' 8 5 = s.cfg.ivlen ∧ v.extractLsb' 16 5 = s.cfg.noncelen) ∧
    hostRead 0x0024#16 s = .next { s with resp := some { slverr := false, data := some s.src } } ∧
    hostRead 0x0028#16 s = .next { s with resp := some { slverr := false, data := some s.dst } } ∧
    hostRead 0x002C#16 s = .next { s with resp := some { slverr := false, data := some s.len } } ∧
    (∀ j : Fin 4, hostRead (BitVec.ofNat 16 (0x0060 + 4 * j.val)) s =
      .next { s with resp := some { slverr := false, data := some s.iv[j.val] } }) ∧
    (∀ j : Fin 4, hostRead (BitVec.ofNat 16 (0x0070 + 4 * j.val)) s =
      .next { s with resp := some { slverr := false, data := some s.ctrinit[j.val] } })) ∧
  (∀ (a : BitVec 16) (v : Word) (s : State), a.toNat % 4 = 0 →
    (0x0020 ≤ a.toNat ∧ a.toNat ≤ 0x002C) ∨ (0x0060 ≤ a.toNat ∧ a.toNat ≤ 0x007C) →
    ∃ t, hostWrite a v s = .next t ∧
      t = { s with cfg := t.cfg, src := t.src, dst := t.dst, len := t.len, iv := t.iv, ctrinit := t.ctrinit,
                   resp := some { slverr := false, data := none } } ∧
      ∀ a' : BitVec 16, a'.toNat % 4 = 0 →
        let seen := if a' = a then (if a = 0x0020#16 then v &&& 0x001F1F3F#32 else v)
          else readReg s (regAt s.inst a'.toNat)
        hostRead a' t = .next { t with resp := some { slverr := false, data := some seen } })

/-- R39, R40. KEYj and CMD read 0; a write to KEYj changes that staging word only. (The OKAY of these accesses is the model's,
DEDUCED, log 15; the stored response, log 6.) -/
def Obligations.KeyAndCommandRegistersReadZero : Prop :=
  (∀ (a : BitVec 16) (s : State), a.toNat % 4 = 0 → a.toNat = 0x0030 ∨ (0x0040 ≤ a.toNat ∧ a.toNat ≤ 0x005C) →
    hostRead a s = .next { s with resp := some { slverr := false, data := some 0#32 } }) ∧
  (∀ (j : Fin 8) (v : Word) (s : State),
    hostWrite (BitVec.ofNat 16 (0x0040 + 4 * j.val)) v s = .next
      { s with key := s.key.set j.val v, resp := some { slverr := false, data := none } })

/-- R40, R41, R42, R86. Byte `4j + b` of a staging string is byte `b` of word `j`, and the starting counter is the four words,
the first the least significant. -/
def Obligations.StagingStringsAreLittleEndian : Prop :=
  ∀ s : State,
    (keyString s).length = 32 ∧ (ivString s).length = 16 ∧
    (∀ (j : Fin 8) (b : Fin 4), (keyString s).getD (4 * j.val + b.val) 0#8 = s.key[j.val].extractLsb' (8 * b.val) 8) ∧
    (∀ (j : Fin 4) (b : Fin 4), (ivString s).getD (4 * j.val + b.val) 0#8 = s.iv[j.val].extractLsb' (8 * b.val) 8) ∧
    startCounter s = s.ctrinit[0].toNat + s.ctrinit[1].toNat * 2 ^ 32 + s.ctrinit[2].toNat * 2 ^ 64 +
      s.ctrinit[3].toNat * 2 ^ 96

/-- R43, R44, R46, R122, R123, R341. CTXn_STATUS shows STATE, MODE, ERR and LASTOP at their places, each with its number, and
0 elsewhere, CTXn_OUTLEN the output length; writes are
ignored. (The OKAY of these accesses is the model's, DEDUCED, log 15; the stored response, log 6.) -/
def Obligations.ContextStatusShowsFields : Prop :=
  ∀ (s : State) (n : Fin 16) (w : Word), n.val < s.inst.nctx →
    (∃ v : Word,
      hostRead (BitVec.ofNat 16 (0x0100 + 8 * n.val)) s = .next { s with resp := some { slverr := false, data := some v } } ∧
      ((s.ctx n).state = .empty → v.extractLsb' 0 2 = 0#2) ∧ ((s.ctx n).state = .ready → v.extractLsb' 0 2 = 1#2) ∧
      ((s.ctx n).state = .busy → v.extractLsb' 0 2 = 2#2) ∧ ((s.ctx n).state = .spent → v.extractLsb' 0 2 = 3#2) ∧
      ((s.ctx n).mode = .ecb → v.extractLsb' 4 3 = 0#3) ∧ ((s.ctx n).mode = .cbc → v.extractLsb' 4 3 = 1#3) ∧
      ((s.ctx n).mode = .cfb → v.extractLsb' 4 3 = 2#3) ∧ ((s.ctx n).mode = .ofb → v.extractLsb' 4 3 = 3#3) ∧
      ((s.ctx n).mode = .ctr → v.extractLsb' 4 3 = 4#3) ∧
      ((s.ctx n).err = .none → v.extractLsb' 8 4 = 0#4) ∧ ((s.ctx n).err = .invalidKeyLength → v.extractLsb' 8 4 = 1#4) ∧
      ((s.ctx n).err = .invalidIVLength → v.extractLsb' 8 4 = 2#4) ∧
      ((s.ctx n).err = .invalidLength → v.extractLsb' 8 4 = 3#4) ∧
      ((s.ctx n).err = .invalidPadding → v.extractLsb' 8 4 = 4#4) ∧
      ((s.ctx n).err = .counterOverflow → v.extractLsb' 8 4 = 5#4) ∧
      ((s.ctx n).err = .illegalCommand → v.extractLsb' 8 4 = 6#4) ∧ ((s.ctx n).err = .badState → v.extractLsb' 8 4 = 7#4) ∧
      ((s.ctx n).err = .invalidRange → v.extractLsb' 8 4 = 8#4) ∧ ((s.ctx n).err = .aborted → v.extractLsb' 8 4 = 9#4) ∧
      ((s.ctx n).lastop = .none → v.extractLsb' 12 4 = 0#4) ∧ ((s.ctx n).lastop = .init → v.extractLsb' 12 4 = 1#4) ∧
      ((s.ctx n).lastop = .encrypt → v.extractLsb' 12 4 = 2#4) ∧ ((s.ctx n).lastop = .decrypt → v.extractLsb' 12 4 = 3#4) ∧
      ((s.ctx n).lastop = .discard → v.extractLsb' 12 4 = 4#4) ∧ ((s.ctx n).lastop = .abort → v.extractLsb' 12 4 = 5#4) ∧
      ((s.ctx n).lastop = .pad → v.extractLsb' 12 4 = 6#4) ∧ ((s.ctx n).lastop = .unpad → v.extractLsb' 12 4 = 7#4) ∧
      v.extractLsb' 2 2 = 0#2 ∧ v.extractLsb' 7 1 = 0#1 ∧ v.extractLsb' 16 16 = 0#16) ∧
    hostRead (BitVec.ofNat 16 (0x0104 + 8 * n.val)) s =
      .next { s with resp := some { slverr := false, data := some (s.ctx n).outlen } } ∧
    hostWrite (BitVec.ofNat 16 (0x0100 + 8 * n.val)) w s = .next { s with resp := some { slverr := false, data := none } } ∧
    hostWrite (BitVec.ofNat 16 (0x0104 + 8 * n.val)) w s = .next { s with resp := some { slverr := false, data := none } }

/-- R86, R88. A host read of an MSGMEM word assembles its bytes little-endian, each 0 where it lies in a BUSY job's
destination; the response is OKAY and the read changes nothing (what the model keeps of the response is log 6). -/
def Obligations.HostReadIsGated : Prop :=
  ∀ (s : State) (j : Nat), j % 4 = 0 → j < s.inst.msgmemBytes → s.inst.msgmemBytes ≤ 32768 →
    ∃ v : Word,
      hostRead (BitVec.ofNat 16 (0x8000 + j)) s = .next { s with resp := some { slverr := false, data := some v } } ∧
      ∀ b : Fin 4,
        ((∃ m : Fin 16, m.val < s.inst.nctx ∧ (s.ctx m).state = .busy ∧ (s.ctx m).jdst ≤ j + b.val ∧
            j + b.val < (s.ctx m).jdst + (s.ctx m).maxout) → v.extractLsb' (8 * b.val) 8 = 0#8) ∧
        ((∀ m : Fin 16, m.val < s.inst.nctx → (s.ctx m).state = .busy → ¬ ((s.ctx m).jdst ≤ j + b.val ∧
            j + b.val < (s.ctx m).jdst + (s.ctx m).maxout)) → v.extractLsb' (8 * b.val) 8 = s.mem.get (j + b.val))

/-- R86, R89. A host write of an MSGMEM word writes each byte that no BUSY job's source or destination holds and drops the
others; WRCONF is set exactly if a byte was dropped; the response is OKAY; no other byte or register changes (what the model
keeps of the response is log 6). -/
def Obligations.HostWriteDropsLockedBytes : Prop :=
  ∀ (s : State) (j : Nat) (w : Word), j % 4 = 0 → j < s.inst.msgmemBytes → s.inst.msgmemBytes ≤ 32768 →
    let held := fun x => ∃ m : Fin 16, m.val < s.inst.nctx ∧ (s.ctx m).state = .busy ∧
      (((s.ctx m).jsrc ≤ x ∧ x < (s.ctx m).jsrc + (s.ctx m).jlen) ∨
       ((s.ctx m).jdst ≤ x ∧ x < (s.ctx m).jdst + (s.ctx m).maxout))
    ∃ (m : Memory) (conf : Bool),
      hostWrite (BitVec.ofNat 16 (0x8000 + j)) w s = .next
        { s with mem := m, gstatus := { s.gstatus with wrconf := conf },
                 resp := some { slverr := false, data := none } } ∧
      (conf = true ↔ s.gstatus.wrconf = true ∨ ∃ b : Fin 4, held (j + b.val)) ∧
      (∀ b : Fin 4, held (j + b.val) → m.get (j + b.val) = s.mem.get (j + b.val)) ∧
      (∀ b : Fin 4, ¬ held (j + b.val) → m.get (j + b.val) = w.extractLsb' (8 * b.val) 8) ∧
      (∀ x, x < j ∨ j + 4 ≤ x → m.get x = s.mem.get x)

/-- R45, R50, R56. Two states that differ at most in the staged key and in the contexts' hidden fields other than JDST and
MAXOUT answer every bus read alike, and stay so. JDST and MAXOUT, hidden as well (R45), must agree: a read sees them through
the gated range (R56). -/
def Obligations.ReadsRevealNoHiddenState : Prop :=
  ∀ (s t : State) (a : BitVec 16), SameVisible s t →
    ∃ s' t', hostRead a s = .next s' ∧ hostRead a t = .next t' ∧ s'.resp = t'.resp ∧ SameVisible s' t'

/-! ### Reset (10_state.md R57, 70_reset_and_hazards.md R390) -/

/-- R57, R390. The reset input sets every register, every context and every byte to its reset value, from any state; and
`State.reset` has the same values. -/
def Obligations.ResetSetsEveryState : Prop :=
  (∀ (s : State) (rest : List Event), s.agenda = .rst :: rest →
    ∃ t, step s = .next t ∧ t.inst = s.inst ∧ ResetValues t) ∧
  ResetValues State.reset

/-- R57, R392, R8. The state after reset is well formed, for every legal set of parameters, the default ones of `State.reset`
among them (the parameters stand in the state, log 1, with a primitive that the spec gives no default, log 2). -/
def Obligations.ResetIsGood : Prop :=
  (∀ p : Params, p.legal = true → (State.resetFor p).Good) ∧ State.reset.Good

/-! ### Every run -/

/-- R45 to R49, R90. Every step of a well-formed state leads to a well-formed state: the lifecycle and status fields fit each
other, jobs stay inside MSGMEM and apart, BLK stays within NBLK, no job's counter wraps, unimplemented interrupt bits stay 0,
MSGMEM keeps its canonical form. -/
def Obligations.StepKeepsGood : Prop :=
  ∀ s t : State, s.Good → step s = .next t → t.Good

/-- R340, R316. A well-formed machine never stops: every step of it answers a next state. (Where the agenda is empty and no
context is BUSY, that next state is the same state, the model's choice, log 8; that a block step always ends rests on the
primitive's answer, DEDUCED, log 18.) -/
def Obligations.GoodMachineNeverStops : Prop :=
  ∀ s : State, s.Good → ∃ t, step s = .next t

/-- R47. STATE changes only by the transitions of the lifecycle table. -/
def Obligations.LifecycleTransitionsExactly : Prop :=
  ∀ (s t : State) (n : Fin 16), s.Good → step s = .next t → (t.ctx n).state ≠ (s.ctx n).state →
    ((∃ rest, s.agenda = .rst :: rest) ∧ (t.ctx n).state = .empty) ∨
    ((∃ i mode, s.nextCommand = some i ∧ isInit i mode n) ∧ (s.ctx n).state ≠ .busy ∧
      ((t.ctx n).state = .ready ∨ (t.ctx n).state = .empty)) ∨
    ((s.nextCommand = some (.encrypt n) ∨ s.nextCommand = some (.decrypt n)) ∧ (s.ctx n).state = .ready ∧
      ((t.ctx n).state = .busy ∧ ((t.ctx n).op = .encrypt ∨ (t.ctx n).op = .decrypt) ∨
       (t.ctx n).state = .spent ∧ ((t.ctx n).err = .invalidLength ∨ (t.ctx n).err = .counterOverflow))) ∨
    ((s.nextCommand = some (.pad n) ∨ s.nextCommand = some (.unpad n)) ∧ (s.ctx n).state = .empty ∧
      (t.ctx n).state = .busy ∧ ((t.ctx n).op = .pad ∨ (t.ctx n).op = .unpad)) ∨
    (s.nextCommand = some (.discard n) ∧ (s.ctx n).state ≠ .busy ∧ (t.ctx n).state = .empty) ∨
    ((s.nextCommand = some (.abort n) ∨
        (s.agenda = [] ∨ ∃ rest, s.agenda = .engine n :: rest) ∧ (s.ctx n).blk = (s.ctx n).nblk) ∧
      (s.ctx n).state = .busy ∧
      (((s.ctx n).op = .encrypt ∨ (s.ctx n).op = .decrypt) ∧ (t.ctx n).state = .spent ∨
       ((s.ctx n).op = .pad ∨ (s.ctx n).op = .unpad) ∧ (t.ctx n).state = .empty))

/-- R50. A step changes a context's key only if it is INIT or DISCARD of that context or reset. -/
def Obligations.KeyChangesOnlyByInitDiscardReset : Prop :=
  ∀ (s t : State) (n : Fin 16), step s = .next t → (t.ctx n).k ≠ (s.ctx n).k →
    (∃ rest, s.agenda = .rst :: rest) ∨ s.nextCommand = some (.discard n) ∨
    ∃ i mode, s.nextCommand = some i ∧ isInit i mode n

/-- R350, R353. A step sets at most one bit of IRQ_STATUS: CDONE of a context there is, or REJ_IRQ. -/
def Obligations.StepSetsAtMostOneCause : Prop :=
  ∀ s t : State, step s = .next t →
    ∃ bit : Word, (bit = 0#32 ∨ bit = 0x80000000#32 ∨ ∃ n : Fin 16, n.val < s.inst.nctx ∧ bit = 1#32 <<< n.val) ∧
      t.irqStatus &&& ~~~(s.irqStatus ||| bit) = 0#32

/-- R315, R106. Engine steps of two contexts commute: the order in which the interleaver takes them changes nothing. (A turn on
a context that is not BUSY changes nothing, the model's choice, log 7.) -/
def Obligations.EngineTurnsCommute : Prop :=
  ∀ (s : State) (m n : Fin 16), s.Good → m ≠ n →
    ∃ u v t, engineTurn m s = .next u ∧ engineTurn n s = .next v ∧ engineTurn n u = .next t ∧ engineTurn m v = .next t

/-- R307, R310. ABORT and the completion step in either order: after the completion ABORT is rejected with BadState and the
result stands; after ABORT the job has ended Aborted and the engine has nothing to do. (That an engine turn on a context no
longer BUSY passes and changes nothing is the model's choice, log 7.) -/
def Obligations.AbortCompletionRace : Prop :=
  ∀ (s : State) (n : Fin 16), s.Good → busy s n = true → (s.ctx n).blk = (s.ctx n).nblk →
    (∃ u, engineTurn n s = .next u ∧ exec (.abort n) u = .next (reject .badState n u)) ∧
    (∃ v, exec (.abort n) s = .next v ∧ (v.ctx n).err = .aborted ∧ engineTurn n v = .next v)

/-- R312, R316. With no host access or reset to come, the engine ends every job in exactly as many steps as the jobs have
block and completion steps left, whatever its choices: after any smaller number of steps some context is still BUSY, and after
that number none is. (The engine's choice is the model's free schedule, log 4; the empty agenda in place of a fairness premise
is the model's, log 5; an idle step answers the same state, log 8; that the primitive always answers is DEDUCED, log 18.) -/
def Obligations.EngineFinishesEveryJob : Prop :=
  ∀ s : State, s.Good → s.agenda = [] →
    (∃ t, Reaches (workLeft s) s t ∧ t.Good ∧ t.agenda = [] ∧ ∀ n, busy t n = false) ∧
    (∀ k < workLeft s, ∃ u, Reaches k s u ∧ ∃ n, busy u n = true)

/-- R51, R270, R190. A command that starts a job starts it on the bytes of its source range and the context's CHAIN, no block
done. -/
def Obligations.StartedJobHasProgress : Prop :=
  ∀ (s t : State) (i : Instr) (n : Fin 16), s.Good → exec i s = .next t → busy s n = false → busy t n = true →
    JobProgress t n (s.mem.read s.src.toNat s.len.toNat) (s.ctx n).chain ∧ (t.ctx n).blk = 0

/-- R275, R53, R106. While a job runs, no step of any agent disturbs it: its finished blocks stand at its destination, its
CHAIN is what they left, and the rest of its source is still the message's. -/
def Obligations.StepKeepsJobProgress : Prop :=
  ∀ (s t : State) (n : Fin 16) (x c0 : Bytes), s.Good → JobProgress s n x c0 → step s = .next t → busy t n = true →
    JobProgress t n x c0

/-- R276, R280 to R283. The completion step of a job leaves in its destination range exactly the message function's output
followed by zeros, and its code and output length. -/
def Obligations.CompletionDeliversMessage : Prop :=
  ∀ (s : State) (n : Fin 16) (x c0 : Bytes), s.Good → JobProgress s n x c0 → (s.ctx n).blk = (s.ctx n).nblk →
    ∃ t, engineTurn n s = .next t ∧
      (let c := s.ctx n
       let r := jobMessage s.inst c c0 x
       (t.ctx n).state = (if c.op = .encrypt ∨ c.op = .decrypt then .spent else .empty) ∧
       (t.ctx n).err = r.2 ∧ (t.ctx n).outlen.toNat = r.1.length ∧ t.irqStatus.getLsbD n.val = true ∧
       t.mem.read c.jdst c.maxout = r.1 ++ zeros (c.maxout - r.1.length))
end

