-- ==== Sys2Proof/Laws/Bytes.lean ====
section
/-! SUPPORT. Byte strings: lengths, exclusive-or, big-endian numbers. -/

namespace Sys2Proof.Machine

@[simp] theorem rep_length (v : Byte) (n : Nat) : (rep v n).length = n := by simp [rep]

@[simp] theorem zeros_length (n : Nat) : (zeros n).length = n := by simp [zeros]

@[simp] theorem zeros_zero : zeros 0 = [] := rfl

@[simp] theorem xorBytes_length (a b : Bytes) : (xorBytes a b).length = min a.length b.length := by simp [xorBytes]

/-- `xor_pre` gives a string as long as its first operand. -/
theorem xorBytes_length_of_le {a b : Bytes} (h : a.length ≤ b.length) : (xorBytes a b).length = a.length := by
  simp [h]

/-- The same keystream twice gives the data back. -/
theorem xorBytes_cancel {a k : Bytes} (h : a.length ≤ k.length) : xorBytes (xorBytes a k) k = a := by
  induction a generalizing k with
  | nil => simp [xorBytes]
  | cons x rest ih =>
    cases k with
    | nil => simp at h
    | cons y ys =>
      have hr : rest.length ≤ ys.length := by simpa using h
      have := ih hr
      simp only [xorBytes, List.zipWith_cons_cons] at this ⊢
      rw [this, BitVec.xor_assoc, BitVec.xor_self, BitVec.xor_zero]

@[simp] theorem beBytes_length (w v : Nat) : (beBytes w v).length = w := by
  induction w generalizing v with
  | zero => rfl
  | succ w ih => simp [beBytes, ih]

theorem be_append (s : Bytes) (x : Byte) : be (s ++ [x]) = be s * 256 + x.toNat := by
  simp [be, List.foldl_append]

/-- The value of the `w`-byte string of `v`. -/
theorem be_beBytes (w v : Nat) (h : v < 256 ^ w) : be (beBytes w v) = v := by
  induction w generalizing v with
  | zero => have : v = 0 := by simpa using h
            simp [beBytes, be, this]
  | succ w ih =>
    rw [beBytes, be_append, ih _ (by rw [Nat.div_lt_iff_lt_mul (by decide)]; rwa [Nat.pow_succ] at h), BitVec.toNat_ofNat]
    omega

/-- A string of `w` bytes is worth less than `256^w`. -/
theorem be_lt (s : Bytes) : be s < 256 ^ s.length := by
  induction s using List.reverseRecOn with
  | nil => simp [be]
  | append_singleton l x ih =>
    rw [be_append, List.length_append, List.length_singleton, Nat.pow_succ]
    have := x.isLt
    omega

/-- The string of the value of a string. -/
theorem beBytes_be (s : Bytes) : beBytes s.length (be s) = s := by
  induction s using List.reverseRecOn with
  | nil => rfl
  | append_singleton l x ih =>
    have hx := x.isLt
    rw [List.length_append, List.length_singleton, beBytes, be_append]
    have h1 : (be l * 256 + x.toNat) / 256 = be l := by omega
    have h2 : BitVec.ofNat 8 (be l * 256 + x.toNat) = x := by
      apply BitVec.eq_of_toNat_eq
      rw [BitVec.toNat_ofNat]
      omega
    rw [h1, h2, ih]

@[simp] theorem leBytes_length (w : Word) : (leBytes w).length = 4 := rfl

/-- The little-endian bytes of a word, put together again (20_memory.md R86). -/
theorem leWord_leBytes (w : Word) :
    leWord (w.extractLsb' 0 8) (w.extractLsb' 8 8) (w.extractLsb' 16 8) (w.extractLsb' 24 8) = w := by
  apply BitVec.eq_of_getLsbD_eq
  intro i hi
  simp only [leWord, BitVec.getLsbD_append, BitVec.getLsbD_extractLsb']
  by_cases h1 : i < 8
  · simp [h1]
  · by_cases h2 : i < 16
    · have : i - 8 < 8 := by omega
      simp [h1, this, show 8 + (i - 8) = i by omega]
    · by_cases h3 : i < 24
      · have a : ¬ i - 8 < 8 := by omega
        have b : i - 8 - 8 < 8 := by omega
        simp [h1, a, b, show 16 + (i - 8 - 8) = i by omega]
      · have a : ¬ i - 8 < 8 := by omega
        have b : ¬ i - 8 - 8 < 8 := by omega
        have c : i - 8 - 8 - 8 < 8 := by omega
        simp [h1, a, b, c, show 24 + (i - 8 - 8 - 8) = i by omega]

end Sys2Proof.Machine
end

