-- ==== Sys2Proof/Laws/Modes.lean ====
section
/-! SUPPORT. The transforms: lengths, and the counter. -/

namespace Sys2Proof.Machine

/-- `E` gives a block of B bytes (40_primitive.md R160); XORPRIM needs a key of B bytes for it (R166). -/
theorem primE_length {p : Params} {k x : Bytes} (hk : p.prim = .xorprim → k.length = p.b) (hx : x.length = p.b) :
    (primE p k x).length = p.b := by
  unfold primE
  split
  · next h => simp [hk h, hx]
  · simp

/-- `D` gives a block of B bytes (40_primitive.md R160). -/
theorem primD_length {p : Params} {k x : Bytes} (hk : p.prim = .xorprim → k.length = p.b) (hx : x.length = p.b) :
    (primD p k x).length = p.b := by
  unfold primD
  split
  · next h => simp [hk h, hx]
  · simp

/-- The counter block after a step is a block (10_state.md R49). -/
theorem nextCounter_length {p : Params} {nl : Nat} {chain : Bytes} (hc : chain.length = p.b) (hn : nl ≤ p.b) :
    (nextCounter p nl chain).length = p.b := by
  simp [nextCounter, hc]; omega

/-- The nonce prefix is never written (42_modes.md R230, 10_state.md R49). -/
theorem nextCounter_take {p : Params} {nl : Nat} {chain : Bytes} (hn : nl ≤ chain.length) :
    (nextCounter p nl chain).take nl = chain.take nl := by
  simp [nextCounter, Nat.min_eq_left hn]

/-- The counter goes up by one, modulo `256^W` (42_modes.md R230). -/
theorem counterOf_nextCounter {p : Params} {nl : Nat} {chain : Bytes} (hn : nl ≤ chain.length) :
    counterOf nl (nextCounter p nl chain) = (counterOf nl chain + 1) % 256 ^ (p.b - nl) := by
  have h : (nextCounter p nl chain).drop nl =
      beBytes (p.b - nl) ((counterOf nl chain + 1) % 256 ^ (p.b - nl)) := by
    simp [nextCounter, Nat.min_eq_left hn]
  rw [counterOf, h, be_beBytes _ _ (Nat.mod_lt _ (Nat.pow_pos (by decide)))]

/-- The output of a transform is as long as its input, and CHAIN stays a block (42_modes.md R236). ECB and CBC are given
full blocks (43_stream_driver.md R274). -/
theorem xform_lengths {p : Params} {mode : Mode} {dir : Dir} {nl : Nat} {k chain x : Bytes}
    (hk : p.prim = .xorprim → k.length = p.b) (hc : chain.length = p.b) (hx : x.length ≤ p.b)
    (hfull : mode.blockAligned = true → x.length = p.b) (hn : nl ≤ p.b) :
    (xform p mode dir nl k chain x).1.length = x.length ∧ (xform p mode dir nl k chain x).2.length = p.b := by
  have hE := primE_length (p := p) hk hc
  cases mode with
  | ecb =>
    have hb := hfull rfl
    cases dir <;> simp [xform, xformEcb, primE_length hk hb, primD_length hk hb, hc, hb]
  | cbc =>
    have hb := hfull rfl
    have hxor : (xorBytes x chain).length = p.b := by simp [hb, hc]
    cases dir <;> simp [xform, xformCbc, primE_length hk hxor, primD_length hk hb, hc, hb]
  | cfb =>
    have hout : (xorBytes x (primE p k chain)).length = x.length := xorBytes_length_of_le (by omega)
    by_cases hs : x.length < p.b
    · simp [xform, xformCfb, hs, hout, hc]
    · cases dir
      · simp [xform, xformCfb, hs, hout]; omega
      · simp [xform, xformCfb, hs, hout]; omega
  | ofb =>
    exact ⟨xorBytes_length_of_le (by omega), hE⟩
  | ctr =>
    exact ⟨xorBytes_length_of_le (by omega), nextCounter_length hc hn⟩

end Sys2Proof.Machine
end

