-- ==== Sys2Proof/Laws/State.lean ====
section
/-! SUPPORT. One lemma per field per update of the state, so that no later proof unfolds a record update. -/

namespace Sys2Proof.Machine

/-! ### `State.setCtx` -/

@[simp] theorem State.setCtx_inst (s : State) (n : Fin 16) (c : Ctx) : (s.setCtx n c).inst = s.inst := rfl
@[simp] theorem State.setCtx_gstatus (s : State) (n : Fin 16) (c : Ctx) : (s.setCtx n c).gstatus = s.gstatus := rfl
@[simp] theorem State.setCtx_irqStatus (s : State) (n : Fin 16) (c : Ctx) :
    (s.setCtx n c).irqStatus = s.irqStatus := rfl
@[simp] theorem State.setCtx_irqEnable (s : State) (n : Fin 16) (c : Ctx) :
    (s.setCtx n c).irqEnable = s.irqEnable := rfl
@[simp] theorem State.setCtx_cfg (s : State) (n : Fin 16) (c : Ctx) : (s.setCtx n c).cfg = s.cfg := rfl
@[simp] theorem State.setCtx_src (s : State) (n : Fin 16) (c : Ctx) : (s.setCtx n c).src = s.src := rfl
@[simp] theorem State.setCtx_dst (s : State) (n : Fin 16) (c : Ctx) : (s.setCtx n c).dst = s.dst := rfl
@[simp] theorem State.setCtx_len (s : State) (n : Fin 16) (c : Ctx) : (s.setCtx n c).len = s.len := rfl
@[simp] theorem State.setCtx_key (s : State) (n : Fin 16) (c : Ctx) : (s.setCtx n c).key = s.key := rfl
@[simp] theorem State.setCtx_iv (s : State) (n : Fin 16) (c : Ctx) : (s.setCtx n c).iv = s.iv := rfl
@[simp] theorem State.setCtx_ctrinit (s : State) (n : Fin 16) (c : Ctx) : (s.setCtx n c).ctrinit = s.ctrinit := rfl
@[simp] theorem State.setCtx_ctxs (s : State) (n : Fin 16) (c : Ctx) : (s.setCtx n c).ctxs = s.ctxs.set n.val c := rfl
@[simp] theorem State.setCtx_mem (s : State) (n : Fin 16) (c : Ctx) : (s.setCtx n c).mem = s.mem := rfl
@[simp] theorem State.setCtx_agenda (s : State) (n : Fin 16) (c : Ctx) : (s.setCtx n c).agenda = s.agenda := rfl
@[simp] theorem State.setCtx_resp (s : State) (n : Fin 16) (c : Ctx) : (s.setCtx n c).resp = s.resp := rfl
@[simp] theorem State.setCtx_tick (s : State) (n : Fin 16) (c : Ctx) : (s.setCtx n c).tick = s.tick := rfl

/-! ### `State.raise` -/

@[simp] theorem State.raise_inst (s : State) (b : Word) : (s.raise b).inst = s.inst := rfl
@[simp] theorem State.raise_gstatus (s : State) (b : Word) : (s.raise b).gstatus = s.gstatus := rfl
@[simp] theorem State.raise_irqStatus (s : State) (b : Word) : (s.raise b).irqStatus = s.irqStatus ||| b := rfl
@[simp] theorem State.raise_irqEnable (s : State) (b : Word) : (s.raise b).irqEnable = s.irqEnable := rfl
@[simp] theorem State.raise_cfg (s : State) (b : Word) : (s.raise b).cfg = s.cfg := rfl
@[simp] theorem State.raise_src (s : State) (b : Word) : (s.raise b).src = s.src := rfl
@[simp] theorem State.raise_dst (s : State) (b : Word) : (s.raise b).dst = s.dst := rfl
@[simp] theorem State.raise_len (s : State) (b : Word) : (s.raise b).len = s.len := rfl
@[simp] theorem State.raise_key (s : State) (b : Word) : (s.raise b).key = s.key := rfl
@[simp] theorem State.raise_iv (s : State) (b : Word) : (s.raise b).iv = s.iv := rfl
@[simp] theorem State.raise_ctrinit (s : State) (b : Word) : (s.raise b).ctrinit = s.ctrinit := rfl
@[simp] theorem State.raise_ctxs (s : State) (b : Word) : (s.raise b).ctxs = s.ctxs := rfl
@[simp] theorem State.raise_mem (s : State) (b : Word) : (s.raise b).mem = s.mem := rfl
@[simp] theorem State.raise_agenda (s : State) (b : Word) : (s.raise b).agenda = s.agenda := rfl
@[simp] theorem State.raise_resp (s : State) (b : Word) : (s.raise b).resp = s.resp := rfl
@[simp] theorem State.raise_tick (s : State) (b : Word) : (s.raise b).tick = s.tick := rfl

/-! ### `reject` -/

@[simp] theorem reject_inst (e : ErrCode) (n : Fin 16) (s : State) : (reject e n s).inst = s.inst := rfl
@[simp] theorem reject_gstatus (e : ErrCode) (n : Fin 16) (s : State) :
    (reject e n s).gstatus = ({ s.gstatus with issueErr := e, issueCtx := n, rej := true } : Gstatus) := rfl
@[simp] theorem reject_irqStatus (e : ErrCode) (n : Fin 16) (s : State) :
    (reject e n s).irqStatus = s.irqStatus ||| rejIrqBit := rfl
@[simp] theorem reject_irqEnable (e : ErrCode) (n : Fin 16) (s : State) : (reject e n s).irqEnable = s.irqEnable := rfl
@[simp] theorem reject_cfg (e : ErrCode) (n : Fin 16) (s : State) : (reject e n s).cfg = s.cfg := rfl
@[simp] theorem reject_src (e : ErrCode) (n : Fin 16) (s : State) : (reject e n s).src = s.src := rfl
@[simp] theorem reject_dst (e : ErrCode) (n : Fin 16) (s : State) : (reject e n s).dst = s.dst := rfl
@[simp] theorem reject_len (e : ErrCode) (n : Fin 16) (s : State) : (reject e n s).len = s.len := rfl
@[simp] theorem reject_key (e : ErrCode) (n : Fin 16) (s : State) : (reject e n s).key = s.key := rfl
@[simp] theorem reject_iv (e : ErrCode) (n : Fin 16) (s : State) : (reject e n s).iv = s.iv := rfl
@[simp] theorem reject_ctrinit (e : ErrCode) (n : Fin 16) (s : State) : (reject e n s).ctrinit = s.ctrinit := rfl
@[simp] theorem reject_ctxs (e : ErrCode) (n : Fin 16) (s : State) : (reject e n s).ctxs = s.ctxs := rfl
@[simp] theorem reject_mem (e : ErrCode) (n : Fin 16) (s : State) : (reject e n s).mem = s.mem := rfl
@[simp] theorem reject_agenda (e : ErrCode) (n : Fin 16) (s : State) : (reject e n s).agenda = s.agenda := rfl
@[simp] theorem reject_resp (e : ErrCode) (n : Fin 16) (s : State) : (reject e n s).resp = s.resp := rfl
@[simp] theorem reject_tick (e : ErrCode) (n : Fin 16) (s : State) : (reject e n s).tick = s.tick := rfl

/-! ### `finish` -/

@[simp] theorem finish_inst (n : Fin 16) (c : Ctx) (l : Lifecycle) (e : ErrCode) (o : Nat) (s : State) :
    (finish n c l e o s).inst = s.inst := rfl
@[simp] theorem finish_gstatus (n : Fin 16) (c : Ctx) (l : Lifecycle) (e : ErrCode) (o : Nat) (s : State) :
    (finish n c l e o s).gstatus = s.gstatus := rfl
@[simp] theorem finish_irqStatus (n : Fin 16) (c : Ctx) (l : Lifecycle) (e : ErrCode) (o : Nat) (s : State) :
    (finish n c l e o s).irqStatus = s.irqStatus ||| cdoneBit n := rfl
@[simp] theorem finish_irqEnable (n : Fin 16) (c : Ctx) (l : Lifecycle) (e : ErrCode) (o : Nat) (s : State) :
    (finish n c l e o s).irqEnable = s.irqEnable := rfl
@[simp] theorem finish_cfg (n : Fin 16) (c : Ctx) (l : Lifecycle) (e : ErrCode) (o : Nat) (s : State) :
    (finish n c l e o s).cfg = s.cfg := rfl
@[simp] theorem finish_src (n : Fin 16) (c : Ctx) (l : Lifecycle) (e : ErrCode) (o : Nat) (s : State) :
    (finish n c l e o s).src = s.src := rfl
@[simp] theorem finish_dst (n : Fin 16) (c : Ctx) (l : Lifecycle) (e : ErrCode) (o : Nat) (s : State) :
    (finish n c l e o s).dst = s.dst := rfl
@[simp] theorem finish_len (n : Fin 16) (c : Ctx) (l : Lifecycle) (e : ErrCode) (o : Nat) (s : State) :
    (finish n c l e o s).len = s.len := rfl
@[simp] theorem finish_key (n : Fin 16) (c : Ctx) (l : Lifecycle) (e : ErrCode) (o : Nat) (s : State) :
    (finish n c l e o s).key = s.key := rfl
@[simp] theorem finish_iv (n : Fin 16) (c : Ctx) (l : Lifecycle) (e : ErrCode) (o : Nat) (s : State) :
    (finish n c l e o s).iv = s.iv := rfl
@[simp] theorem finish_ctrinit (n : Fin 16) (c : Ctx) (l : Lifecycle) (e : ErrCode) (o : Nat) (s : State) :
    (finish n c l e o s).ctrinit = s.ctrinit := rfl
@[simp] theorem finish_ctxs (n : Fin 16) (c : Ctx) (l : Lifecycle) (e : ErrCode) (o : Nat) (s : State) :
    (finish n c l e o s).ctxs = s.ctxs.set n.val { c with state := l, err := e, outlen := BitVec.ofNat 32 o } := rfl
@[simp] theorem finish_mem (n : Fin 16) (c : Ctx) (l : Lifecycle) (e : ErrCode) (o : Nat) (s : State) :
    (finish n c l e o s).mem = s.mem := rfl
@[simp] theorem finish_agenda (n : Fin 16) (c : Ctx) (l : Lifecycle) (e : ErrCode) (o : Nat) (s : State) :
    (finish n c l e o s).agenda = s.agenda := rfl
@[simp] theorem finish_resp (n : Fin 16) (c : Ctx) (l : Lifecycle) (e : ErrCode) (o : Nat) (s : State) :
    (finish n c l e o s).resp = s.resp := rfl
@[simp] theorem finish_tick (n : Fin 16) (c : Ctx) (l : Lifecycle) (e : ErrCode) (o : Nat) (s : State) :
    (finish n c l e o s).tick = s.tick := rfl

/-! ### `failWith` -/

@[simp] theorem failWith_inst (n : Fin 16) (c : Ctx) (l : Lifecycle) (e : ErrCode) (s : State) :
    (failWith n c l e s).inst = s.inst := rfl
@[simp] theorem failWith_gstatus (n : Fin 16) (c : Ctx) (l : Lifecycle) (e : ErrCode) (s : State) :
    (failWith n c l e s).gstatus = s.gstatus := rfl
@[simp] theorem failWith_irqStatus (n : Fin 16) (c : Ctx) (l : Lifecycle) (e : ErrCode) (s : State) :
    (failWith n c l e s).irqStatus = s.irqStatus ||| cdoneBit n := rfl
@[simp] theorem failWith_irqEnable (n : Fin 16) (c : Ctx) (l : Lifecycle) (e : ErrCode) (s : State) :
    (failWith n c l e s).irqEnable = s.irqEnable := rfl
@[simp] theorem failWith_cfg (n : Fin 16) (c : Ctx) (l : Lifecycle) (e : ErrCode) (s : State) :
    (failWith n c l e s).cfg = s.cfg := rfl
@[simp] theorem failWith_src (n : Fin 16) (c : Ctx) (l : Lifecycle) (e : ErrCode) (s : State) :
    (failWith n c l e s).src = s.src := rfl
@[simp] theorem failWith_dst (n : Fin 16) (c : Ctx) (l : Lifecycle) (e : ErrCode) (s : State) :
    (failWith n c l e s).dst = s.dst := rfl
@[simp] theorem failWith_len (n : Fin 16) (c : Ctx) (l : Lifecycle) (e : ErrCode) (s : State) :
    (failWith n c l e s).len = s.len := rfl
@[simp] theorem failWith_key (n : Fin 16) (c : Ctx) (l : Lifecycle) (e : ErrCode) (s : State) :
    (failWith n c l e s).key = s.key := rfl
@[simp] theorem failWith_iv (n : Fin 16) (c : Ctx) (l : Lifecycle) (e : ErrCode) (s : State) :
    (failWith n c l e s).iv = s.iv := rfl
@[simp] theorem failWith_ctrinit (n : Fin 16) (c : Ctx) (l : Lifecycle) (e : ErrCode) (s : State) :
    (failWith n c l e s).ctrinit = s.ctrinit := rfl
@[simp] theorem failWith_ctxs (n : Fin 16) (c : Ctx) (l : Lifecycle) (e : ErrCode) (s : State) :
    (failWith n c l e s).ctxs = s.ctxs.set n.val { c with state := l, err := e, outlen := 0#32 } := rfl
@[simp] theorem failWith_mem (n : Fin 16) (c : Ctx) (l : Lifecycle) (e : ErrCode) (s : State) :
    (failWith n c l e s).mem = s.mem := rfl
@[simp] theorem failWith_agenda (n : Fin 16) (c : Ctx) (l : Lifecycle) (e : ErrCode) (s : State) :
    (failWith n c l e s).agenda = s.agenda := rfl
@[simp] theorem failWith_resp (n : Fin 16) (c : Ctx) (l : Lifecycle) (e : ErrCode) (s : State) :
    (failWith n c l e s).resp = s.resp := rfl
@[simp] theorem failWith_tick (n : Fin 16) (c : Ctx) (l : Lifecycle) (e : ErrCode) (s : State) :
    (failWith n c l e s).tick = s.tick := rfl

/-! ### `accept` -/

@[simp] theorem accept_inst (n : Fin 16) (c : Ctx) (op : Opcode) (a b l k m : Nat) (s : State) :
    (accept n c op a b l k m s).inst = s.inst := rfl
@[simp] theorem accept_gstatus (n : Fin 16) (c : Ctx) (op : Opcode) (a b l k m : Nat) (s : State) :
    (accept n c op a b l k m s).gstatus = s.gstatus := rfl
@[simp] theorem accept_irqStatus (n : Fin 16) (c : Ctx) (op : Opcode) (a b l k m : Nat) (s : State) :
    (accept n c op a b l k m s).irqStatus = s.irqStatus := rfl
@[simp] theorem accept_irqEnable (n : Fin 16) (c : Ctx) (op : Opcode) (a b l k m : Nat) (s : State) :
    (accept n c op a b l k m s).irqEnable = s.irqEnable := rfl
@[simp] theorem accept_cfg (n : Fin 16) (c : Ctx) (op : Opcode) (a b l k m : Nat) (s : State) :
    (accept n c op a b l k m s).cfg = s.cfg := rfl
@[simp] theorem accept_src (n : Fin 16) (c : Ctx) (op : Opcode) (a b l k m : Nat) (s : State) :
    (accept n c op a b l k m s).src = s.src := rfl
@[simp] theorem accept_dst (n : Fin 16) (c : Ctx) (op : Opcode) (a b l k m : Nat) (s : State) :
    (accept n c op a b l k m s).dst = s.dst := rfl
@[simp] theorem accept_len (n : Fin 16) (c : Ctx) (op : Opcode) (a b l k m : Nat) (s : State) :
    (accept n c op a b l k m s).len = s.len := rfl
@[simp] theorem accept_key (n : Fin 16) (c : Ctx) (op : Opcode) (a b l k m : Nat) (s : State) :
    (accept n c op a b l k m s).key = s.key := rfl
@[simp] theorem accept_iv (n : Fin 16) (c : Ctx) (op : Opcode) (a b l k m : Nat) (s : State) :
    (accept n c op a b l k m s).iv = s.iv := rfl
@[simp] theorem accept_ctrinit (n : Fin 16) (c : Ctx) (op : Opcode) (a b l k m : Nat) (s : State) :
    (accept n c op a b l k m s).ctrinit = s.ctrinit := rfl
@[simp] theorem accept_ctxs (n : Fin 16) (c : Ctx) (op : Opcode) (a b l k m : Nat) (s : State) :
    (accept n c op a b l k m s).ctxs = s.ctxs.set n.val
      { c with state := .busy, op := op, jsrc := a, jdst := b, jlen := l, nblk := k, maxout := m, blk := 0, err := .none,
               outlen := 0#32 } := rfl
@[simp] theorem accept_mem (n : Fin 16) (c : Ctx) (op : Opcode) (a b l k m : Nat) (s : State) :
    (accept n c op a b l k m s).mem = s.mem := rfl
@[simp] theorem accept_agenda (n : Fin 16) (c : Ctx) (op : Opcode) (a b l k m : Nat) (s : State) :
    (accept n c op a b l k m s).agenda = s.agenda := rfl
@[simp] theorem accept_resp (n : Fin 16) (c : Ctx) (op : Opcode) (a b l k m : Nat) (s : State) :
    (accept n c op a b l k m s).resp = s.resp := rfl
@[simp] theorem accept_tick (n : Fin 16) (c : Ctx) (op : Opcode) (a b l k m : Nat) (s : State) :
    (accept n c op a b l k m s).tick = s.tick := rfl

/-! ### `ackIrq` -/

@[simp] theorem ackIrq_inst (v : Word) (s : State) : (ackIrq v s).inst = s.inst := rfl
@[simp] theorem ackIrq_gstatus (v : Word) (s : State) : (ackIrq v s).gstatus = s.gstatus := rfl
@[simp] theorem ackIrq_irqStatus (v : Word) (s : State) :
    (ackIrq v s).irqStatus = s.irqStatus &&& ~~~(v &&& irqMask s.inst) := rfl
@[simp] theorem ackIrq_irqEnable (v : Word) (s : State) : (ackIrq v s).irqEnable = s.irqEnable := rfl
@[simp] theorem ackIrq_cfg (v : Word) (s : State) : (ackIrq v s).cfg = s.cfg := rfl
@[simp] theorem ackIrq_src (v : Word) (s : State) : (ackIrq v s).src = s.src := rfl
@[simp] theorem ackIrq_dst (v : Word) (s : State) : (ackIrq v s).dst = s.dst := rfl
@[simp] theorem ackIrq_len (v : Word) (s : State) : (ackIrq v s).len = s.len := rfl
@[simp] theorem ackIrq_key (v : Word) (s : State) : (ackIrq v s).key = s.key := rfl
@[simp] theorem ackIrq_iv (v : Word) (s : State) : (ackIrq v s).iv = s.iv := rfl
@[simp] theorem ackIrq_ctrinit (v : Word) (s : State) : (ackIrq v s).ctrinit = s.ctrinit := rfl
@[simp] theorem ackIrq_ctxs (v : Word) (s : State) : (ackIrq v s).ctxs = s.ctxs := rfl
@[simp] theorem ackIrq_mem (v : Word) (s : State) : (ackIrq v s).mem = s.mem := rfl
@[simp] theorem ackIrq_agenda (v : Word) (s : State) : (ackIrq v s).agenda = s.agenda := rfl
@[simp] theorem ackIrq_resp (v : Word) (s : State) : (ackIrq v s).resp = s.resp := rfl
@[simp] theorem ackIrq_tick (v : Word) (s : State) : (ackIrq v s).tick = s.tick := rfl

/-! ### `ackGstatus` -/

@[simp] theorem ackGstatus_inst (v : Word) (s : State) : (ackGstatus v s).inst = s.inst := rfl
@[simp] theorem ackGstatus_irqStatus (v : Word) (s : State) : (ackGstatus v s).irqStatus = s.irqStatus := rfl
@[simp] theorem ackGstatus_irqEnable (v : Word) (s : State) : (ackGstatus v s).irqEnable = s.irqEnable := rfl
@[simp] theorem ackGstatus_cfg (v : Word) (s : State) : (ackGstatus v s).cfg = s.cfg := rfl
@[simp] theorem ackGstatus_src (v : Word) (s : State) : (ackGstatus v s).src = s.src := rfl
@[simp] theorem ackGstatus_dst (v : Word) (s : State) : (ackGstatus v s).dst = s.dst := rfl
@[simp] theorem ackGstatus_len (v : Word) (s : State) : (ackGstatus v s).len = s.len := rfl
@[simp] theorem ackGstatus_key (v : Word) (s : State) : (ackGstatus v s).key = s.key := rfl
@[simp] theorem ackGstatus_iv (v : Word) (s : State) : (ackGstatus v s).iv = s.iv := rfl
@[simp] theorem ackGstatus_ctrinit (v : Word) (s : State) : (ackGstatus v s).ctrinit = s.ctrinit := rfl
@[simp] theorem ackGstatus_ctxs (v : Word) (s : State) : (ackGstatus v s).ctxs = s.ctxs := rfl
@[simp] theorem ackGstatus_mem (v : Word) (s : State) : (ackGstatus v s).mem = s.mem := rfl
@[simp] theorem ackGstatus_agenda (v : Word) (s : State) : (ackGstatus v s).agenda = s.agenda := rfl
@[simp] theorem ackGstatus_resp (v : Word) (s : State) : (ackGstatus v s).resp = s.resp := rfl
@[simp] theorem ackGstatus_tick (v : Word) (s : State) : (ackGstatus v s).tick = s.tick := rfl

/-! ### `respond` -/

@[simp] theorem respond_inst (e : Bool) (d : Option Word) (s : State) : (respond e d s).inst = s.inst := rfl
@[simp] theorem respond_gstatus (e : Bool) (d : Option Word) (s : State) : (respond e d s).gstatus = s.gstatus := rfl
@[simp] theorem respond_irqStatus (e : Bool) (d : Option Word) (s : State) :
    (respond e d s).irqStatus = s.irqStatus := rfl
@[simp] theorem respond_irqEnable (e : Bool) (d : Option Word) (s : State) :
    (respond e d s).irqEnable = s.irqEnable := rfl
@[simp] theorem respond_cfg (e : Bool) (d : Option Word) (s : State) : (respond e d s).cfg = s.cfg := rfl
@[simp] theorem respond_src (e : Bool) (d : Option Word) (s : State) : (respond e d s).src = s.src := rfl
@[simp] theorem respond_dst (e : Bool) (d : Option Word) (s : State) : (respond e d s).dst = s.dst := rfl
@[simp] theorem respond_len (e : Bool) (d : Option Word) (s : State) : (respond e d s).len = s.len := rfl
@[simp] theorem respond_key (e : Bool) (d : Option Word) (s : State) : (respond e d s).key = s.key := rfl
@[simp] theorem respond_iv (e : Bool) (d : Option Word) (s : State) : (respond e d s).iv = s.iv := rfl
@[simp] theorem respond_ctrinit (e : Bool) (d : Option Word) (s : State) : (respond e d s).ctrinit = s.ctrinit := rfl
@[simp] theorem respond_ctxs (e : Bool) (d : Option Word) (s : State) : (respond e d s).ctxs = s.ctxs := rfl
@[simp] theorem respond_mem (e : Bool) (d : Option Word) (s : State) : (respond e d s).mem = s.mem := rfl
@[simp] theorem respond_agenda (e : Bool) (d : Option Word) (s : State) : (respond e d s).agenda = s.agenda := rfl
@[simp] theorem respond_resp (e : Bool) (d : Option Word) (s : State) :
    (respond e d s).resp = some { slverr := e, data := d } := rfl
@[simp] theorem respond_tick (e : Bool) (d : Option Word) (s : State) : (respond e d s).tick = s.tick := rfl

/-! ### `setBuserr` -/

@[simp] theorem setBuserr_inst (s : State) : (setBuserr s).inst = s.inst := rfl
@[simp] theorem setBuserr_gstatus (s : State) :
    (setBuserr s).gstatus = ({ s.gstatus with buserr := true } : Gstatus) := rfl
@[simp] theorem setBuserr_irqStatus (s : State) : (setBuserr s).irqStatus = s.irqStatus := rfl
@[simp] theorem setBuserr_irqEnable (s : State) : (setBuserr s).irqEnable = s.irqEnable := rfl
@[simp] theorem setBuserr_cfg (s : State) : (setBuserr s).cfg = s.cfg := rfl
@[simp] theorem setBuserr_src (s : State) : (setBuserr s).src = s.src := rfl
@[simp] theorem setBuserr_dst (s : State) : (setBuserr s).dst = s.dst := rfl
@[simp] theorem setBuserr_len (s : State) : (setBuserr s).len = s.len := rfl
@[simp] theorem setBuserr_key (s : State) : (setBuserr s).key = s.key := rfl
@[simp] theorem setBuserr_iv (s : State) : (setBuserr s).iv = s.iv := rfl
@[simp] theorem setBuserr_ctrinit (s : State) : (setBuserr s).ctrinit = s.ctrinit := rfl
@[simp] theorem setBuserr_ctxs (s : State) : (setBuserr s).ctxs = s.ctxs := rfl
@[simp] theorem setBuserr_mem (s : State) : (setBuserr s).mem = s.mem := rfl
@[simp] theorem setBuserr_agenda (s : State) : (setBuserr s).agenda = s.agenda := rfl
@[simp] theorem setBuserr_resp (s : State) : (setBuserr s).resp = s.resp := rfl
@[simp] theorem setBuserr_tick (s : State) : (setBuserr s).tick = s.tick := rfl

/-! ### `resetStep` -/

@[simp] theorem resetStep_inst (s : State) : (resetStep s).inst = s.inst := rfl
@[simp] theorem resetStep_gstatus (s : State) :
    (resetStep s).gstatus = ({ issueErr := .none, issueCtx := 0, rej := false, buserr := false, wrconf := false } : Gstatus) := rfl
@[simp] theorem resetStep_irqStatus (s : State) : (resetStep s).irqStatus = 0#32 := rfl
@[simp] theorem resetStep_irqEnable (s : State) : (resetStep s).irqEnable = 0#32 := rfl
@[simp] theorem resetStep_cfg (s : State) :
    (resetStep s).cfg = ({ keylen := 0#6, ivlen := 0#5, noncelen := 0#5 } : Cfg) := rfl
@[simp] theorem resetStep_src (s : State) : (resetStep s).src = 0#32 := rfl
@[simp] theorem resetStep_dst (s : State) : (resetStep s).dst = 0#32 := rfl
@[simp] theorem resetStep_len (s : State) : (resetStep s).len = 0#32 := rfl
@[simp] theorem resetStep_key (s : State) : (resetStep s).key = Vector.replicate 8 0#32 := rfl
@[simp] theorem resetStep_iv (s : State) : (resetStep s).iv = Vector.replicate 4 0#32 := rfl
@[simp] theorem resetStep_ctrinit (s : State) : (resetStep s).ctrinit = Vector.replicate 4 0#32 := rfl
@[simp] theorem resetStep_ctxs (s : State) : (resetStep s).ctxs = Vector.replicate 16 (Ctx.reset s.inst) := rfl
@[simp] theorem resetStep_mem (s : State) : (resetStep s).mem = [] := rfl
@[simp] theorem resetStep_agenda (s : State) : (resetStep s).agenda = s.agenda := rfl
@[simp] theorem resetStep_resp (s : State) : (resetStep s).resp = none := rfl
@[simp] theorem resetStep_tick (s : State) : (resetStep s).tick = s.tick := rfl

end Sys2Proof.Machine
end

