-- ==== Sys2Proof/Laws/Memory.lean ====
section
/-! SUPPORT. MSGMEM as a list in one canonical form: reading after writing, and every operation keeps the form. -/

namespace Sys2Proof.Machine

@[simp] theorem Memory.get_nil (x : Nat) : Memory.get [] x = memDefault := rfl

theorem Memory.get_of_absent (m : Memory) (x : Nat) (h : ∀ c ∈ m, c.1 ≠ x) : Memory.get m x = memDefault := by
  induction m with
  | nil => rfl
  | cons c rest ih =>
    have h1 : c.1 ≠ x := h c (by simp)
    simp only [Memory.get, if_neg h1]
    exact ih fun d hd => h d (by simp [hd])

theorem Memory.absent_erase (m : Memory) (x : Nat) : ∀ c ∈ m.erase x, c.1 ≠ x := by
  intro c hc
  simp only [Memory.erase, List.mem_filter, bne_iff_ne] at hc
  exact hc.2

theorem Memory.get_erase_other (m : Memory) (x y : Nat) (h : y ≠ x) : (m.erase x).get y = m.get y := by
  induction m with
  | nil => rfl
  | cons c rest ih =>
    simp only [Memory.erase] at ih
    by_cases hx : c.1 = x
    · have hy : c.1 ≠ y := fun e => h (e ▸ hx)
      simp [Memory.erase, Memory.get, hx, ih, Ne.symm h]
    · by_cases hy : c.1 = y <;> simp [Memory.erase, Memory.get, hx, hy, ih, h]

theorem Memory.get_insert_same (m : Memory) (x : Nat) (v : Byte) (h : ∀ c ∈ m, c.1 ≠ x) : (m.insert x v).get x = v := by
  induction m with
  | nil => simp [Memory.insert, Memory.get]
  | cons c rest ih =>
    have h1 : c.1 ≠ x := h c (by simp)
    by_cases hx : x < c.1
    · simp [Memory.insert, Memory.get, hx]
    · simp only [Memory.insert, hx, if_false, Memory.get, if_neg h1]
      exact ih fun d hd => h d (by simp [hd])

theorem Memory.get_insert_other (m : Memory) (x y : Nat) (v : Byte) (h : y ≠ x) : (m.insert x v).get y = m.get y := by
  induction m with
  | nil => simp [Memory.insert, Memory.get, Ne.symm h]
  | cons c rest ih =>
    by_cases hx : x < c.1
    · simp [Memory.insert, Memory.get, hx, Ne.symm h]
    · simp only [Memory.insert, if_neg hx, Memory.get, ih]

/-- A read after a write of the same byte gives the value written. -/
@[simp] theorem Memory.get_set_same (m : Memory) (x : Nat) (v : Byte) : (m.set x v).get x = v := by
  unfold Memory.set
  split
  · next h => rw [Memory.get_of_absent _ _ (Memory.absent_erase m x), h]
  · exact Memory.get_insert_same _ _ _ (Memory.absent_erase m x)

/-- A write leaves every other byte alone. -/
theorem Memory.get_set_other (m : Memory) (x y : Nat) (v : Byte) (h : y ≠ x) : (m.set x v).get y = m.get y := by
  unfold Memory.set
  split
  · exact Memory.get_erase_other m x y h
  · rw [Memory.get_insert_other _ _ _ _ h, Memory.get_erase_other m x y h]

theorem Memory.get_set (m : Memory) (x y : Nat) (v : Byte) : (m.set x v).get y = if y = x then v else m.get y := by
  split
  · next h => rw [h, Memory.get_set_same]
  · next h => exact Memory.get_set_other m x y v h

@[simp] theorem Memory.write_nil (m : Memory) (a : Nat) : m.write a [] = m := rfl

theorem Memory.write_cons (m : Memory) (a : Nat) (v : Byte) (bs : Bytes) :
    m.write a (v :: bs) = (m.set a v).write (a + 1) bs := rfl

/-- What one byte reads as after a write: the written string inside its range, the old byte elsewhere. -/
theorem Memory.get_write (m : Memory) (a : Nat) (bs : Bytes) (x : Nat) :
    (m.write a bs).get x = if a ≤ x ∧ x < a + bs.length then bs.getD (x - a) 0#8 else m.get x := by
  induction bs generalizing m a with
  | nil => have : ¬ (a ≤ x ∧ x < a) := by omega
           simp [this]
  | cons v rest ih =>
    rw [Memory.write_cons, ih, Memory.get_set]
    by_cases hx : x = a
    · subst hx; simp
    · by_cases h1 : a + 1 ≤ x ∧ x < a + 1 + rest.length
      · have h2 : a ≤ x ∧ x < a + (v :: rest).length := by simp; omega
        have h3 : x - a = (x - (a + 1)) + 1 := by omega
        rw [if_pos h1, if_pos h2, h3]; rfl
      · have h2 : ¬ (a ≤ x ∧ x < a + (v :: rest).length) := by simp; omega
        rw [if_neg h1, if_neg h2, if_neg hx]

theorem Memory.get_write_outside (m : Memory) (a : Nat) (bs : Bytes) (x : Nat) (h : x < a ∨ a + bs.length ≤ x) :
    (m.write a bs).get x = m.get x := by
  rw [Memory.get_write, if_neg (by omega)]

@[simp] theorem Memory.read_length (m : Memory) (a n : Nat) : (m.read a n).length = n := by simp [Memory.read]

theorem Memory.getElem_read (m : Memory) (a n i : Nat) (h : i < (m.read a n).length) : (m.read a n)[i] = m.get (a + i) := by
  simp [Memory.read]

@[simp] theorem Memory.read_zero (m : Memory) (a : Nat) : m.read a 0 = [] := rfl

/-- A string read back right after it was written. -/
theorem Memory.read_write_same (m : Memory) (a : Nat) (bs : Bytes) : (m.write a bs).read a bs.length = bs := by
  apply List.ext_getElem
  · simp
  · intro i h1 h2
    rw [Memory.getElem_read, Memory.get_write, if_pos ⟨by omega, by omega⟩]
    simp [List.getD, h2]

/-- Two memories that agree on a range read the same string there. -/
theorem Memory.read_congr (m m' : Memory) (a n : Nat) (h : ∀ x, a ≤ x → x < a + n → m.get x = m'.get x) :
    m.read a n = m'.read a n := by
  apply List.ext_getElem
  · simp
  · intro i h1 h2
    simp only [Memory.read_length] at h1
    rw [Memory.getElem_read, Memory.getElem_read]
    exact h _ (by omega) (by omega)

theorem Memory.read_add (m : Memory) (a n k : Nat) : m.read a (n + k) = m.read a n ++ m.read (a + n) k := by
  apply List.ext_getElem
  · simp
  · intro i h1 h2
    simp only [Memory.read_length] at h1
    rw [Memory.getElem_read]
    by_cases h : i < n
    · rw [List.getElem_append_left (by simpa using h), Memory.getElem_read]
    · rw [List.getElem_append_right (by simpa using h), Memory.getElem_read]
      simp only [Memory.read_length]
      congr 1
      omega

theorem Memory.read_drop (m : Memory) (a n k : Nat) : (m.read a n).drop k = m.read (a + k) (n - k) := by
  apply List.ext_getElem
  · simp
  · intro i h1 h2
    rw [List.getElem_drop, Memory.getElem_read, Memory.getElem_read, Nat.add_assoc]

theorem Memory.read_take (m : Memory) (a n k : Nat) : (m.read a n).take k = m.read a (min k n) := by
  apply List.ext_getElem
  · simp
  · intro i h1 h2
    rw [List.getElem_take, Memory.getElem_read, Memory.getElem_read]

/-! ### The canonical form -/

theorem Memory.wf_erase {m : Memory} (h : m.wf) (x : Nat) : (m.erase x).wf :=
  ⟨h.1.filter _, fun c hc => h.2 c (List.mem_of_mem_filter hc)⟩

theorem Memory.mem_insert {m : Memory} {x : Nat} {v : Byte} {c : Host.Cell} (h : c ∈ m.insert x v) : c = (x, v) ∨ c ∈ m := by
  induction m with
  | nil => simpa [Memory.insert] using h
  | cons d rest ih =>
    simp only [Memory.insert] at h
    split at h
    · simpa using h
    · rcases List.mem_cons.1 h with h | h
      · exact .inr (by simp [h])
      · rcases ih h with h | h
        · exact .inl h
        · exact .inr (by simp [h])

theorem Memory.wf_insert {m : Memory} (h : m.wf) (x : Nat) (v : Byte) (hx : ∀ c ∈ m, c.1 ≠ x) (hv : v ≠ memDefault) :
    (m.insert x v).wf := by
  refine ⟨?_, fun c hc => ?_⟩
  · obtain ⟨hp, -⟩ := h
    induction m with
    | nil => simp [Memory.insert]
    | cons d rest ih =>
      have hd := hx d (by simp)
      rw [List.pairwise_cons] at hp
      simp only [Memory.insert]
      split
      · next hlt =>
        refine List.pairwise_cons.2 ⟨fun e he => ?_, List.pairwise_cons.2 hp⟩
        rcases List.mem_cons.1 he with rfl | he
        · exact hlt
        · exact Nat.lt_trans hlt (hp.1 e he)
      · next hge =>
        refine List.pairwise_cons.2 ⟨fun e he => ?_, ih (fun e he => hx e (by simp [he])) hp.2⟩
        rcases Memory.mem_insert he with rfl | he
        · show d.1 < x; omega
        · exact hp.1 e he
  · rcases Memory.mem_insert hc with rfl | hc
    · exact hv
    · exact h.2 c hc

/-- Writing a byte keeps the canonical form. -/
theorem Memory.wf_set {m : Memory} (h : m.wf) (x : Nat) (v : Byte) : (m.set x v).wf := by
  unfold Memory.set
  split
  · exact Memory.wf_erase h x
  · next hv => exact Memory.wf_insert (Memory.wf_erase h x) x v (Memory.absent_erase m x) hv

/-- Writing a string keeps the canonical form. -/
theorem Memory.wf_write {m : Memory} (h : m.wf) (a : Nat) (bs : Bytes) : (m.write a bs).wf := by
  induction bs generalizing m a with
  | nil => exact h
  | cons v rest ih => exact ih (Memory.wf_set h a v) (a + 1)

theorem Memory.below_set {m : Memory} {n : Nat} (h : m.below n) (x : Nat) (v : Byte) (hx : x < n) : (m.set x v).below n := by
  unfold Memory.set
  split
  · exact fun c hc => h c (List.mem_of_mem_filter hc)
  · intro c hc
    rcases Memory.mem_insert hc with rfl | hc
    · exact hx
    · exact h c (List.mem_of_mem_filter hc)

theorem Memory.below_write {m : Memory} {n : Nat} (h : m.below n) (a : Nat) (bs : Bytes) (ha : bs = [] ∨ a + bs.length ≤ n) :
    (m.write a bs).below n := by
  induction bs generalizing m a with
  | nil => exact h
  | cons v rest ih =>
    have ha' : a + (rest.length + 1) ≤ n := by simpa using ha
    exact ih (Memory.below_set h a v (by omega)) (a + 1) (.inr (by omega))

theorem Memory.wf_tail {c : Host.Cell} {m : Memory} (h : Memory.wf (c :: m)) : Memory.wf m :=
  ⟨(List.pairwise_cons.1 h.1).2, fun d hd => h.2 d (by simp [hd])⟩

theorem Memory.get_of_lt_head {c : Host.Cell} {m : Memory} (h : Memory.wf (c :: m)) {x : Nat} (hx : x < c.1) :
    Memory.get (c :: m) x = memDefault := by
  refine Memory.get_of_absent _ _ fun d hd => ?_
  rcases List.mem_cons.1 hd with rfl | hd
  · omega
  · have := (List.pairwise_cons.1 h.1).1 d hd
    omega

/-- Equal memories are equal data: two canonical lists that read the same everywhere are the same list. -/
theorem Memory.ext_of_wf {m m' : Memory} (h : m.wf) (h' : m'.wf) (e : ∀ x, m.get x = m'.get x) : m = m' := by
  induction m generalizing m' with
  | nil =>
    cases m' with
    | nil => rfl
    | cons d rest =>
      have := e d.1
      simp only [Memory.get, if_true] at this
      exact absurd this.symm (h'.2 d (by simp))
  | cons c rest ih =>
    cases m' with
    | nil =>
      have := e c.1
      simp only [Memory.get, if_true] at this
      exact absurd this (h.2 c (by simp))
    | cons d rest' =>
      have hc : c.1 = d.1 := by
        rcases Nat.lt_trichotomy c.1 d.1 with hlt | heq | hgt
        · have := e c.1
          rw [Memory.get_of_lt_head h' hlt] at this
          simp only [Memory.get, if_true] at this
          exact absurd this (h.2 c (by simp))
        · exact heq
        · have := e d.1
          rw [Memory.get_of_lt_head h hgt] at this
          simp only [Memory.get, if_true] at this
          exact absurd this.symm (h'.2 d (by simp))
      have hv : c.2 = d.2 := by
        have := e c.1
        simpa [Memory.get, hc] using this
      have hcd : c = d := Prod.ext hc hv
      subst hcd
      refine congrArg (c :: ·) (ih (Memory.wf_tail h) (Memory.wf_tail h') fun x => ?_)
      by_cases hx : c.1 = x
      · have h1 : Memory.get rest x = memDefault := Memory.get_of_absent _ _ fun d hd => by
          have := (List.pairwise_cons.1 h.1).1 d hd
          omega
        have h2 : Memory.get rest' x = memDefault := Memory.get_of_absent _ _ fun d hd => by
          have := (List.pairwise_cons.1 h'.1).1 d hd
          omega
        rw [h1, h2]
      · have := e x
        simpa [Memory.get, hx] using this

end Sys2Proof.Machine
end

