-- ==== Sys2Proof/Laws/Ops.lean ====
section
/-! SUPPORT. What each shared operation can do, said once. -/

namespace Sys2Proof.Machine

/-! ### Contexts -/

@[simp] theorem State.ctx_setCtx_same (s : State) (n : Fin 16) (c : Ctx) : (s.setCtx n c).ctx n = c := by
  simp [State.ctx, State.setCtx]

theorem State.ctx_setCtx_other (s : State) (n m : Fin 16) (c : Ctx) (h : m ≠ n) : (s.setCtx n c).ctx m = s.ctx m := by
  have : n.val ≠ m.val := fun e => h (Fin.ext e.symm)
  simp [State.ctx, State.setCtx, this]

theorem State.ctx_setCtx (s : State) (n m : Fin 16) (c : Ctx) :
    (s.setCtx n c).ctx m = if m = n then c else s.ctx m := by
  split
  · next h => rw [h, State.ctx_setCtx_same]
  · next h => exact State.ctx_setCtx_other s n m c h

/-- A context read depends on the `ctxs` field only. -/
theorem State.ctx_congr {s t : State} (h : s.ctxs = t.ctxs) (n : Fin 16) : s.ctx n = t.ctx n := by
  simp [State.ctx, h]

theorem State.ctx_set (s : State) (n m : Fin 16) (c : Ctx) :
    (s.ctxs.set n.val c)[m.val] = if m = n then c else s.ctx m := State.ctx_setCtx s n m c

@[simp] theorem State.ctx_raise (s : State) (b : Word) (n : Fin 16) : (s.raise b).ctx n = s.ctx n := rfl

@[simp] theorem ctx_reject (e : ErrCode) (m : Fin 16) (s : State) (n : Fin 16) : (reject e m s).ctx n = s.ctx n := rfl

theorem ctx_finish (n m : Fin 16) (c : Ctx) (l : Lifecycle) (e : ErrCode) (o : Nat) (s : State) :
    (finish n c l e o s).ctx m =
      if m = n then { c with state := l, err := e, outlen := BitVec.ofNat 32 o } else s.ctx m :=
  State.ctx_set s n m _

theorem ctx_failWith (n m : Fin 16) (c : Ctx) (l : Lifecycle) (e : ErrCode) (s : State) :
    (failWith n c l e s).ctx m = if m = n then { c with state := l, err := e, outlen := 0#32 } else s.ctx m :=
  State.ctx_set s n m _

theorem ctx_accept (n m : Fin 16) (c : Ctx) (op : Opcode) (a b l k o : Nat) (s : State) :
    (accept n c op a b l k o s).ctx m =
      if m = n then
        { c with state := .busy, op := op, jsrc := a, jdst := b, jlen := l, nblk := k, maxout := o, blk := 0,
                 err := .none, outlen := 0#32 }
      else s.ctx m :=
  State.ctx_set s n m _

@[simp] theorem ctx_respond (e : Bool) (d : Option Word) (s : State) (n : Fin 16) : (respond e d s).ctx n = s.ctx n := rfl

@[simp] theorem ctx_setBuserr (s : State) (n : Fin 16) : (setBuserr s).ctx n = s.ctx n := rfl

@[simp] theorem ctx_ackIrq (v : Word) (s : State) (n : Fin 16) : (ackIrq v s).ctx n = s.ctx n := rfl

@[simp] theorem ctx_ackGstatus (v : Word) (s : State) (n : Fin 16) : (ackGstatus v s).ctx n = s.ctx n := rfl

@[simp] theorem ctx_resetFor (p : Params) (n : Fin 16) : (State.resetFor p).ctx n = Ctx.reset p := by
  simp [State.ctx, State.resetFor]

/-- Every context number is listed. -/
@[simp] theorem mem_ctxNumbers (n : Fin 16) : n ∈ ctxNumbers := by
  revert n; decide

theorem ctxNumbers_nodup : ctxNumbers.Nodup := by decide

theorem present_congr {s t : State} (h : s.inst = t.inst) (n : Fin 16) : present s n = present t n := by
  simp [present, h]

theorem busy_congr {s t : State} {n : Fin 16} (h : s.inst = t.inst) (hs : (s.ctx n).state = (t.ctx n).state) :
    busy s n = busy t n := by
  simp [busy, present, h, hs]

theorem busy_iff (s : State) (n : Fin 16) : busy s n = true ↔ n.val < s.inst.nctx ∧ (s.ctx n).state = .busy := by
  simp [busy, present]

theorem present_iff (s : State) (n : Fin 16) : present s n = true ↔ n.val < s.inst.nctx := by simp [present]

theorem present_of_busy {s : State} {n : Fin 16} (h : busy s n = true) : present s n = true :=
  (Bool.and_eq_true _ _ ▸ h : _ ∧ _).1

/-! ### Engine access to MSGMEM -/

theorem inMsgmem_iff (s : State) (a n : Nat) : inMsgmem s a n = true ↔ n = 0 ∨ a + n ≤ s.inst.msgmemBytes := by
  simp [inMsgmem]

theorem memRead_ok {a n : Nat} {s : State} (h : n = 0 ∨ a + n ≤ s.inst.msgmemBytes) :
    memRead a n s = .ok (s.mem.read a n) := by
  rw [memRead, if_pos ((inMsgmem_iff s a n).2 h)]

/-- All an engine read can do. -/
theorem memRead_cases (a n : Nat) (s : State) :
    memRead a n s = .ok (s.mem.read a n) ∧ (n = 0 ∨ a + n ≤ s.inst.msgmemBytes) ∨
    memRead a n s = .error (.outsideMsgmem a n) ∧ ¬ (n = 0 ∨ a + n ≤ s.inst.msgmemBytes) := by
  by_cases h : n = 0 ∨ a + n ≤ s.inst.msgmemBytes
  · exact .inl ⟨memRead_ok h, h⟩
  · refine .inr ⟨?_, h⟩
    rw [memRead, if_neg (fun e => h ((inMsgmem_iff s a n).1 e))]

theorem memWrite_ok {a : Nat} {bs : Bytes} {s : State} (h : bs.length = 0 ∨ a + bs.length ≤ s.inst.msgmemBytes) :
    memWrite a bs s = .ok { s with mem := s.mem.write a bs } := by
  rw [memWrite, if_pos ((inMsgmem_iff s a bs.length).2 h)]

/-- All an engine write can do. -/
theorem memWrite_cases (a : Nat) (bs : Bytes) (s : State) :
    memWrite a bs s = .ok { s with mem := s.mem.write a bs } ∧ (bs.length = 0 ∨ a + bs.length ≤ s.inst.msgmemBytes) ∨
    memWrite a bs s = .error (.outsideMsgmem a bs.length) ∧
      ¬ (bs.length = 0 ∨ a + bs.length ≤ s.inst.msgmemBytes) := by
  by_cases h : bs.length = 0 ∨ a + bs.length ≤ s.inst.msgmemBytes
  · exact .inl ⟨memWrite_ok h, h⟩
  · refine .inr ⟨?_, h⟩
    rw [memWrite, if_neg (fun e => h ((inMsgmem_iff s a bs.length).1 e))]

@[simp] theorem andThen_ok {α : Type} (x : α) (k : α → Result) : andThen (.ok x) k = k x := rfl

@[simp] theorem andThen_error {α : Type} (f : Fault) (k : α → Result) : andThen (.error f) k = .fault f := rfl

/-- If an access and what follows it answer a next state, the access was made. -/
theorem andThen_eq_next {α : Type} {r : Except Fault α} {k : α → Result} {t : State} (h : andThen r k = .next t) :
    ∃ x, r = .ok x ∧ k x = .next t := by
  cases r with
  | error f => simp [andThen] at h
  | ok x => exact ⟨x, rfl, h⟩

theorem memWrite_eq_ok {a : Nat} {bs : Bytes} {s t : State} (h : memWrite a bs s = .ok t) :
    t = { s with mem := s.mem.write a bs } ∧ (bs.length = 0 ∨ a + bs.length ≤ s.inst.msgmemBytes) := by
  rcases memWrite_cases a bs s with ⟨e, hb⟩ | ⟨e, -⟩
  · rw [e] at h; exact ⟨(Except.ok.inj h).symm, hb⟩
  · rw [e] at h; exact absurd h (by simp)

theorem memRead_eq_ok {a n : Nat} {s : State} {x : Bytes} (h : memRead a n s = .ok x) :
    x = s.mem.read a n ∧ (n = 0 ∨ a + n ≤ s.inst.msgmemBytes) := by
  rcases memRead_cases a n s with ⟨e, hb⟩ | ⟨e, -⟩
  · rw [e] at h; exact ⟨(Except.ok.inj h).symm, hb⟩
  · rw [e] at h; exact absurd h (by simp)

/-! ### Commands -/

theorem onCtx_present {n : Fin 16} {s : State} (h : present s n = true) (k : Ctx → Result) :
    onCtx n s k = k (s.ctx n) := by rw [onCtx, if_pos h]

theorem onCtx_absent {n : Fin 16} {s : State} (h : present s n = false) (k : Ctx → Result) :
    onCtx n s k = .next (reject .illegalCommand n s) := by simp [onCtx, h]

/-- All a command on a context can do: its own effect, or IllegalCommand where there is no such context. -/
theorem onCtx_eq_next {n : Fin 16} {s t : State} {k : Ctx → Result} (h : onCtx n s k = .next t) :
    present s n = true ∧ k (s.ctx n) = .next t ∨ present s n = false ∧ t = reject .illegalCommand n s := by
  cases hp : present s n with
  | true => rw [onCtx_present hp] at h; exact .inl ⟨rfl, h⟩
  | false => rw [onCtx_absent hp] at h; exact .inr ⟨rfl, by cases h; rfl⟩

end Sys2Proof.Machine
end

