-- ==== Sys2Proof/Laws/Operands.lean ====
section
/-! SUPPORT. Ranges, the splitter's sizes, and the locked sets. -/

namespace Sys2Proof.Machine

theorem inRange_iff (a n x : Nat) : inRange a n x = true ↔ a ≤ x ∧ x < a + n := by simp [inRange]

theorem disjoint_iff (a n b m : Nat) : disjoint a n b m = true ↔ n = 0 ∨ m = 0 ∨ a + n ≤ b ∨ b + m ≤ a := by
  simp [disjoint, or_assoc]

/-- `disjoint` says what it should: no offset lies in both ranges (20_memory.md R90). -/
theorem disjoint_spec (a n b m : Nat) : disjoint a n b m = true ↔ ∀ x, ¬ (inRange a n x = true ∧ inRange b m x = true) := by
  rw [disjoint_iff]
  constructor
  · intro h x hx
    rw [inRange_iff, inRange_iff] at hx
    omega
  · intro h
    by_contra hc
    refine h (max a b) ?_
    rw [inRange_iff, inRange_iff]
    omega

theorem disjoint_comm (a n b m : Nat) : disjoint a n b m = disjoint b m a n := by
  rw [Bool.eq_iff_iff, disjoint_iff, disjoint_iff]; omega

theorem gated_iff (s : State) (x : Nat) : gated s x = true ↔ ∃ m, busy s m = true ∧ inDest (s.ctx m) x = true := by
  simp [gated, List.any_eq_true]

theorem locked_iff (s : State) (x : Nat) :
    locked s x = true ↔ ∃ m, busy s m = true ∧ (inSource (s.ctx m) x = true ∨ inDest (s.ctx m) x = true) := by
  simp [locked, List.any_eq_true]

theorem gated_congr {s t : State} (hi : s.inst = t.inst) (hc : s.ctxs = t.ctxs) (x : Nat) : gated s x = gated t x := by
  have h : ∀ m, s.ctx m = t.ctx m := State.ctx_congr hc
  have hb : ∀ m, busy s m = busy t m := fun m => busy_congr hi (by rw [h])
  simp only [gated, h, hb]

theorem locked_congr {s t : State} (hi : s.inst = t.inst) (hc : s.ctxs = t.ctxs) (x : Nat) : locked s x = locked t x := by
  have h : ∀ m, s.ctx m = t.ctx m := State.ctx_congr hc
  have hb : ∀ m, busy s m = busy t m := fun m => busy_congr hi (by rw [h])
  simp only [locked, h, hb]

/-- RangeOK, clause by clause (20_memory.md R90). -/
theorem rangeOk_iff (n : Fin 16) (a l d o : Nat) (s : State) :
    rangeOk n a l d o s = true ↔
      a + l ≤ s.inst.msgmemBytes ∧ d + o ≤ s.inst.msgmemBytes ∧ (disjoint a l d o = true ∨ a = d) ∧
      ∀ m, m ≠ n → busy s m = true →
        disjoint d o (s.ctx m).jsrc (s.ctx m).jlen = true ∧ disjoint d o (s.ctx m).jdst (s.ctx m).maxout = true ∧
        disjoint a l (s.ctx m).jdst (s.ctx m).maxout = true := by
  simp only [rangeOk, Bool.and_eq_true, decide_eq_true_eq, Bool.or_eq_true, beq_iff_eq, List.all_eq_true,
    mem_ctxNumbers, forall_true_left, Bool.not_eq_true', and_assoc]
  refine and_congr_right fun _ => and_congr_right fun _ => and_congr_right fun _ => forall_congr' fun m => ?_
  by_cases h : m = n
  · simp [h]
  · cases hb : busy s m <;> simp [h]

/-! ### Sizes -/

@[simp] theorem nblkOf_padded (b l : Nat) : nblkOf .padded b l = l / b + 1 := rfl

@[simp] theorem nblkOf_aligned (b l : Nat) : nblkOf .aligned b l = l / b := rfl

@[simp] theorem nblkOf_stream (b l : Nat) : nblkOf .stream b l = (l + b - 1) / b := rfl

@[simp] theorem maxoutOf_padded (b l : Nat) : maxoutOf .padded b l = (l / b + 1) * b := rfl

@[simp] theorem maxoutOf_aligned (b l : Nat) : maxoutOf .aligned b l = l := rfl

@[simp] theorem maxoutOf_stream (b l : Nat) : maxoutOf .stream b l = l := rfl

/-- MAXOUT is at least L (43_stream_driver.md R273). -/
theorem len_le_maxoutOf (sh : JobShape) {b : Nat} (hb : 0 < b) (l : Nat) : l ≤ maxoutOf sh b l := by
  cases sh
  · rw [maxoutOf_padded, Nat.add_mul, Nat.one_mul]
    have h := Nat.div_add_mod l b
    have := Nat.mod_lt l hb
    rw [Nat.mul_comm] at h
    omega
  · exact Nat.le_refl l
  · exact Nat.le_refl l

/-- A stream job's block `i` begins inside the message. -/
theorem stream_block_start {b l i : Nat} (hb : 0 < b) (hi : i < nblkOf .stream b l) : i * b < l := by
  rw [nblkOf_stream] at hi
  have := (Nat.le_div_iff_mul_le hb).1 (Nat.succ_le_of_lt hi)
  rw [Nat.succ_mul] at this
  omega

/-- An aligned job's block `i` lies inside the message. -/
theorem aligned_block_end {b l i : Nat} (hb : 0 < b) (hi : i < nblkOf .aligned b l) : i * b + b ≤ l := by
  rw [nblkOf_aligned] at hi
  have := (Nat.le_div_iff_mul_le hb).1 (Nat.succ_le_of_lt hi)
  rwa [Nat.succ_mul] at this

/-- A padded job's block `i` lies inside the destination range. -/
theorem padded_block_end {b l i : Nat} (hi : i < nblkOf .padded b l) : i * b + b ≤ maxoutOf .padded b l := by
  rw [nblkOf_padded] at hi
  rw [maxoutOf_padded, ← Nat.succ_mul]
  exact Nat.mul_le_mul_right b hi

/-- A padded job's last block begins inside the message or at its end, less than a block before it. -/
theorem padded_last {b l : Nat} (hb : 0 < b) : l / b * b ≤ l ∧ l - l / b * b < b := by
  have h := Nat.div_add_mod l b
  have := Nat.mod_lt l hb
  rw [Nat.mul_comm] at h
  omega

end Sys2Proof.Machine
end

