-- ==== Sys2Proof/Laws/Padding.lean ====
section
/-! SUPPORT. The padding handler: what `pad` appends and what `PadLen` accepts (41_padding.md R180 to R185). -/

namespace Sys2Proof.Machine

/-- Between 1 and B bytes are appended (41_padding.md R180). -/
theorem padCount_bounds {b : Nat} (hb : 0 < b) (l : Nat) : 1 ≤ padCount b l ∧ padCount b l ≤ b := by
  have := Nat.mod_lt l hb
  unfold padCount
  omega

/-- `len(pad(x)) = (⌊len(x)/B⌋ + 1)·B` (41_padding.md R181). -/
theorem padBytes_length {b : Nat} (hb : 0 < b) (x : Bytes) : (padBytes b x).length = (x.length / b + 1) * b := by
  have h := Nat.div_add_mod x.length b
  have := Nat.mod_lt x.length hb
  rw [Nat.mul_comm] at h
  simp only [padBytes, List.length_append, rep_length, padCount, Nat.add_mul, Nat.one_mul]
  omega

/-- All PadLen can answer (41_padding.md R182). -/
theorem padLen_eq_some {b n : Nat} {y : Bytes} (h : padLen b y = some n) :
    1 ≤ n ∧ n ≤ b ∧ n ≤ y.length ∧ y.drop (y.length - n) = rep (BitVec.ofNat 8 n) n := by
  unfold padLen at h
  split at h
  · cases h
  · next last hl =>
    split at h
    · cases h
    · split at h
      · cases h
      · split at h
        · next hd =>
          cases h
          refine ⟨by omega, by omega, by omega, ?_⟩
          rw [hd, BitVec.ofNat_toNat, BitVec.setWidth_eq]
        · cases h

/-- A string that ends in `n` bytes of value `n`, `1 ≤ n ≤ B`, has PadLen `n` (41_padding.md R182). -/
theorem padLen_of_suffix {b n : Nat} (h1 : 1 ≤ n) (hn : n ≤ b) (hb : b < 256) (x : Bytes) :
    padLen b (x ++ rep (BitVec.ofNat 8 n) n) = some n := by
  have hv : (BitVec.ofNat 8 n).toNat = n := by rw [BitVec.toNat_ofNat]; omega
  have hl : (x ++ rep (BitVec.ofNat 8 n) n).getLast? = some (BitVec.ofNat 8 n) := by
    rw [List.getLast?_append]
    have : (rep (BitVec.ofNat 8 n) n).getLast? = some (BitVec.ofNat 8 n) := by
      rw [rep, List.getLast?_replicate, if_neg (by omega)]
    rw [this]; rfl
  unfold padLen
  rw [hl]
  simp only [hv, List.length_append, rep_length]
  rw [if_neg (by omega), if_neg (by omega), if_pos]
  simp

/-- The padding of a padded string is found again. -/
theorem padLen_padBytes {b : Nat} (hb : 0 < b) (hb' : b < 256) (x : Bytes) :
    padLen b (padBytes b x) = some (padCount b x.length) :=
  padLen_of_suffix (padCount_bounds hb x.length).1 (padCount_bounds hb x.length).2 hb' x

end Sys2Proof.Machine
end

