-- ==== Sys2Proof/Laws/Engine.lean ====
section
/-! SUPPORT. All an engine turn can do: one inversion lemma for the block step, the copy step and each completion. -/

namespace Sys2Proof.Machine

/-- The transform of a job's blocks (42_modes.md R211, 41_padding.md R192). -/
def jobXform (p : Params) (c : Ctx) (x : Bytes) : Bytes × Bytes :=
  match c.op with
  | .encrypt => xform p c.mode .enc c.nl.toNat c.k c.chain x
  | .decrypt => xform p c.mode .dec c.nl.toNat c.k c.chain x
  | .pad => (x, c.chain)
  | .unpad => (x, c.chain)
  | .none => (x, c.chain)
  | .init => (x, c.chain)
  | .discard => (x, c.chain)
  | .abort => (x, c.chain)

theorem jobXform_encrypt {p : Params} {c : Ctx} (h : c.op = .encrypt) :
    jobXform p c = fun x => xform p c.mode .enc c.nl.toNat c.k c.chain x := by
  funext x; simp [jobXform, h]

theorem jobXform_decrypt {p : Params} {c : Ctx} (h : c.op = .decrypt) :
    jobXform p c = fun x => xform p c.mode .dec c.nl.toNat c.k c.chain x := by
  funext x; simp [jobXform, h]

theorem jobXform_copy {p : Params} {c : Ctx} (h : c.op = .pad ∨ c.op = .unpad) :
    jobXform p c = fun x => (x, c.chain) := by
  funext x; rcases h with h | h <;> simp [jobXform, h]

/-- The state after a block step or copy step whose piece is `piece`. -/
def afterBlock (s : State) (n : Fin 16) (piece : Piece) : State :=
  let c := s.ctx n
  let r := jobXform s.inst c piece.input
  ({ s with mem := s.mem.write (c.jdst + piece.dstoff) (r.1.take piece.wlen) } : State).setCtx n
    { c with chain := r.2, blk := c.blk + 1 }

/-- The step of a job with a block to do is one step shared by the four commands. -/
theorem nextBlock_eq (n : Fin 16) (s : State) :
    nextBlock n s =
      match jobShape (s.ctx n).op (s.ctx n).mode with
      | some sh => runBlock sh (jobXform s.inst (s.ctx n)) n s
      | none => .fault (.noEngineRule n) := by
  unfold nextBlock
  cases h : (s.ctx n).op with
  | encrypt => simp [jobShape, blockStep, encryptShape, jobXform_encrypt h, h]
  | decrypt => simp [jobShape, blockStep, decryptShape, jobXform_decrypt h, h]
  | pad => simp [jobShape, copyStep, jobXform_copy (.inl h), h]
  | unpad => simp [jobShape, copyStep, jobXform_copy (.inr h), h]
  | _ => simp [jobShape, h]

/-- All a block step can do. -/
theorem runBlock_eq_next {sh : JobShape} {n : Fin 16} {s t : State}
    (h : runBlock sh (jobXform s.inst (s.ctx n)) n s = .next t) :
    ∃ piece, split sh (s.ctx n) (s.ctx n).blk s = .ok piece ∧ t = afterBlock s n piece := by
  unfold runBlock at h
  obtain ⟨piece, hp, h⟩ := andThen_eq_next h
  obtain ⟨u, hu, h⟩ := andThen_eq_next h
  obtain ⟨rfl, -⟩ := memWrite_eq_ok hu
  exact ⟨piece, hp, by cases h; rfl⟩

/-- All a completion that succeeds without a padding check does. -/
theorem completeOk_eq (n : Fin 16) (o : Nat) (s : State) :
    completeOk n o s =
      { s with
        ctxs := s.ctxs.set n.val
          { s.ctx n with state := stateAfterJob (s.ctx n).op, err := .none, outlen := BitVec.ofNat 32 o }
        irqStatus := s.irqStatus ||| cdoneBit n } := rfl

/-- The state after a completion that wrote zeros from `a` on, with the status given. -/
def afterUnpad (s : State) (n : Fin 16) (a k : Nat) (e : ErrCode) (o : Nat) : State :=
  finish n (s.ctx n) (stateAfterJob (s.ctx n).op) e o { s with mem := s.mem.write a (zeros k) }

/-- All a completion with a padding check can do (43_stream_driver.md R280 to R282, 41_padding.md R198). -/
theorem completeUnpad_eq_next {n : Fin 16} {s t : State} (h : completeUnpad n s = .next t) :
    let c := s.ctx n
    (padLen s.inst.b (s.mem.read c.jdst c.jlen) = none ∧ t = afterUnpad s n c.jdst c.maxout .invalidPadding 0) ∨
    ∃ k, padLen s.inst.b (s.mem.read c.jdst c.jlen) = some k ∧
      t = afterUnpad s n (c.jdst + c.jlen - k) k .none (c.jlen - k) := by
  unfold completeUnpad at h
  obtain ⟨check, hc, h⟩ := andThen_eq_next h
  unfold padCheck at hc
  cases hr : memRead (s.ctx n).jdst (s.ctx n).jlen s with
  | error f => rw [hr] at hc; cases hc
  | ok y =>
    obtain ⟨rfl, -⟩ := memRead_eq_ok hr
    rw [hr] at hc
    cases hc
    cases hp : padLen s.inst.b (s.mem.read (s.ctx n).jdst (s.ctx n).jlen) with
    | none =>
      rw [hp] at h
      obtain ⟨u, hu, h⟩ := andThen_eq_next h
      obtain ⟨rfl, -⟩ := memWrite_eq_ok hu
      exact .inl ⟨hp, by cases h; rfl⟩
    | some k =>
      rw [hp] at h
      obtain ⟨u, hu, h⟩ := andThen_eq_next h
      obtain ⟨rfl, -⟩ := memWrite_eq_ok hu
      exact .inr ⟨k, hp, by cases h; rfl⟩

/-- Whether the completion of a job checks its padding (43_stream_driver.md R280, 41_padding.md R198). -/
def unpads (c : Ctx) : Bool := c.op == .unpad || (c.op == .decrypt && c.mode.blockAligned)

/-- The output length of a completion without a padding check (43_stream_driver.md R280, 41_padding.md R193). -/
def plainOutlen (c : Ctx) : Nat :=
  match jobShape c.op c.mode with
  | some .padded => c.maxout
  | _ => c.jlen

/-- The completion is one of two steps, by OP and MODE. -/
theorem complete_eq (n : Fin 16) (s : State) :
    complete n s =
      match jobShape (s.ctx n).op (s.ctx n).mode with
      | some _ => if unpads (s.ctx n) then completeUnpad n s else .next (completeOk n (plainOutlen (s.ctx n)) s)
      | none => .fault (.noEngineRule n) := by
  unfold complete
  cases h : (s.ctx n).op with
  | encrypt => cases hm : (s.ctx n).mode <;> simp [jobShape, plainOutlen, unpads, h, hm, Mode.blockAligned]
  | decrypt => cases hm : (s.ctx n).mode <;> simp [jobShape, plainOutlen, unpads, h, hm, Mode.blockAligned]
  | _ => simp [jobShape, plainOutlen, unpads, h]

/-- All an engine turn can do (44_control_interleaver.md R310): pass, one block, or the completion. -/
theorem engineTurn_eq_next {n : Fin 16} {s t : State} (h : engineTurn n s = .next t) :
    (busy s n = false ∧ t = s) ∨
    (busy s n = true ∧ ∃ sh, jobShape (s.ctx n).op (s.ctx n).mode = some sh ∧
      (((s.ctx n).blk < (s.ctx n).nblk ∧
          ∃ piece, split sh (s.ctx n) (s.ctx n).blk s = .ok piece ∧ t = afterBlock s n piece) ∨
       ((s.ctx n).blk = (s.ctx n).nblk ∧ unpads (s.ctx n) = true ∧ completeUnpad n s = .next t) ∨
       ((s.ctx n).blk = (s.ctx n).nblk ∧ unpads (s.ctx n) = false ∧
          t = completeOk n (plainOutlen (s.ctx n)) s))) := by
  unfold engineTurn at h
  cases hb : busy s n with
  | false => simp only [hb] at h; exact .inl ⟨rfl, by cases h; rfl⟩
  | true =>
    simp only [hb, if_true] at h
    refine .inr ⟨rfl, ?_⟩
    split at h
    · next hlt =>
      rw [nextBlock_eq] at h
      split at h
      · next sh hsh => exact ⟨sh, hsh, .inl ⟨hlt, runBlock_eq_next h⟩⟩
      · cases h
    · split at h
      · next heq =>
        rw [complete_eq] at h
        split at h
        · next sh hsh =>
          split at h
          · next hu => exact ⟨sh, hsh, .inr (.inl ⟨heq, hu, h⟩)⟩
          · next hu => exact ⟨sh, hsh, .inr (.inr ⟨heq, by simpa using hu, by cases h; rfl⟩)⟩
        · cases h
      · cases h

/-! ### The splitter -/

/-- The piece of block `i` where the source range lies in MSGMEM (43_stream_driver.md R274). -/
def pieceOf (sh : JobShape) (c : Ctx) (i : Nat) (s : State) : Piece :=
  let b := s.inst.b
  match sh with
  | .padded =>
    if i + 1 < c.nblk then { input := s.mem.read (c.jsrc + i * b) b, dstoff := i * b, wlen := b }
    else
      let r := c.jlen - i * b
      { input := s.mem.read (c.jsrc + i * b) r ++ rep (BitVec.ofNat 8 (b - r)) (b - r), dstoff := i * b, wlen := b }
  | .aligned => { input := s.mem.read (c.jsrc + i * b) b, dstoff := i * b, wlen := b }
  | .stream =>
    let l := min b (c.jlen - i * b)
    { input := s.mem.read (c.jsrc + i * b) l, dstoff := i * b, wlen := l }

theorem map_memRead_eq_ok {a l : Nat} {s : State} {f : Bytes → Piece} {piece : Piece}
    (h : (memRead a l s).map f = .ok piece) : piece = f (s.mem.read a l) := by
  cases hr : memRead a l s with
  | error e => rw [hr] at h; cases h
  | ok x =>
    obtain ⟨rfl, -⟩ := memRead_eq_ok hr
    rw [hr] at h
    cases h; rfl

/-- All the splitter can answer. -/
theorem split_eq_ok {sh : JobShape} {c : Ctx} {i : Nat} {s : State} {piece : Piece} (h : split sh c i s = .ok piece) :
    piece = pieceOf sh c i s := by
  unfold split at h
  unfold pieceOf
  cases sh with
  | padded =>
    simp only at h ⊢
    split at h
    · next hi => rw [if_pos hi]; exact map_memRead_eq_ok h
    · next hi => rw [if_neg hi]; exact map_memRead_eq_ok h
  | aligned => exact map_memRead_eq_ok h
  | stream => exact map_memRead_eq_ok h

/-- The splitter answers for every block of a job whose source range lies in MSGMEM. -/
theorem split_ok {sh : JobShape} {c : Ctx} {i : Nat} {s : State} (hb : 0 < s.inst.b)
    (hn : c.nblk = nblkOf sh s.inst.b c.jlen) (hi : i < c.nblk) (hs : c.jsrc + c.jlen ≤ s.inst.msgmemBytes) :
    split sh c i s = .ok (pieceOf sh c i s) := by
  have read : ∀ {a l : Nat} (f : Bytes → Piece), a + l ≤ s.inst.msgmemBytes →
      (memRead a l s).map f = .ok (f (s.mem.read a l)) := fun f h => by rw [memRead_ok (.inr h)]; rfl
  rw [hn] at hi
  unfold split pieceOf
  cases sh with
  | padded =>
    have hlast := padded_last (l := c.jlen) hb
    simp only
    by_cases h1 : i + 1 < c.nblk
    · rw [if_pos h1, if_pos h1]
      refine read _ ?_
      rw [hn, nblkOf_padded] at h1
      have := Nat.mul_le_mul_right s.inst.b (show i + 1 ≤ c.jlen / s.inst.b by omega)
      rw [Nat.succ_mul] at this
      omega
    · rw [if_neg h1, if_neg h1]
      refine read _ ?_
      have := Nat.mul_le_mul_right s.inst.b (show i ≤ c.jlen / s.inst.b by rw [nblkOf_padded] at hi; omega)
      omega
  | aligned =>
    have := aligned_block_end hb hi
    exact read _ (by omega)
  | stream =>
    have := stream_block_start hb hi
    exact read _ (by omega)

end Sys2Proof.Machine
end

