-- ==== Sys2Proof/Laws/Step.lean ====
section
/-! SUPPORT. What a step and a host access are, by the event they run. -/

namespace Sys2Proof.Machine

/-- With an event in the agenda, a step runs it on the rest. -/
theorem step_cons {s : State} {e : Event} {rest : List Event} (h : s.agenda = e :: rest) :
    step s = runEvent e { s with agenda := rest } := by
  simp [step, runNext, h]

/-- With an empty agenda, a step is the engine's alone. -/
theorem step_nil {s : State} (h : s.agenda = []) : step s = engineAlone s := by
  simp [step, runNext, h]

@[simp] theorem runEvent_host (a : BusAccess) (s : State) : runEvent (.host a) s = hostAccess a s := rfl

@[simp] theorem runEvent_engine (n : Fin 16) (s : State) : runEvent (.engine n) s = engineTurn n s := rfl

@[simp] theorem runEvent_rst (s : State) : runEvent .rst s = .next (resetStep s) := rfl

@[simp] theorem hostAccess_read (a : BitVec 16) (s : State) : hostAccess (.read a) s = hostRead a s := rfl

@[simp] theorem hostAccess_write (a : BitVec 16) (v : Word) (s : State) : hostAccess (.write a v) s = hostWrite a v s := rfl

theorem hostRead_misaligned {a : BitVec 16} (h : a.toNat % 4 ≠ 0) (s : State) :
    hostRead a s = .next (respond true (some 0#32) (setBuserr s)) := by rw [hostRead, if_pos h]

theorem hostRead_aligned {a : BitVec 16} (h : a.toNat % 4 = 0) (s : State) :
    hostRead a s = .next (respond false (some (readReg s (regAt s.inst a.toNat))) s) := by
  rw [hostRead, if_neg (by omega)]

theorem hostWrite_misaligned {a : BitVec 16} (h : a.toNat % 4 ≠ 0) (v : Word) (s : State) :
    hostWrite a v s = .next (respond true none (setBuserr s)) := by rw [hostWrite, if_pos h]

/-- An aligned host write that answers a next state is the register's write, with an OKAY response. -/
theorem hostWrite_aligned_next {a : BitVec 16} (h : a.toNat % 4 = 0) {v : Word} {s t : State}
    (hw : writeReg (regAt s.inst a.toNat) v s = .next t) : hostWrite a v s = .next (respond false none t) := by
  rw [hostWrite, if_neg (by omega), hw]

/-- All a host write can do. -/
theorem hostWrite_eq_next {a : BitVec 16} {v : Word} {s t : State} (h : hostWrite a v s = .next t) :
    (a.toNat % 4 ≠ 0 ∧ t = respond true none (setBuserr s)) ∨
    (a.toNat % 4 = 0 ∧ ∃ u, writeReg (regAt s.inst a.toNat) v s = .next u ∧ t = respond false none u) := by
  unfold hostWrite at h
  split at h
  · next hm => exact .inl ⟨hm, by cases h; rfl⟩
  · next hm =>
    refine .inr ⟨by omega, ?_⟩
    split at h
    · next u hu => exact ⟨u, hu, by cases h; rfl⟩
    · cases h
    · cases h

/-- All a host read can do: the response, and BUSERR where it is misaligned. -/
theorem hostRead_eq (a : BitVec 16) (s : State) :
    (a.toNat % 4 ≠ 0 ∧ hostRead a s = .next (respond true (some 0#32) (setBuserr s))) ∨
    (a.toNat % 4 = 0 ∧ hostRead a s = .next (respond false (some (readReg s (regAt s.inst a.toNat))) s)) := by
  by_cases h : a.toNat % 4 = 0
  · exact .inr ⟨h, hostRead_aligned h s⟩
  · exact .inl ⟨h, hostRead_misaligned h s⟩

@[simp] theorem regAt_cmdOffset (p : Params) : regAt p cmdOffset.toNat = .cmd := by rfl

/-- One case of the decode passed by. -/
theorem regAt_skip {c : Prop} [Decidable c] {x y z : Reg} (h : (if c then x else y) = z) (hx : x ≠ z) : y = z := by
  by_cases hc : c
  · rw [if_pos hc] at h; exact absurd h hx
  · rwa [if_neg hc] at h

/-- Which offsets reach MSGMEM, and which of its bytes (20_memory.md R83). -/
theorem regAt_eq_msgmem {p : Params} {a j : Nat} (h : regAt p a = .msgmem j) : a = 0x8000 + j ∧ j < p.msgmemBytes := by
  unfold regAt at h
  iterate 14 (replace h := regAt_skip h Reg.noConfusion)
  replace h := regAt_skip h (by
    intro e
    by_cases h8 : a % 8 = 0 <;> (first | rw [if_pos h8] at e | rw [if_neg h8] at e) <;> cases e)
  by_cases hc : 0x8000 ≤ a ∧ a < 0x8000 + p.msgmemBytes
  · rw [if_pos hc] at h
    have := Reg.msgmem.inj h
    omega
  · rw [if_neg hc] at h; exact Reg.noConfusion h

/-- A host write to CMD is the issue of the word (10_state.md R39). -/
theorem hostWrite_cmd (w : Word) (s : State) :
    hostWrite cmdOffset w s =
      match issue w s with
      | .next t => .next (respond false none t)
      | .fault f => .fault f
      | .refused r => .refused r := rfl

/-- The issue of a word that stands for a command is that command's meaning (30_encoding.md R120). -/
theorem issue_of_decode {w : Word} {i : Instr} (h : decode w = .ok i) (s : State) : issue w s = exec i s := by
  simp [issue, h]

/-- Any other word is rejected with IllegalCommand (30_encoding.md R124). -/
theorem issue_of_error {w : Word} {e : DecodeError} (h : decode w = .error e) (s : State) :
    issue w s = .next (reject .illegalCommand (ctxField w) s) := by
  simp [issue, h]

end Sys2Proof.Machine
end

