-- ==== Sys2Proof/Laws/Jobs.lean ====
section
/-! SUPPORT. Well-formed states and jobs: the interrupt masks, the legal parameters, the sizes of a job's pieces, and when a
changed state stays well formed. -/

namespace Sys2Proof.Machine

/-- Setting implemented bits sets no other. -/
theorem or_and_zero {x y m : Word} (hx : x &&& ~~~m = 0#32) (hy : y &&& ~~~m = 0#32) : (x ||| y) &&& ~~~m = 0#32 := by
  have : (x ||| y) &&& ~~~m = (x &&& ~~~m) ||| (y &&& ~~~m) := by
    ext i hi; simp [Bool.and_or_distrib_right]
  rw [this, hx, hy]; rfl

/-- CDONE of a context there is is an implemented bit (10_state.md R34). -/
theorem cdone_mask {p : Params} {n : Fin 16} (h : n.val < p.nctx) (hp : p.nctx ≤ 16) :
    cdoneBit n &&& ~~~(irqMask p) = 0#32 := by
  have key : ∀ k : Fin 17, ∀ n : Fin 16, n.val < k.val →
     (1#32 <<< n.val) &&& ~~~(BitVec.ofNat 32 (2 ^ k.val - 1) ||| 0x80000000#32) = 0#32 := by decide
  exact key ⟨p.nctx, by omega⟩ n h

/-- REJ_IRQ is an implemented bit (10_state.md R34). -/
theorem rej_mask (p : Params) : rejIrqBit &&& ~~~(irqMask p) = 0#32 := by
  unfold irqMask
  ext i hi; simp
  intro h _; simp_all

/-- A masked word has no bit outside the mask. -/
theorem mask_mask (v : Word) (m : Word) : (v &&& m) &&& ~~~m = 0#32 := by
  ext i hi; simp

/-- Clearing bits sets none. -/
theorem clear_mask {v w m : Word} (h : v &&& ~~~m = 0#32) : (v &&& ~~~w) &&& ~~~m = 0#32 := by
  have : (v &&& ~~~w) &&& ~~~m = (v &&& ~~~m) &&& ~~~w := by ext i hi; simp [Bool.and_right_comm]
  rw [this, h]; simp

/-- The legal parameters, value by value (00_scope.md R8). -/
theorem legal_spec {p : Params} (h : p.legal = true) :
   (p.b = 8 ∨ p.b = 16) ∧ (1 ≤ p.keyBytes ∧ p.keyBytes ≤ 32) ∧ (1 ≤ p.nctx ∧ p.nctx ≤ 16) ∧
   (p.msgmemBytes % 4 = 0 ∧ 4 ≤ p.msgmemBytes ∧ p.msgmemBytes ≤ 32768) ∧ (1 ≤ p.nlanes ∧ p.nlanes ≤ 15) ∧
   (p.prim = .xorprim → p.keyBytes = p.b) := by
  simpa [Params.legal, and_assoc, imp_iff_not_or] using h

/-- A context after reset is well formed (10_state.md R57). -/
theorem ctxFields_reset {p : Params} (h : p.legal = true) : CtxFields p (Ctx.reset p) := by
  have := legal_spec h
  refine ⟨by simp [Ctx.reset], by simp [Ctx.reset], ?_, fun _ => rfl, fun _ => rfl, (by decide : ErrCode.none.ofContext),
    by simp [Ctx.reset], fun _ => ⟨rfl, rfl, rfl, rfl⟩, by simp [Ctx.reset], by simp [Ctx.reset]⟩
  simp [Ctx.reset]; omega

/-- Being well formed depends on the block's own state only. -/
theorem State.Good.congr {s t : State} (hs : s.Good) (h1 : t.inst = s.inst) (h2 : t.gstatus = s.gstatus)
   (h3 : t.irqStatus = s.irqStatus) (h4 : t.irqEnable = s.irqEnable) (h5 : t.ctxs = s.ctxs) (h6 : t.mem = s.mem) : t.Good := by
  obtain ⟨a, b, c, d, e, f, g, h, i, j⟩ := hs
  have hc : ∀ n, t.ctx n = s.ctx n := State.ctx_congr h5
  have hb : ∀ n, busy t n = busy s n := fun n => busy_congr h1 (by rw [hc])
  have hp : ∀ n, present t n = present s n := present_congr h1
  refine ⟨by rwa [h1], by rwa [h6], by rwa [h1, h6], by rwa [h3, h1], by rwa [h4, h1], by rwa [h2], by rwa [h2], fun n => ?_, fun n => ?_, fun m n => ?_⟩
  · rw [hp, hc, h1]; exact h n
  · rw [hp, hc, h1]; exact i n
  · rw [hb, hb, hc, hc]; exact j m n

/-- A step that changes one context, bytes of MSGMEM and at most that context's CDONE keeps a state well formed if the new
context is. -/
theorem State.Good.update {s t : State} (hs : s.Good) {n : Fin 16} {c : Ctx} (h1 : t.inst = s.inst) (h2 : t.gstatus = s.gstatus)
   (h3 : t.irqStatus = s.irqStatus ∨ t.irqStatus = s.irqStatus ||| cdoneBit n) (h4 : t.irqEnable = s.irqEnable)
   (h5 : t.ctxs = s.ctxs.set n.val c) (h6 : t.mem.wf) (h7 : t.mem.below s.inst.msgmemBytes)
   (hn : present s n = true) (hf : CtxFields s.inst c)
   (ha : c.state = .busy → ∀ m, m ≠ n → busy s m = true → JobsApart c (s.ctx m) ∧ JobsApart (s.ctx m) c) : t.Good := by
  have hl := legal_spec hs.legal
  have hc : ∀ m, t.ctx m = if m = n then c else s.ctx m := fun m => by
    rw [← State.ctx_set s n m c]; simp [State.ctx, h5]
  have hp : ∀ n, present t n = present s n := present_congr h1
  have hb : ∀ m, m ≠ n → busy t m = busy s m := fun m hm => busy_congr h1 (by rw [hc, if_neg hm])
  have hbn : busy t n = true → c.state = .busy := fun h => by rw [busy_iff, hc, if_pos rfl] at h; exact h.2
  refine ⟨by rw [h1]; exact hs.legal, h6, by rw [h1]; exact h7, ?_, by rw [h4, h1]; exact hs.irq_enable,
     by rw [h2]; exact hs.issue_err, by rw [h2]; exact hs.no_rejection, fun m hm => ?_, fun m hm => ?_, fun m k hmk hm hk => ?_⟩
  · rcases h3 with h3 | h3
    · rw [h3, h1]; exact hs.irq_status
    · rw [h3, h1]; exact or_and_zero hs.irq_status (cdone_mask ((present_iff s n).1 hn) hl.2.2.1.2)
  · rw [hp] at hm
    have : m ≠ n := fun e => by rw [e, hn] at hm; cases hm
    rw [hc, if_neg this, h1]; exact hs.absent m hm
  · rw [hp] at hm
    rw [hc, h1]
    split
    · exact hf
    · exact hs.fields m hm
  · rw [hc, hc]
    by_cases e1 : m = n
    · subst e1
      have e2 : k ≠ m := fun e => hmk e.symm
      rw [if_pos rfl, if_neg e2]
      rw [hb k e2] at hk
      exact (ha (hbn hm) k e2 hk).1
    · rw [if_neg e1]
      rw [hb m e1] at hm
      by_cases e2 : k = n
      · subst e2; rw [if_pos rfl]; exact (ha (hbn hk) m e1 hm).2
      · rw [if_neg e2]; rw [hb k e2] at hk; exact hs.apart m k hmk hm hk

/-- KS has 32 bytes (10_state.md R40). -/
theorem keyString_length (s : State) : (keyString s).length = 32 := by
  simp only [keyString, List.length_flatMap]
  have : s.key.toList.map (fun x => (leBytes x).length) = s.key.toList.map (fun _ => 4) := by simp
  rw [this]; simp

/-- IVS has 16 bytes (10_state.md R41). -/
theorem ivString_length (s : State) : (ivString s).length = 16 := by
  simp only [ivString, List.length_flatMap]
  have : s.iv.toList.map (fun x => (leBytes x).length) = s.iv.toList.map (fun _ => 4) := by simp
  rw [this]; simp

/-- INIT's two error codes (43_stream_driver.md R262). -/
theorem initCheck_code {m : Mode} {s : State} {e : ErrCode} (h : initCheck m s = some e) : e = .invalidKeyLength ∨ e = .invalidIVLength := by
  unfold initCheck at h
  split at h
  · cases h; exact .inl rfl
  · cases m <;> simp at h <;> (try (obtain ⟨_, rfl⟩ := h; exact .inr rfl))

/-- A job that ends leaves its context not BUSY (10_state.md R47). -/
theorem stateAfterJob_ne (op : Opcode) : stateAfterJob op ≠ .busy := by unfold stateAfterJob; split <;> simp

/-- The sizes of a job's pieces (43_stream_driver.md R274). -/
theorem pieceOf_len {sh : JobShape} {c : Ctx} {i : Nat} {s : State} (hb : 0 < s.inst.b) (hn : c.nblk = nblkOf sh s.inst.b c.jlen)
   (hi : i < c.nblk) (hal : sh = .aligned → 0 < c.jlen ∧ c.jlen % s.inst.b = 0) :
   (pieceOf sh c i s).input.length = (pieceOf sh c i s).wlen ∧ (pieceOf sh c i s).wlen ≤ s.inst.b ∧
   (sh ≠ .stream → (pieceOf sh c i s).wlen = s.inst.b) ∧ (pieceOf sh c i s).dstoff + (pieceOf sh c i s).wlen ≤ maxoutOf sh s.inst.b c.jlen := by
  rw [hn] at hi
  cases sh with
  | padded =>
    have h1 := padded_block_end (l := c.jlen) hi
    have hlast := padded_last (l := c.jlen) hb
    simp only [pieceOf]
    split
    · exact ⟨by simp, by simp, by simp, h1⟩
    · next hlt =>
      refine ⟨?_, by simp, by simp, h1⟩
      simp at hi ⊢
      have : i = c.jlen / s.inst.b := by rw [hn] at hlt; simp at hlt; omega
      subst this
      omega
  | aligned =>
    exact ⟨by simp [pieceOf], by simp [pieceOf], by simp [pieceOf], aligned_block_end hb hi⟩
  | stream =>
    have := stream_block_start hb hi
    refine ⟨by simp [pieceOf], by simp [pieceOf], by simp, ?_⟩
    simp only [pieceOf, maxoutOf_stream]; omega

/-- Only the block-aligned modes' jobs are cut into full blocks. -/
theorem shape_aligned_mode {op : Opcode} {m : Mode} {sh : JobShape} (h : jobShape op m = some sh) (ho : op = .encrypt ∨ op = .decrypt) :
   (m.blockAligned = true ↔ sh ≠ .stream) := by
  rcases ho with rfl | rfl <;> cases m <;> simp [jobShape, Mode.blockAligned] at h ⊢ <;> subst h <;> simp

/-- A job's transform keeps the length of its input, and CHAIN a block. -/
theorem jobXform_lengths {p : Params} {c : Ctx} {sh : JobShape} (hl : p.legal = true) (hf : CtxFields p c) (hsh : jobShape c.op c.mode = some sh) {x : Bytes}
   (h1 : x.length ≤ p.b) (h2 : sh ≠ .stream → x.length = p.b) :
   (jobXform p c x).1.length = x.length ∧ (jobXform p c x).2.length = p.b := by
  have hL := legal_spec hl
  have hk : p.prim = .xorprim → c.k.length = p.b := fun h => by rw [hf.k_len]; exact hL.2.2.2.2.2 h
  have hnl := hf.nl_lt
  cases ho : c.op with
  | encrypt =>
    rw [jobXform_encrypt ho]
    exact xform_lengths hk hf.chain_len h1 (fun h => h2 ((shape_aligned_mode hsh (.inl ho)).1 h)) (by omega)
  | decrypt =>
    rw [jobXform_decrypt ho]
    exact xform_lengths hk hf.chain_len h1 (fun h => h2 ((shape_aligned_mode hsh (.inr ho)).1 h)) (by omega)
  | pad => rw [jobXform_copy (.inl ho)]; exact ⟨rfl, hf.chain_len⟩
  | unpad => rw [jobXform_copy (.inr ho)]; exact ⟨rfl, hf.chain_len⟩
  | _ => simp [ho, jobShape] at hsh

/-- ECB leaves CHAIN (42_modes.md R212, R213). -/
theorem jobXform_ecb {p : Params} {c : Ctx} {x : Bytes} (hm : c.mode = .ecb) : (jobXform p c x).2 = c.chain := by
  unfold jobXform
  split <;> simp [hm, xform, xformEcb]

/-- CTR steps the counter (42_modes.md R230). -/
theorem jobXform_ctr {p : Params} {c : Ctx} {x : Bytes} (hm : c.mode = .ctr) (ho : c.op = .encrypt ∨ c.op = .decrypt) : (jobXform p c x).2 = nextCounter p c.nl.toNat c.chain := by
  rcases ho with ho | ho
  · rw [jobXform_encrypt ho]; simp [hm, xform, xformCtr]
  · rw [jobXform_decrypt ho]; simp [hm, xform, xformCtr]

/-- The four opcodes that start a job (43_stream_driver.md R274). -/
theorem job_op {op : Opcode} {m : Mode} {sh : JobShape} (h : jobShape op m = some sh) : (op = .encrypt ∨ op = .decrypt) ∨ (op = .pad ∨ op = .unpad) := by
  cases op <;> simp [jobShape] at h ⊢

/-- A command completes if its own effect does. -/
theorem onCtx_next {n : Fin 16} {s : State} {k : Ctx → Result} (h : present s n = true → ∃ t, k (s.ctx n) = .next t) : ∃ t, onCtx n s k = .next t := by
  cases hp : present s n with
  | true => rw [onCtx_present hp]; exact h hp
  | false => rw [onCtx_absent hp]; exact ⟨_, rfl⟩

end Sys2Proof.Machine
end

