-- ==== Sys2Proof/Laws/PerInstr.lean ====
section
/-! SUPPORT. Families of statements about every command as syntax, one lemma a constructor. -/

namespace Sys2Proof.Laws

/-- The fields of a command's word (30_encoding.md R121, R124): bit 7 and bits 31 to 12 are 0, OPC is at most 7, MODE is 0
unless OPC is 1, and CTX is the command's context. -/
def EncodedFields.Statement (i : Instr) : Prop :=
  reservedZero (encode i) = true ∧ opcField (encode i) ≤ 7 ∧
  (opcField (encode i) ≠ 1 → modeField (encode i) = 0) ∧
  (∀ n, i.ctx? = some n → ctxField (encode i) = n)

/-- One check of a constructor's sixteen context numbers. -/
theorem EncodedFields.of_all {f : Fin 16 → Instr}
    (h : ∀ n : Fin 16, reservedZero (encode (f n)) = true ∧ opcField (encode (f n)) ≤ 7 ∧
      (opcField (encode (f n)) ≠ 1 → modeField (encode (f n)) = 0) ∧ (f n).ctx? = some n ∧ ctxField (encode (f n)) = n)
    (n : Fin 16) : EncodedFields.Statement (f n) := by
  obtain ⟨h1, h2, h3, h4, h5⟩ := h n
  refine ⟨h1, h2, h3, fun m hm => ?_⟩
  rw [h4] at hm
  exact h5.trans (Option.some.inj hm)

theorem EncodedFields.nop : EncodedFields.Statement .nop :=
  ⟨by decide, by decide, by decide, fun _ h => nomatch h⟩

theorem EncodedFields.initEcb (n : Fin 16) : EncodedFields.Statement (.initEcb n) := EncodedFields.of_all (by decide) n

theorem EncodedFields.initCbc (n : Fin 16) : EncodedFields.Statement (.initCbc n) := EncodedFields.of_all (by decide) n

theorem EncodedFields.initCfb (n : Fin 16) : EncodedFields.Statement (.initCfb n) := EncodedFields.of_all (by decide) n

theorem EncodedFields.initOfb (n : Fin 16) : EncodedFields.Statement (.initOfb n) := EncodedFields.of_all (by decide) n

theorem EncodedFields.initCtr (n : Fin 16) : EncodedFields.Statement (.initCtr n) := EncodedFields.of_all (by decide) n

theorem EncodedFields.encrypt (n : Fin 16) : EncodedFields.Statement (.encrypt n) := EncodedFields.of_all (by decide) n

theorem EncodedFields.decrypt (n : Fin 16) : EncodedFields.Statement (.decrypt n) := EncodedFields.of_all (by decide) n

theorem EncodedFields.discard (n : Fin 16) : EncodedFields.Statement (.discard n) := EncodedFields.of_all (by decide) n

theorem EncodedFields.abort (n : Fin 16) : EncodedFields.Statement (.abort n) := EncodedFields.of_all (by decide) n

theorem EncodedFields.pad (n : Fin 16) : EncodedFields.Statement (.pad n) := EncodedFields.of_all (by decide) n

theorem EncodedFields.unpad (n : Fin 16) : EncodedFields.Statement (.unpad n) := EncodedFields.of_all (by decide) n

end Sys2Proof.Laws
end

