-- ==== Sys2Proof/Machine/Platform.lean ====
section
/-! DEFINITION. The two parameters the spec leaves to the platform, as arguments: BASE, where the window lies
(20_memory.md R95), and IRQ_ROUTE, which line `irq` drives (60_exceptions.md R351). No rule of the block depends on them
(log 13). -/

namespace Sys2Proof.Machine

/-- The window offset a platform address stands for, if it lies in the window at `base` (20_memory.md R81, R95). -/
def windowOffset (base address : Nat) : Option (BitVec 16) :=
  if base ≤ address ∧ address < base + 0x10000 then some (BitVec.ofNat 16 (address - base)) else none

/-- A platform read: outside the window it does not reach the block. -/
def platformRead (base address : Nat) (s : State) : Result :=
  match windowOffset base address with
  | some offset => hostRead offset s
  | none => .next s

/-- A platform write: outside the window it does not reach the block. -/
def platformWrite (base address : Nat) (v : Word) (s : State) : Result :=
  match windowOffset base address with
  | some offset => hostWrite offset v s
  | none => .next s

/-- The level the block drives on a platform interrupt line: `irq` on line `route`, nothing on any other. -/
def platformLine (route line : Nat) (s : State) : Bool := line == route && s.irq

end Sys2Proof.Machine
end

