-- ==== Sys2Proof/Tests/Slice0.lean ====
section
/-! SUPPORT. Tests against the vectors of 95_test_vectors.md, one step each, and a witness for the hypotheses of every
statement that has some. -/

namespace Sys2Proof.Tests

open Sys2Proof.Machine

/-! ### Well-formed commands and instances -/

/-- The parameters of the test vectors (95_test_vectors.md). -/
def p8 : Params := { b := 8, keyBytes := 8, nctx := 4, msgmemBytes := 4096, nlanes := 1, prim := .xorprim }

theorem test_wf_context_in_range : (Instr.encrypt 3).wf p8 = true := by decide
theorem test_wf_context_out_of_range : (Instr.encrypt 4).wf p8 = false := by decide
theorem test_wf_nop : Instr.nop.wf p8 = true := by decide
theorem test_legal_defaults : Params.default.legal = true := by decide
theorem test_legal_p8 : p8.legal = true := by decide
theorem test_illegal_b : ({ Params.default with b := 12 } : Params).legal = false := by decide
theorem test_illegal_keyBytes : ({ Params.default with keyBytes := 33 } : Params).legal = false := by decide
theorem test_illegal_nctx : ({ Params.default with nctx := 0 } : Params).legal = false := by decide
theorem test_illegal_msgmemBytes : ({ Params.default with msgmemBytes := 4098 } : Params).legal = false := by decide
theorem test_illegal_nlanes : ({ Params.default with nlanes := 16 } : Params).legal = false := by decide
theorem test_illegal_xorprim : ({ p8 with keyBytes := 16 } : Params).legal = false := by decide

/-! ### Byte strings (00_scope.md R10, R11) -/

theorem test_xor_bytewise : xorBytes [0x0F, 0xF0, 0xAA] [0xFF, 0xFF] = [0xF0, 0x0F] := by decide

theorem test_be_first_byte_most_significant : be [0x01, 0x00, 0x02] = 65538 ∧ beBytes 3 65538 = [0x01, 0x00, 0x02] := by decide

/-! ### Decoding: words written out field by field, `bits[31:12] ++ CTX ++ bit 7 ++ MODE ++ OPC` (30_encoding.md R121) -/

theorem test_decode_nop : decode (0#20 ++ 0#4 ++ 0#1 ++ 0#3 ++ 0#4 : Word) = .ok .nop := by decide
theorem test_decode_nop_hint : decode (0xFFFFF#20 ++ 0xF#4 ++ 1#1 ++ 7#3 ++ 0#4 : Word) = .ok .nop := by decide
theorem test_decode_initEcb : decode (0#20 ++ 3#4 ++ 0#1 ++ 0#3 ++ 1#4 : Word) = .ok (.initEcb 3) := by decide
theorem test_decode_initCbc : decode (0#20 ++ 1#4 ++ 0#1 ++ 1#3 ++ 1#4 : Word) = .ok (.initCbc 1) := by decide
theorem test_decode_initCfb : decode (0#20 ++ 0#4 ++ 0#1 ++ 2#3 ++ 1#4 : Word) = .ok (.initCfb 0) := by decide
theorem test_decode_initOfb : decode (0#20 ++ 2#4 ++ 0#1 ++ 3#3 ++ 1#4 : Word) = .ok (.initOfb 2) := by decide
theorem test_decode_initCtr : decode (0#20 ++ 2#4 ++ 0#1 ++ 4#3 ++ 1#4 : Word) = .ok (.initCtr 2) := by decide
theorem test_decode_encrypt : decode (0#20 ++ 2#4 ++ 0#1 ++ 0#3 ++ 2#4 : Word) = .ok (.encrypt 2) := by decide
theorem test_decode_decrypt : decode (0#20 ++ 1#4 ++ 0#1 ++ 0#3 ++ 3#4 : Word) = .ok (.decrypt 1) := by decide
theorem test_decode_discard : decode (0#20 ++ 1#4 ++ 0#1 ++ 0#3 ++ 4#4 : Word) = .ok (.discard 1) := by decide
theorem test_decode_abort : decode (0#20 ++ 0#4 ++ 0#1 ++ 0#3 ++ 5#4 : Word) = .ok (.abort 0) := by decide
theorem test_decode_pad : decode (0#20 ++ 3#4 ++ 0#1 ++ 0#3 ++ 6#4 : Word) = .ok (.pad 3) := by decide
theorem test_decode_unpad : decode (0#20 ++ 15#4 ++ 0#1 ++ 0#3 ++ 7#4 : Word) = .ok (.unpad 15) := by decide
theorem test_decode_reserved_opcode :
    decode 0x00000008#32 = .error .reservedOpcode ∧ decode 0x0000000F#32 = .error .reservedOpcode := by decide
theorem test_decode_reserved_bits :
    decode 0x00000081#32 = .error .reservedBits ∧ decode 0x00001001#32 = .error .reservedBits ∧
    decode 0x80000003#32 = .error .reservedBits := by decide
theorem test_decode_reserved_mode :
    decode 0x00000051#32 = .error .reservedMode ∧ decode 0x00000012#32 = .error .reservedMode := by decide
theorem test_table_word : decodeTableWord 32 0x00000241 = some (.initCtr 2) := by decide

/-! ### Small states -/

/-- A field of the next state, if there is one. -/
def seen {α : Type} (r : Result) (f : State → α) : Option α :=
  match r with
  | .next t => some (f t)
  | .fault _ => none
  | .refused _ => none

/-- A result whose next state shows something is a next state. -/
theorem next_of_seen {α : Type} {r : Result} {f : State → α} {v : α} (h : seen r f = some v) : ∃ t, r = .next t := by
  cases r with
  | next t => exact ⟨t, rfl⟩
  | fault _ => cases h
  | refused _ => cases h

/-- A key staging string of eight bytes `0F`. -/
def keyWords : Vector Word 8 := #v[0x0F0F0F0F, 0x0F0F0F0F, 0, 0, 0, 0, 0, 0]

/-- A state of the test instance: contexts 0 and 1, MSGMEM, the agenda. -/
def st (c d : Ctx) (m : Memory) (a : List Event) : State :=
  { State.resetFor p8 with
    ctxs := ((Vector.replicate 16 (Ctx.reset p8)).set 0 c).set 1 d, mem := m, agenda := a, key := keyWords }

/-- `K` of the vectors. -/
def k8 : Bytes := rep 0x0F#8 8

/-- `IV` of the vectors. -/
def iv8 : Bytes := [1, 2, 3, 4, 5, 6, 7, 8]

/-- The first eight bytes of `P16` of the vectors. -/
def block0 : Bytes := [0x00, 0x11, 0x22, 0x33, 0x44, 0x55, 0x66, 0x77]

/-- Its encryption under CBC, CFB and OFB with that key and IV. -/
def cipher0 : Bytes := [0x0E, 0x1C, 0x2E, 0x38, 0x4E, 0x5C, 0x6E, 0x70]

/-- MSGMEM with a string at offset `a`. -/
def memAt (a : Nat) (x : Bytes) : Memory := Memory.write [] a x

/-- An EMPTY context. -/
def idle : Ctx := Ctx.reset p8

/-- A READY context in a mode. -/
def ready (mode : Mode) (chain : Bytes) (nl : BitVec 5) : Ctx :=
  { Ctx.reset p8 with state := .ready, mode := mode, k := k8, chain := chain, nl := nl, lastop := .init }

/-- A BUSY context: a job from `src` to `dst`, `blk` blocks done. -/
def running (c : Ctx) (op : Opcode) (src dst len nblk maxout blk : Nat) : Ctx :=
  { c with state := .busy, op := op, lastop := op, jsrc := src, jdst := dst, jlen := len, nblk := nblk,
           maxout := maxout, blk := blk }

/-- A host write of a command word. -/
def command (w : Word) : Event := .host (.write 0x0030#16 w)

/-- A state with the job registers staged. -/
def stage (s : State) (src dst len : Word) : State := { s with src := src, dst := dst, len := len }

/-- A state with CFG staged. -/
def configure (s : State) (keylen : BitVec 6) (ivlen noncelen : BitVec 5) : State :=
  { s with cfg := { keylen := keylen, ivlen := ivlen, noncelen := noncelen }
           iv := #v[0x04030201, 0x08070605, 0, 0] }

theorem ctx_st (c d : Ctx) (m : Memory) (a : List Event) (n : Fin 16) :
    (st c d m a).ctx n = if n = 1 then d else if n = 0 then c else Ctx.reset p8 := by
  have h : ∀ i : Fin 16, (((Vector.replicate 16 (Ctx.reset p8)).set 0 c).set 1 d)[i.val] =
      if i.val = 1 then d else if i.val = 0 then c else Ctx.reset p8 := by
    intro i
    rw [Vector.getElem_set, Vector.getElem_set]
    by_cases h1 : i.val = 1
    · rw [if_pos h1.symm, if_pos h1]
    · rw [if_neg (fun e => h1 e.symm), if_neg h1]
      by_cases h0 : i.val = 0
      · rw [if_pos h0.symm, if_pos h0]
      · rw [if_neg (fun e => h0 e.symm), if_neg h0, Vector.getElem_replicate]
  have e := h n
  simp only [Fin.ext_iff]
  exact e

/-- A context that is not BUSY has no job to be well formed. -/
theorem fields_of_idle {p : Params} {c : Ctx} (hb : c.state ≠ .busy)
    (h : c.k.length = p.keyBytes ∧ c.chain.length = p.b ∧ c.nl.toNat < p.b ∧ (c.mode ≠ .ctr → c.nl = 0#5) ∧
      (c.mode = .ecb → c.chain = zeros p.b) ∧ c.err.ofContext ∧ (c.err ≠ .none → c.outlen = 0#32) ∧
      (c.state = .empty → c.noModeState p) ∧
      (c.state = .ready → c.err = .none ∧ c.outlen = 0#32 ∧ c.lastop = .init)) : CtxFields p c := by
  obtain ⟨h1, h2, h3, h4, h5, h6, h7, h8, h9⟩ := h
  exact ⟨h1, h2, h3, h4, h5, h6, h7, h8, h9, fun e => absurd e hb⟩

/-- A BUSY context with the fields of its job. -/
theorem fields_of_job {p : Params} {c : Ctx} {sh : JobShape} (hs : jobShape c.op c.mode = some sh)
    (h : c.k.length = p.keyBytes ∧ c.chain.length = p.b ∧ c.nl.toNat < p.b ∧ (c.mode ≠ .ctr → c.nl = 0#5) ∧
      (c.mode = .ecb → c.chain = zeros p.b) ∧ c.err.ofContext ∧ (c.err ≠ .none → c.outlen = 0#32) ∧
      (c.state = .empty → c.noModeState p) ∧
      (c.state = .ready → c.err = .none ∧ c.outlen = 0#32 ∧ c.lastop = .init))
    (hj : JobFields p c sh) : CtxFields p c := by
  obtain ⟨h1, h2, h3, h4, h5, h6, h7, h8, h9⟩ := h
  exact ⟨h1, h2, h3, h4, h5, h6, h7, h8, h9, fun _ => ⟨sh, hs, hj⟩⟩

/-- A small state is well formed if its two contexts are and their jobs keep apart. -/
theorem good_of {s : State} {c d : Ctx} {m : Memory} {a : List Event}
    (h : s.inst = p8 ∧ s.gstatus = (st c d m a).gstatus ∧ s.irqStatus = 0#32 ∧ s.irqEnable = 0#32 ∧
      s.ctxs = (st c d m a).ctxs ∧ s.mem = m)
    (hm : m.wf ∧ m.below 4096) (hc : CtxFields p8 c) (hd : CtxFields p8 d)
    (ha : c.state = .busy → d.state = .busy → JobsApart c d ∧ JobsApart d c) : s.Good := by
  obtain ⟨h1, h2, h3, h4, h5, h6⟩ := h
  have hx : ∀ n, s.ctx n = if n = 1 then d else if n = 0 then c else Ctx.reset p8 := fun n => by
    rw [← ctx_st c d m a n]; simp [State.ctx, h5]
  have hr : CtxFields p8 (Ctx.reset p8) := ctxFields_reset (by decide)
  refine ⟨by rw [h1]; decide, by rw [h6]; exact hm.1, by rw [h6, h1]; exact hm.2, by rw [h3]; simp, by rw [h4]; simp,
    by rw [h2]; exact .inl rfl, by rw [h2]; exact fun _ => ⟨rfl, rfl⟩, fun n hn => ?_, fun n _ => ?_, fun i j hij hi hj => ?_⟩
  · have h4 : ¬ n.val < 4 := by
      intro h
      have : present s n = true := by rw [present, h1]; exact decide_eq_true h
      rw [hn] at this; cases this
    rw [hx, if_neg (by rintro rfl; exact h4 (by decide)), if_neg (by rintro rfl; exact h4 (by decide)), h1]
  · rw [hx, h1]
    split
    · exact hd
    · split
      · exact hc
      · exact hr
  · have bi := ((busy_iff ..).1 hi).2
    have bj := ((busy_iff ..).1 hj).2
    rw [hx] at bi bj ⊢
    rw [hx]
    have small : ∀ k : Fin 16, (if k = 1 then d else if k = 0 then c else Ctx.reset p8).state = .busy → k = 1 ∨ k = 0 := by
      intro k hk
      by_contra hc
      rw [not_or] at hc
      rw [if_neg hc.1, if_neg hc.2] at hk
      cases hk
    rcases small i bi with rfl | rfl <;> rcases small j bj with rfl | rfl
    · exact absurd rfl hij
    · exact (ha bj bi).2
    · exact (ha bi bj).1
    · exact absurd rfl hij

/-! ### Jobs -/

/-- A CBC ENCRYPT of the block at 0 to 64, at a block index. -/
def cbcJob (blk : Nat) (chain : Bytes) : Ctx := running (ready .cbc chain 0#5) .encrypt 0 64 8 2 16 blk

/-- The second block of that job's output: `E(K, xor(rep(8, 8), cipher0))`. -/
def cipher1 : Bytes := [0x09, 0x1B, 0x29, 0x3F, 0x49, 0x5B, 0x69, 0x77]

/-- A CTR ENCRYPT of nine bytes in place at 0, its last counter value the last there is. -/
def ctrJob (blk : Nat) (chain : Bytes) : Ctx := running (ready .ctr chain 4#5) .encrypt 0 0 9 2 9 blk

/-- A counter block of the vectors. -/
def counterBlock (last : Byte) : Bytes := [0xA0, 0xA1, 0xA2, 0xA3, 0xFF, 0xFF, 0xFF, last]

/-- A CBC DECRYPT in place of the block at 0. -/
def cbcUnjob (blk : Nat) (chain : Bytes) : Ctx := running (ready .cbc chain 0#5) .decrypt 0 0 8 1 8 blk

/-- A PAD of five bytes at 128 to 192. -/
def padJob (blk : Nat) : Ctx := running idle .pad 128 192 5 1 8 blk

/-- An UNPAD of eight bytes at 128 to 192. -/
def unpadJob (blk : Nat) : Ctx := running idle .unpad 128 192 8 1 8 blk

theorem idle_fields : CtxFields p8 idle := ctxFields_reset (by decide)

theorem ready_fields : CtxFields p8 (ready .cbc iv8 0#5) := fields_of_idle (by decide) (by decide)

theorem cbcJob_fields : CtxFields p8 (cbcJob 0 iv8) :=
  fields_of_job (sh := .padded) rfl (by decide) (by constructor <;> decide)

theorem cbcJob_end_fields : CtxFields p8 (cbcJob 2 cipher1) :=
  fields_of_job (sh := .padded) rfl (by decide) (by constructor <;> decide)

theorem ctrJob_fields : CtxFields p8 (ctrJob 0 (counterBlock 0xFE#8)) :=
  fields_of_job (sh := .stream) rfl (by decide) (by constructor <;> decide)

theorem cbcUnjob_fields : CtxFields p8 (cbcUnjob 0 iv8) :=
  fields_of_job (sh := .aligned) rfl (by decide) (by constructor <;> decide)

theorem cbcUnjob_end_fields : CtxFields p8 (cbcUnjob 1 cipher0) :=
  fields_of_job (sh := .aligned) rfl (by decide) (by constructor <;> decide)

theorem padJob_fields : CtxFields p8 (padJob 0) :=
  fields_of_job (sh := .padded) rfl (by decide) (by constructor <;> decide)

theorem padJob_end_fields : CtxFields p8 (padJob 1) :=
  fields_of_job (sh := .padded) rfl (by decide) (by constructor <;> decide)

theorem unpadJob_fields (i : Fin 2) : CtxFields p8 (unpadJob i.val) :=
  fields_of_job (sh := .stream) rfl (by revert i; decide) (by constructor <;> (revert i; decide))

/-- Two jobs at once, on contexts 0 and 1. -/
def twoJobs (a : List Event) : State := st (cbcJob 0 iv8) (padJob 0) (memAt 0 block0) a

theorem twoJobs_good (a : List Event) : (twoJobs a).Good :=
  good_of (a := a) ⟨rfl, rfl, rfl, rfl, rfl, rfl⟩ ⟨by decide, by decide⟩ cbcJob_fields padJob_fields (by decide)

/-- One job on context 0. -/
def oneJob (c : Ctx) (m : Memory) (a : List Event) : State := st c idle m a

theorem oneJob_good {c : Ctx} {m : Memory} (hc : CtxFields p8 c) (hm : m.wf ∧ m.below 4096) (a : List Event) :
    (oneJob c m a).Good :=
  good_of (a := a) ⟨rfl, rfl, rfl, rfl, rfl, rfl⟩ hm hc idle_fields (fun _ h => by cases h)

/-- No job, context 0 READY in CBC mode. -/
def readyState (a : List Event) : State := stage (st (ready .cbc iv8 0#5) idle [] a) 0#32 64#32 8#32

theorem readyState_good (a : List Event) : (readyState a).Good :=
  good_of (m := []) (a := a) ⟨rfl, rfl, rfl, rfl, rfl, rfl⟩ ⟨by decide, by decide⟩ ready_fields idle_fields (by decide)

/-- No job, all contexts EMPTY. -/
def idleState (a : List Event) : State := stage (st idle idle [] a) 0#32 64#32 8#32

theorem idleState_good (a : List Event) : (idleState a).Good :=
  good_of (m := []) (a := a) ⟨rfl, rfl, rfl, rfl, rfl, rfl⟩ ⟨by decide, by decide⟩ idle_fields idle_fields (by decide)

/-! ### One step each, from the vectors -/

/-- The status word of context 0 after a result. -/
def status0 (r : Result) : Option Word := seen r fun t => (t.ctx 0).statusWord

theorem test_nop_hint : issue 0xFFFFFFF0#32 (readyState []) = .next (readyState []) := rfl

theorem test_initEcb_ignores_iv : status0 (exec (.initEcb 0) (configure (idleState []) 8 0 31)) = some 0x00001001#32 := by
  decide

theorem test_initEcb_key_length : status0 (exec (.initEcb 0) (idleState [])) = some 0x00001100#32 := by decide

theorem test_initCbc_chain :
    seen (exec (.initCbc 0) (configure (idleState []) 8 8 0)) (fun t => ((t.ctx 0).chain, (t.ctx 0).statusWord, t.irqStatus)) =
      some (iv8, 0x00001011#32, 1#32) := by decide

theorem test_initCbc_replaces_mode_state :
    seen (exec (.initCbc 0) (configure (readyState []) 8 7 0)) (fun t => ((t.ctx 0).chain, (t.ctx 0).statusWord)) =
      some (zeros 8, 0x00001200#32) := by decide

theorem test_initCfb_key_first : status0 (exec (.initCfb 0) (configure (idleState []) 16 7 0)) = some 0x00001100#32 := by
  decide

theorem test_initOfb_key :
    seen (exec (.initOfb 0) (configure (idleState []) 8 8 0)) (fun t => ((t.ctx 0).k, (t.ctx 0).statusWord)) =
      some (k8, 0x00001031#32) := by decide

theorem test_initCtr_chain :
    seen (exec (.initCtr 0) { configure (idleState []) 8 4 4 with iv := #v[0xA3A2A1A0, 0, 0, 0],
                                                                   ctrinit := #v[0xFFFFFFFE, 0, 0, 0] })
      (fun t => ((t.ctx 0).chain, (t.ctx 0).nl)) = some (counterBlock 0xFE#8, 4#5) := by decide

theorem test_initCtr_wide_counter :
    status0 (exec (.initCtr 0) { configure (idleState []) 8 4 4 with ctrinit := #v[0, 1, 0, 0] }) = some 0x00001200#32 := by
  decide

theorem test_encrypt_in_place :
    seen (exec (.encrypt 0) (stage (readyState []) 0 0 32)) (fun t => ((t.ctx 0).nblk, (t.ctx 0).maxout)) = some (5, 40) := by
  decide

theorem test_encrypt_partial_overlap :
    seen (exec (.encrypt 0) (stage (readyState []) 0 8 32)) (fun t => (t.gstatus.word, (t.ctx 0).statusWord)) =
      some (0x00010008#32, 0x00001011#32) := by decide

theorem test_decrypt_empty : status0 (exec (.decrypt 0) (stage (readyState []) 0 0 0)) = some 0x00003313#32 := by decide

theorem test_decrypt_in_place : status0 (exec (.decrypt 0) (stage (readyState []) 0 0 16)) = some 0x00003012#32 := by decide

theorem test_discard_ready :
    seen (exec (.discard 0) (readyState [])) (fun t => ((t.ctx 0).statusWord, (t.ctx 0).k, t.irqStatus)) =
      some (0x00004000#32, zeros 8, 1#32) := by decide

theorem test_discard_busy :
    seen (exec (.discard 0) (twoJobs [])) (fun t => (t.gstatus.word, (t.ctx 0).statusWord)) =
      some (0x00010007#32, 0x00002012#32) := by decide

theorem test_abort_encrypt :
    seen (exec (.abort 0) (oneJob (cbcJob 1 cipher0) (memAt 64 cipher0) [])) (fun t => ((t.ctx 0).statusWord, t.mem)) =
      some (0x00005913#32, []) := by decide

theorem test_abort_pad : seen (exec (.abort 1) (twoJobs [])) (fun t => (t.ctx 1).statusWord) = some 0x00005900#32 := by decide

theorem test_pad_accepted :
    seen (exec (.pad 0) (stage (idleState []) 0 0 0)) (fun t => ((t.ctx 0).statusWord, (t.ctx 0).nblk, (t.ctx 0).maxout)) =
      some (0x00006002#32, 1, 8) := by decide

theorem test_pad_on_ready : seen (exec (.pad 0) (readyState [])) (fun t => t.gstatus.word) = some 0x00010007#32 := by decide

theorem test_unpad_accepted :
    seen (exec (.unpad 0) (stage (idleState []) 0 64 9)) (fun t => ((t.ctx 0).statusWord, (t.ctx 0).nblk, (t.ctx 0).maxout)) =
      some (0x00007002#32, 2, 9) := by decide

/-! ### Engine steps, from the vectors -/

theorem test_block_cbc_encrypt :
    seen (engineTurn 0 (oneJob (cbcJob 0 iv8) (memAt 0 block0) [])) (fun t => (t.mem.read 64 8, (t.ctx 0).chain, (t.ctx 0).blk)) =
      some (cipher0, cipher0, 1) := by decide

theorem test_block_cbc_decrypt_in_place :
    seen (engineTurn 0 (oneJob (cbcUnjob 0 iv8) (memAt 0 cipher0) [])) (fun t => (t.mem.read 0 8, (t.ctx 0).chain)) =
      some (block0, cipher0) := by decide

theorem test_block_ctr :
    seen (engineTurn 0 (oneJob (ctrJob 0 (counterBlock 0xFE#8)) (memAt 0 block0) []))
      (fun t => (t.mem.read 0 8, (t.ctx 0).chain)) =
      some ([0xAF, 0xBF, 0x8F, 0x9F, 0xB4, 0xA5, 0x96, 0x86], counterBlock 0xFF#8) := by decide

theorem test_transform_cfb_short :
    xform p8 .cfb .enc 0 k8 cipher0 [0x88, 0x99, 0xAA] = ([0x89, 0x8A, 0x8B], cipher0) := by decide

theorem test_transform_ofb :
    xform p8 .ofb .dec 0 k8 iv8 cipher0 = (block0, [0x0E, 0x0D, 0x0C, 0x0B, 0x0A, 0x09, 0x08, 0x07]) := by decide

theorem test_transform_ecb : xform p8 .ecb .enc 0 k8 (zeros 8) block0 =
    ([0x0F, 0x1E, 0x2D, 0x3C, 0x4B, 0x5A, 0x69, 0x78], zeros 8) := by decide

theorem test_copy_last_piece :
    seen (engineTurn 1 (st idle (padJob 0) (memAt 128 [0x41, 0x42, 0x43, 0x44, 0x45]) []))
      (fun t => t.mem.read 192 8) = some [0x41, 0x42, 0x43, 0x44, 0x45, 3, 3, 3] := by decide

theorem test_unpad_valid :
    seen (engineTurn 0 (oneJob (unpadJob 1) (memAt 192 [0x61, 0x62, 0x63, 0x64, 0x65, 1, 2, 2]) []))
      (fun t => (t.mem.read 192 8, (t.ctx 0).outlen, (t.ctx 0).statusWord)) =
      some ([0x61, 0x62, 0x63, 0x64, 0x65, 1, 0, 0], 6#32, 0x00007000#32) := by decide

theorem test_unpad_invalid :
    seen (engineTurn 0 (oneJob (unpadJob 1) (memAt 192 [0x61, 0x62, 0x63, 0x64, 0x65, 0x66, 0x67, 9]) []))
      (fun t => (t.mem, (t.ctx 0).outlen, (t.ctx 0).statusWord)) = some ([], 0#32, 0x00007400#32) := by decide

theorem test_padLen_every_byte : padLen 8 [1, 2, 3, 3, 2, 3] = none ∧ padLen 8 [2, 2] = some 2 ∧ padLen 8 [5, 5] = none ∧
    padLen 8 [] = none ∧ padLen 8 (rep 8#8 8) = some 8 := by decide

/-! ### The window, from the vectors -/

/-- What a read returns. -/
def readBack (r : Result) : Option BusResponse := (seen r fun t => t.resp).join

theorem test_read_params :
    readBack (hostRead 0x0004#16 (idleState [])) = some ⟨false, some 0x01040808#32⟩ ∧
    readBack (hostRead 0x0008#16 (idleState [])) = some ⟨false, some 0x00001000#32⟩ := by decide

theorem test_cfg_reserved_bits :
    seen (hostWrite 0x0020#16 0xFFFFFFFF#32 (idleState [])) (fun t => t.cfg.word) = some 0x001F1F3F#32 := by decide

theorem test_cfg_fields :
    seen (hostWrite 0x0020#16 0x00070605#32 (idleState [])) (fun t => t.cfg) = some ⟨5#6, 6#5, 7#5⟩ := by decide

theorem test_job_registers_by_offset :
    seen (hostWrite 0x0024#16 9#32 (idleState [])) (fun t => (t.src, t.dst, t.len)) = some (9#32, 64#32, 8#32) ∧
    seen (hostWrite 0x0028#16 9#32 (idleState [])) (fun t => (t.src, t.dst, t.len)) = some (0#32, 9#32, 8#32) ∧
    seen (hostWrite 0x002C#16 9#32 (idleState [])) (fun t => (t.src, t.dst, t.len)) = some (0#32, 64#32, 9#32) := by decide

theorem test_irq_enable_mask :
    seen (hostWrite 0x0018#16 0xFFFFFFFF#32 (idleState [])) (fun t => t.irqEnable) = some 0x8000000F#32 := by decide

theorem test_misaligned_read :
    seen (hostRead 0x8001#16 (idleState [])) (fun t => (t.gstatus.word, t.resp)) =
      some (0x00020000#32, some ⟨true, some 0#32⟩) := by decide

theorem test_gated_read : readBack (hostRead 0x8040#16 (oneJob (cbcJob 1 cipher0) (memAt 64 cipher0) [])) =
    some ⟨false, some 0#32⟩ := by decide

theorem test_malformed_write_rejected :
    seen (step (idleState [command 0x00000208#32])) (fun t => (t.gstatus.word, t.irqStatus, t.resp)) =
      some (0x00010206#32, 0x80000000#32, some ⟨false, none⟩) := by decide

theorem test_locked_write :
    seen (hostWrite 0x8040#16 5#32 (oneJob (cbcJob 1 cipher0) (memAt 64 cipher0) []))
      (fun t => (t.gstatus.word, t.mem == memAt 64 cipher0)) = some (0x00040000#32, true) := by decide

theorem test_platform_window : windowOffset 0x40000000 0x40000030 = some 0x0030#16 ∧ windowOffset 0x40000000 0x40010000 = none := by
  decide

theorem test_platform_line : platformLine 5 5 (idleState []) = false := by decide

theorem test_first_command_after_reset :
    seen (step (State.reset.withFetchWord 32 0x00000001)) (fun t => ((t.ctx 0).statusWord, t.irqStatus, t.agenda)) =
      some (0x00001100#32, 1#32, []) := by decide

/-! ### Witnesses: states and operands that meet a statement's hypotheses, clause by clause -/

theorem witness_DecodeInvertsEncode : decode 0x00000F07#32 = .ok (.unpad 15) ∧ Instr.unpad 15 ≠ .nop := by decide

/-- The last context there is, and the first there is not. -/
theorem witness_MalformedWordIsRejected :
    (0x00000302#32 : Word).extractLsb' 0 4 ≠ 0#4 ∧ wellFormedWord p8 0x00000302#32 ∧
    (0x00000402#32 : Word).extractLsb' 0 4 ≠ 0#4 ∧ ¬ wellFormedWord p8 0x00000402#32 ∧
    wellFormedWord p8 0x00000041#32 ∧ ¬ wellFormedWord p8 0x00000051#32 ∧ ¬ wellFormedWord p8 0x00000012#32 := by decide

/-- A command's word, and three that stand for no command: the first reserved opcode, a reserved bit, a reserved mode. -/
theorem witness_StepIssuesTheDecodedCommand :
    (((idleState []).withFetchWord 32 0x00000306).agenda = .host (.write 0x0030#16 0x00000306#32) :: [] ∧
      decode 0x00000306#32 = .ok (.pad 3)) ∧
    ((idleState [command 0x00000008#32]).agenda = .host (.write 0x0030#16 0x00000008#32) :: [] ∧
      (decode 0x00000008#32).toOption = none) ∧
    (decode 0x00000081#32).toOption = none ∧ (decode 0x00000051#32).toOption = none := by decide

theorem witness_StepRunsTheNextEvent :
    (idleState [.host (.read 0x0010#16)]).agenda = .host (.read 0x0010#16) :: [] ∧
    (idleState [.host (.write 0x0014#16 1#32)]).agenda = .host (.write 0x0014#16 1#32) :: [] ∧
    (idleState [.engine 3]).agenda = .engine 3 :: [] ∧
    (twoJobs [.rst, .engine 1]).agenda = .rst :: [.engine 1] ∧ ((idleState []).agenda = [] ∧ ∀ n, busy (idleState []) n = false) ∧
    (twoJobs []).agenda = [] ∧ busy (twoJobs []) 1 = true := by decide

theorem witness_NopChangesNothing : (0xFFFFFFF0#32 : Word).extractLsb' 0 4 = 0#4 := by decide

/-- A state whose staging registers suit an INIT. -/
def initState (keylen : BitVec 6) (ivlen noncelen : BitVec 5) (c0 : Vector Word 4) : State :=
  { configure (idleState []) keylen ivlen noncelen with ctrinit := c0 }

/-- ECB, CBC, and CTR with the widest nonce and the greatest counter. -/
theorem witness_InitMakesContextReady :
    (isInit (.initEcb 3) .ecb 3 ∧ (3 : Fin 16).val < (idleState []).inst.nctx) ∧
    ((idleState []).ctx 3).state ≠ .busy ∧ (initState 8 0 31 #v[0, 0, 0, 0]).cfg.keylen.toNat = p8.keyBytes ∧
    (isInit (.initCbc 0) .cbc 0 ∧ (initState 8 8 0 #v[0, 0, 0, 0]).cfg.ivlen.toNat = p8.b) ∧
    (let s := initState 8 7 7 #v[255, 0, 0, 0]
     isInit (.initCtr 0) .ctr 0 ∧ s.cfg.keylen.toNat = p8.keyBytes ∧ s.cfg.noncelen.toNat < p8.b ∧
     s.cfg.ivlen = s.cfg.noncelen ∧ startCounter s < 256 ^ (p8.b - s.cfg.noncelen.toNat)) := by decide

/-- A wrong key length; an IV length 7; and in CTR a nonce of B bytes, an IV length that is not the nonce's, a counter one too
great. -/
theorem witness_InitFailureEmptiesContext :
    (initState 16 7 0 #v[0, 0, 0, 0]).cfg.keylen.toNat ≠ p8.keyBytes ∧
    (let s := initState 8 7 0 #v[0, 0, 0, 0]
     isInit (.initCfb 0) .cfb 0 ∧ s.cfg.keylen.toNat = p8.keyBytes ∧ s.cfg.ivlen.toNat ≠ p8.b) ∧
    p8.b ≤ (initState 8 8 8 #v[0, 0, 0, 0]).cfg.noncelen.toNat ∧
    (initState 8 3 4 #v[0, 0, 0, 0]).cfg.ivlen ≠ (initState 8 3 4 #v[0, 0, 0, 0]).cfg.noncelen ∧
    256 ^ (p8.b - (initState 8 7 7 #v[256, 0, 0, 0]).cfg.noncelen.toNat) ≤ startCounter (initState 8 7 7 #v[256, 0, 0, 0]) := by
  decide

/-- A READY context, staged. -/
def readyFor (c : Ctx) (src dst len : Word) : State := stage (st c idle [] []) src dst len

/-- The greatest source and destination of V-RNG-4 and V-RNG-6, and a CTR job up to the last counter value. -/
theorem witness_EncryptStartsJob :
    (let s := readyFor (ready .cbc iv8 0#5) 4064 0 32
     (s.ctx 0).state = .ready ∧ 0 < s.inst.nctx ∧ rangeOk 0 s.src.toNat s.len.toNat s.dst.toNat 40 s = true) ∧
    (let s := readyFor (ready .cbc iv8 0#5) 0 4056 32
     rangeOk 0 s.src.toNat s.len.toNat s.dst.toNat 40 s = true) ∧
    (let s := readyFor (ready .ctr (counterBlock 0xFE#8) 4#5) 0 0 9
     (s.ctx 0).mode = .ctr ∧ rangeOk 0 s.src.toNat s.len.toNat s.dst.toNat 9 s = true ∧
     be ((s.ctx 0).chain.drop (s.ctx 0).nl.toNat) + 2 - 1 < 256 ^ (s.inst.b - (s.ctx 0).nl.toNat)) := by decide

theorem witness_DecryptStartsJob :
    (let s := readyFor (ready .cbc iv8 0#5) 4088 4088 8
     (s.ctx 0).state = .ready ∧ 0 < s.len.toNat ∧ s.len.toNat % s.inst.b = 0 ∧
     rangeOk 0 s.src.toNat s.len.toNat s.dst.toNat 8 s = true) ∧
    (let s := readyFor (ready .ofb iv8 0#5) 0 0 0
     (s.ctx 0).state = .ready ∧ (s.ctx 0).mode ≠ .ecb ∧ (s.ctx 0).mode ≠ .cbc ∧
     rangeOk 0 s.src.toNat s.len.toNat s.dst.toNat 0 s = true) := by decide

/-- One block too many for the counter, an empty and a ragged ciphertext. -/
theorem witness_IssueFailureSpendsContext :
    (let s := readyFor (ready .ctr (counterBlock 0xFE#8) 4#5) 0 0 17
     (s.ctx 0).state = .ready ∧ (s.ctx 0).mode = .ctr ∧ rangeOk 0 s.src.toNat s.len.toNat s.dst.toNat 17 s = true ∧
     256 ^ (s.inst.b - (s.ctx 0).nl.toNat) ≤ be ((s.ctx 0).chain.drop (s.ctx 0).nl.toNat) + 3 - 1) ∧
    (let s := readyFor (ready .cbc iv8 0#5) 0 0 0
     (s.ctx 0).mode = .cbc ∧ s.len.toNat = 0 ∧ rangeOk 0 s.src.toNat s.len.toNat s.dst.toNat 0 s = true) ∧
    (let s := readyFor (ready .cbc iv8 0#5) 0 0 12
     s.len.toNat % s.inst.b ≠ 0 ∧ rangeOk 0 s.src.toNat s.len.toNat s.dst.toNat 12 s = true) := by decide

theorem witness_DiscardEmptiesContext : (3 : Fin 16).val < (readyState []).inst.nctx ∧ ((readyState []).ctx 0).state ≠ .busy := by
  decide

theorem witness_AbortZeroesDestination :
    ((twoJobs []).ctx 1).state = .busy ∧ (1 : Fin 16).val < (twoJobs []).inst.nctx ∧
    ((twoJobs []).ctx 1).jdst + ((twoJobs []).ctx 1).maxout ≤ (twoJobs []).inst.msgmemBytes := by decide

/-- A PAD of the longest message there is room for, an UNPAD of an empty one. -/
theorem witness_PadAndUnpadStartJob :
    (let s := readyFor idle 0 0 4088
     (s.ctx 0).state = .empty ∧ rangeOk 0 s.src.toNat s.len.toNat s.dst.toNat ((s.len.toNat / s.inst.b + 1) * s.inst.b) s = true) ∧
    (let s := readyFor idle 4096 4096 0
     rangeOk 0 s.src.toNat s.len.toNat s.dst.toNat s.len.toNat s = true) := by decide

/-- A malformed word, a forbidden state, a range one byte too long, and none of them. -/
theorem witness_RejectionCausesExactly :
    ¬ wellFormedWord p8 0x00000008#32 ∧ (wellFormedWord p8 0x00000002#32 ∧ stateForbids (.encrypt 0) .empty) ∧
    (let s := readyFor (ready .cbc iv8 0#5) 0 4057 32
     ¬ stateForbids (.encrypt 0) (s.ctx 0).state ∧ startedShape (.encrypt 0) (s.ctx 0).mode = some .padded ∧
     rangeOk 0 s.src.toNat s.len.toNat s.dst.toNat (maxoutOf .padded s.inst.b s.len.toNat) s = false) ∧
    (let s := readyFor (ready .cbc iv8 0#5) 0 4056 32
     rangeOk 0 s.src.toNat s.len.toNat s.dst.toNat (maxoutOf .padded s.inst.b s.len.toNat) s = true) := by
  refine ⟨by decide, ⟨by decide, by unfold stateForbids; decide⟩, ⟨by unfold stateForbids; decide, by decide, by decide⟩, by decide⟩

theorem witness_PaddedLengthIsPositiveMultiple : 0 < p8.b := by decide

theorem witness_UnpadInvertsPad : (p8.b = 8 ∨ p8.b = 16) ∧ p8.b < (9#8 : Byte).toNat := by decide

/-- The widest nonce, and the greatest number of two bytes. -/
theorem witness_CounterStepKeepsNonce :
    8 ≤ p8.b ∧ (counterBlock 0xFF#8).length = p8.b ∧ 65535 < 256 ^ 2 := by decide

theorem witness_DecryptedBlockDependsOnTwoCiphertextBlocks :
    p8.legal = true ∧ k8.length = p8.keyBytes ∧ iv8.length = p8.b ∧ (∀ x ∈ [cipher0, cipher1], x.length = p8.b) ∧
    [cipher0, cipher1][0]? = some cipher0 ∧ [cipher0, cipher1][0 + 1]? = some cipher1 := by decide

/-- XORPRIM has the inverse property (40_primitive.md R166). -/
theorem witness_DecryptInvertsEncrypt :
    p8.legal = true ∧ k8.length = p8.keyBytes ∧ iv8.length = p8.b ∧ 7 ≤ p8.b ∧ PrimInv p8 :=
  ⟨by decide, by decide, by decide, by decide, fun k x hk hx =>
    xorBytes_cancel (a := x) (k := k) (by rw [hk, hx]; decide)⟩

theorem witness_SplitterCutsTheMessage :
    (oneJob (cbcJob 0 iv8) (memAt 0 block0) []).Good ∧ busy (oneJob (cbcJob 0 iv8) (memAt 0 block0) []) 0 = true ∧
    jobShape .encrypt .cbc = some .padded ∧ 1 < (cbcJob 0 iv8).nblk :=
  ⟨oneJob_good cbcJob_fields (by decide) [], by decide, by decide, by decide⟩

theorem witness_BlockStepTransformsOneBlock :
    ((twoJobs []).Good ∧ busy (twoJobs []) 0 = true ∧ ((twoJobs []).ctx 0).blk < ((twoJobs []).ctx 0).nblk ∧
      ((twoJobs []).ctx 0).op = .encrypt) ∧
    ((oneJob (cbcUnjob 0 iv8) (memAt 0 cipher0) []).Good ∧ busy (oneJob (cbcUnjob 0 iv8) (memAt 0 cipher0) []) 0 = true ∧
      (cbcUnjob 0 iv8).blk < (cbcUnjob 0 iv8).nblk ∧ (cbcUnjob 0 iv8).op = .decrypt) :=
  ⟨⟨twoJobs_good [], by decide, by decide, by decide⟩, oneJob_good cbcUnjob_fields (by decide) [], by decide, by decide, by decide⟩

theorem witness_CopyStepCopiesOneBlock :
    (twoJobs []).Good ∧ busy (twoJobs []) 1 = true ∧ ((twoJobs []).ctx 1).blk < ((twoJobs []).ctx 1).nblk ∧
    ((twoJobs []).ctx 1).op = .pad := ⟨twoJobs_good [], by decide, by decide, by decide⟩

/-- A CBC ENCRYPT and a PAD with all their blocks done. -/
theorem witness_PlainCompletionReportsLength :
    (let s := st (cbcJob 2 cipher1) (padJob 1) [] []
     (s.ctx 0).state = .busy ∧ (s.ctx 0).blk = (s.ctx 0).nblk ∧ (s.ctx 0).op = .encrypt ∧
     (s.ctx 1).state = .busy ∧ (s.ctx 1).blk = (s.ctx 1).nblk ∧ (s.ctx 1).op = .pad) := by decide

/-- An UNPAD with a valid and one with an INVALID padding, and a CBC DECRYPT. -/
theorem witness_UnpaddingCompletionScrubs :
    (let s := oneJob (unpadJob 1) (memAt 192 [0x61, 0x62, 0x63, 0x64, 0x65, 1, 2, 2]) []
     s.Good ∧ busy s 0 = true ∧ (s.ctx 0).blk = (s.ctx 0).nblk ∧ (s.ctx 0).op = .unpad ∧
     padLen s.inst.b (s.mem.read (s.ctx 0).jdst (s.ctx 0).jlen) = some 2) ∧
    (let s := oneJob (unpadJob 1) [] []
     s.Good ∧ busy s 0 = true ∧ padLen s.inst.b (s.mem.read (s.ctx 0).jdst (s.ctx 0).jlen) = none) ∧
    (let s := oneJob (cbcUnjob 1 cipher0) (memAt 0 block0) []
     s.Good ∧ busy s 0 = true ∧ (s.ctx 0).blk = (s.ctx 0).nblk ∧ (s.ctx 0).op = .decrypt ∧ (s.ctx 0).mode = .cbc) :=
  ⟨⟨oneJob_good (unpadJob_fields 1) (by decide) [], by decide, by decide, by decide, by decide⟩,
   ⟨oneJob_good (unpadJob_fields 1) (by decide) [], by decide, by decide⟩,
   ⟨oneJob_good cbcUnjob_end_fields (by decide) [], by decide, by decide, by decide, by decide⟩⟩

theorem witness_EngineTurnStaysInItsJob :
    busy (twoJobs []) 3 = false ∧ (twoJobs []).Good ∧ ∃ t, engineTurn 1 (twoJobs []) = .next t :=
  ⟨by decide, twoJobs_good [], next_of_seen (f := fun t => (t.ctx 1).blk) (v := 1) (by decide)⟩

/-- A CTR job at its start, whose last counter value is the greatest. -/
theorem witness_CtrJobCountsFromItsStart :
    let s := oneJob (ctrJob 0 (counterBlock 0xFE#8)) (memAt 0 block0) []
    s.Good ∧ JobProgress s 0 (block0 ++ [0]) (counterBlock 0xFE#8) ∧ (s.ctx 0).mode = .ctr ∧ (s.ctx 0).blk < (s.ctx 0).nblk ∧
    counterOf (s.ctx 0).nl.toNat (counterBlock 0xFE#8) + (s.ctx 0).nblk ≤ 256 ^ (s.inst.b - (s.ctx 0).nl.toNat) :=
  ⟨oneJob_good ctrJob_fields (by decide) [], ⟨by decide, by decide, by decide, .stream, rfl, by decide, by decide, by decide⟩,
   by decide, by decide, by decide⟩

theorem witness_MisalignedAccessSetsOnlyBuserr : (0x8001#16).toNat % 4 ≠ 0 := by decide

theorem witness_AlignedReadHasNoSideEffect : (0xFFFC#16).toNat % 4 = 0 := by decide

/-- The first and the last offset of the ranges that the map reserves, where NCTX is 4 and MSGMEM_BYTES 4096. -/
theorem witness_ReservedOffsetsReadZero :
    (idleState []).inst = p8 ∧ p8.nctx = 4 ∧ p8.msgmemBytes = 4096 ∧
    (0x0034#16).toNat = 0x0034 ∧ (0x003C#16).toNat = 0x003C ∧ (0x0080#16).toNat = 0x0080 ∧ (0x00FC#16).toNat = 0x00FC ∧
    (0x0120#16).toNat = 0x0100 + 8 * 4 ∧ (0x7FFC#16).toNat = 0x7FFC ∧ (0x9000#16).toNat = 0x8000 + 4096 ∧
    (0x0120#16).toNat % 4 = 0 ∧ (0x7FFC#16).toNat % 4 = 0 ∧ (0x9000#16).toNat % 4 = 0 :=
  ⟨rfl, rfl, rfl, rfl, rfl, rfl, rfl, rfl, rfl, rfl, rfl, rfl, rfl⟩

theorem witness_IdAndParamsAreConstant : (idleState []).inst.legal = true ∧ ∃ t, step (idleState [.engine 0]) = .next t :=
  ⟨by decide, next_of_seen (f := fun t => t.agenda) (v := []) (by decide)⟩

theorem witness_InterruptRegistersBitByBit : (idleState []).inst.nctx ≤ 16 := by decide

/-- The first and the last offset of both ranges. -/
theorem witness_StagingRegistersReadBack :
    (0x0020#16).toNat = 0x0020 ∧ (0x002C#16).toNat = 0x002C ∧ (0x0060#16).toNat = 0x0060 ∧ (0x007C#16).toNat = 0x007C ∧
    0x0020 % 4 = 0 ∧ 0x002C % 4 = 0 ∧ 0x0060 % 4 = 0 ∧ 0x007C % 4 = 0 := ⟨rfl, rfl, rfl, rfl, rfl, rfl, rfl, rfl⟩

theorem witness_KeyAndCommandRegistersReadZero :
    (0x0030#16).toNat = 0x0030 ∧ (0x0040#16).toNat = 0x0040 ∧ (0x005C#16).toNat = 0x005C ∧
    0x0030 % 4 = 0 ∧ 0x0040 % 4 = 0 ∧ 0x005C % 4 = 0 := ⟨rfl, rfl, rfl, rfl, rfl, rfl⟩

theorem witness_ContextStatusShowsFields : (3 : Fin 16).val < (idleState []).inst.nctx := by decide

/-- The last word of MSGMEM; a word inside a BUSY job's destination. -/
theorem witness_HostReadIsGated :
    (4092 % 4 = 0 ∧ 4092 < (twoJobs []).inst.msgmemBytes ∧ (twoJobs []).inst.msgmemBytes ≤ 32768) ∧
    ((twoJobs []).ctx 1).state = .busy ∧ ((twoJobs []).ctx 1).jdst ≤ 196 + 3 ∧
    196 + 3 < ((twoJobs []).ctx 1).jdst + ((twoJobs []).ctx 1).maxout := by decide

/-- The word of PAD's source whose first byte is held and whose others are not. -/
theorem witness_HostWriteDropsLockedBytes :
    132 % 4 = 0 ∧ 132 < (twoJobs []).inst.msgmemBytes ∧ (twoJobs []).inst.msgmemBytes ≤ 32768 ∧
    locked (twoJobs []) 132 = true ∧ locked (twoJobs []) 133 = false := by decide

/-- Two states apart in the staged key and in a context's key only. -/
theorem witness_ReadsRevealNoHiddenState :
    SameVisible (readyState []) { readyState [] with
      key := Vector.replicate 8 0#32
      ctxs := (readyState []).ctxs.set 0 { ready .cbc iv8 0#5 with k := zeros 8, chain := zeros 8 } } :=
  ⟨rfl, rfl, rfl, rfl, rfl, ⟨rfl, rfl, rfl⟩, rfl, rfl, rfl, by decide⟩

theorem witness_ResetSetsEveryState : (twoJobs [.rst]).agenda = .rst :: [] := rfl

theorem witness_ResetIsGood : p8.legal = true ∧ Params.default.legal = true := by decide

theorem witness_StepKeepsGood : (twoJobs [.engine 0]).Good ∧ ∃ t, step (twoJobs [.engine 0]) = .next t :=
  ⟨twoJobs_good _, next_of_seen (f := fun t => (t.ctx 0).blk) (v := 1) (by decide)⟩

theorem witness_GoodMachineNeverStops : (twoJobs []).Good := twoJobs_good []

/-- One step for each line of the lifecycle table: the context's STATE after it. -/
theorem witness_LifecycleTransitionsExactly :
    (∀ a, (twoJobs a).Good ∧ (readyState a).Good ∧ (idleState a).Good ∧ (oneJob (cbcUnjob 1 cipher0) [] a).Good) ∧
    seen (step (twoJobs [.rst])) (fun t => (t.ctx 0).state) = some .empty ∧
    seen (step (readyState [command 0x00000001#32])) (fun t => (t.ctx 0).state) = some .empty ∧
    seen (step (readyState [command 0x00000002#32])) (fun t => (t.ctx 0).state) = some .busy ∧
    seen (step (idleState [command 0x00000006#32])) (fun t => (t.ctx 0).state) = some .busy ∧
    seen (step (readyState [command 0x00000004#32])) (fun t => (t.ctx 0).state) = some .empty ∧
    seen (step (twoJobs [command 0x00000105#32])) (fun t => (t.ctx 1).state) = some .empty ∧
    seen (step (oneJob (cbcUnjob 1 cipher0) [] [])) (fun t => (t.ctx 0).state) = some .spent :=
  ⟨fun a => ⟨twoJobs_good a, readyState_good a, idleState_good a, oneJob_good cbcUnjob_end_fields (by decide) a⟩,
   by decide, by decide, by decide, by decide, by decide, by decide, by decide⟩

theorem witness_KeyChangesOnlyByInitDiscardReset :
    ((readyState []).ctx 0).k = k8 ∧ seen (step (readyState [command 0x00000004#32])) (fun t => (t.ctx 0).k) = some (zeros 8) := by
  decide

theorem witness_StepSetsAtMostOneCause : ∃ t, step (idleState [command 0x00000008#32]) = .next t :=
  next_of_seen (f := fun t => t.irqStatus) (v := 0x80000000#32) (by decide)

theorem witness_EngineTurnsCommute : (twoJobs []).Good ∧ (0 : Fin 16) ≠ 1 ∧ busy (twoJobs []) 0 = true ∧ busy (twoJobs []) 1 = true :=
  ⟨twoJobs_good [], by decide, by decide, by decide⟩

theorem witness_AbortCompletionRace :
    let s := oneJob (cbcJob 2 cipher1) (memAt 64 (cipher0 ++ cipher1)) []
    s.Good ∧ busy s 0 = true ∧ (s.ctx 0).blk = (s.ctx 0).nblk :=
  ⟨oneJob_good cbcJob_end_fields (by decide) [], by decide, by decide⟩

/-- Two jobs with five steps left; the last number of steps that is too few is four. -/
theorem witness_EngineFinishesEveryJob :
    (twoJobs []).Good ∧ (twoJobs []).agenda = [] ∧ workLeft (twoJobs []) = 5 ∧ 4 < workLeft (twoJobs []) :=
  ⟨twoJobs_good [], rfl, by decide, by decide⟩

theorem witness_StartedJobHasProgress :
    (readyState []).Good ∧ busy (readyState []) 0 = false ∧
    seen (exec (.encrypt 0) (readyState [])) (fun t => busy t 0) = some true :=
  ⟨readyState_good [], by decide, by decide⟩

theorem witness_StepKeepsJobProgress :
    let s := twoJobs [.engine 0]
    s.Good ∧ JobProgress s 0 block0 iv8 ∧ seen (step s) (fun t => busy t 0) = some true :=
  ⟨twoJobs_good _, ⟨by decide, by decide, by decide, .padded, rfl, by decide, by decide, by decide⟩, by decide⟩

theorem witness_CompletionDeliversMessage :
    let s := oneJob (cbcJob 2 cipher1) (memAt 0 block0 |>.write 64 (cipher0 ++ cipher1)) []
    s.Good ∧ JobProgress s 0 block0 iv8 ∧ (s.ctx 0).blk = (s.ctx 0).nblk :=
  ⟨oneJob_good cbcJob_end_fields (by decide) [],
   ⟨by decide, by decide, by decide, .padded, rfl, by decide, by decide, by decide⟩, by decide⟩

end Sys2Proof.Tests
end

section
/-! SUPPORT. All a command can do at its issue: one inductive relation with a case for each kind of outcome, and the lemma
that every next state of `exec` is one of them. -/

namespace Sys2Proof.Machine

/-- The four commands that start a job, with the opcode the job gets (30_encoding.md R122). -/
abbrev isJob (i : Instr) (op : Opcode) (n : Fin 16) : Prop :=
  (i = .encrypt n ∧ op = .encrypt) ∨ (i = .decrypt n ∧ op = .decrypt) ∨ (i = .pad n ∧ op = .pad) ∨
  (i = .unpad n ∧ op = .unpad)

/-- The STATE a context must have for a job to start (10_state.md R47). -/
def stateBeforeJob (op : Opcode) : Lifecycle := if op = .encrypt ∨ op = .decrypt then .ready else .empty

/-- The checks a command that starts a job of opcode `op` and shape `sh` on context `n` has passed (43_stream_driver.md R266,
R267; 41_padding.md R189, R194). -/
structure JobChecks (s : State) (n : Fin 16) (op : Opcode) (sh : JobShape) : Prop where
  present : present s n = true
  state : (s.ctx n).state = stateBeforeJob op
  shape : jobShape op (s.ctx n).mode = some sh
  range : rangeOk n s.src.toNat s.len.toNat s.dst.toNat (maxoutOf sh s.inst.b s.len.toNat) s = true
  aligned_len : sh = .aligned → 0 < s.len.toNat ∧ s.len.toNat % s.inst.b = 0
  no_overflow : op = .encrypt ∨ op = .decrypt → jobOverflows s.inst (s.ctx n) (nblkOf sh s.inst.b s.len.toNat) = false

/-- The context of a job of opcode `op` and shape `sh` that a command has just started (43_stream_driver.md R270,
41_padding.md R190). -/
def startedCtx (n : Fin 16) (op : Opcode) (sh : JobShape) (s : State) : Ctx :=
  { s.ctx n with
    state := .busy, err := .none, lastop := op, outlen := 0#32, op := op, jsrc := s.src.toNat, jdst := s.dst.toNat,
    jlen := s.len.toNat, nblk := nblkOf sh s.inst.b s.len.toNat, blk := 0, maxout := maxoutOf sh s.inst.b s.len.toNat }

/-- `Issued s i t`: the issue of command `i` in `s` may answer `t`, by the kind of outcome. -/
inductive Issued (s : State) : Instr → State → Prop
  | nop : Issued s .nop s
  | rejected {i : Instr} {n : Fin 16} {code : ErrCode} (hn : i.ctx? = some n)
      (hc : code = .illegalCommand ∨ code = .badState ∨ code = .invalidRange) : Issued s i (reject code n s)
  | initFailed {i : Instr} {mode : Mode} {n : Fin 16} {code : ErrCode} (hi : isInit i mode n)
      (hp : present s n = true) (hb : (s.ctx n).state ≠ .busy) (hc : initCheck mode s = some code) :
      Issued s i (failWith n (({ s.ctx n with lastop := .init }).cleared s.inst) .empty code s)
  | initDone {i : Instr} {mode : Mode} {n : Fin 16} (hi : isInit i mode n)
      (hp : present s n = true) (hb : (s.ctx n).state ≠ .busy) (hc : initCheck mode s = none) :
      Issued s i (finish n
        { s.ctx n with lastop := .init, mode := mode, k := (keyString s).take s.inst.keyBytes,
                       chain := initChain mode s, nl := initNl mode s } .ready .none 0 s)
  | started {i : Instr} {op : Opcode} {n : Fin 16} {sh : JobShape} (hi : isJob i op n) (hj : JobChecks s n op sh) :
      Issued s i (s.setCtx n (startedCtx n op sh s))
  | spoiled {i : Instr} {op : Opcode} {n : Fin 16} {code : ErrCode} (hi : isJob i op n)
      (ho : op = .encrypt ∨ op = .decrypt) (hp : present s n = true) (hr : (s.ctx n).state = .ready)
      (hc : code = .invalidLength ∨ code = .counterOverflow) :
      Issued s i (failWith n { s.ctx n with lastop := op } .spent code s)
  | discarded {n : Fin 16} (hp : present s n = true) (hb : (s.ctx n).state ≠ .busy) :
      Issued s (.discard n) (finish n (({ s.ctx n with lastop := .discard }).cleared s.inst) .empty .none 0 s)
  | aborted {n : Fin 16} (hb : busy s n = true)
      (hm : (s.ctx n).maxout = 0 ∨ (s.ctx n).jdst + (s.ctx n).maxout ≤ s.inst.msgmemBytes) :
      Issued s (.abort n) (failWith n { s.ctx n with lastop := .abort } (stateAfterJob (s.ctx n).op) .aborted
        { s with mem := s.mem.write (s.ctx n).jdst (zeros (s.ctx n).maxout) })

/-- A command on a context is rejected with IllegalCommand, or its own effect is what it answers. -/
theorem issued_of_onCtx {i : Instr} {n : Fin 16} {s t : State} {k : Ctx → Result} (hi : i.ctx? = some n)
    (h : onCtx n s k = .next t) (own : present s n = true → k (s.ctx n) = .next t → Issued s i t) : Issued s i t := by
  rcases onCtx_eq_next h with ⟨hp, hk⟩ | ⟨-, rfl⟩
  · exact own hp hk
  · exact .rejected hi (.inl rfl)

theorem ctx_of_isInit {i : Instr} {mode : Mode} {n : Fin 16} (h : isInit i mode n) : i.ctx? = some n := by
  obtain ⟨rfl, -⟩ | ⟨rfl, -⟩ | ⟨rfl, -⟩ | ⟨rfl, -⟩ | ⟨rfl, -⟩ := h <;> rfl

theorem issued_of_issueInit {i : Instr} {mode : Mode} {n : Fin 16} {s t : State} (hi : isInit i mode n)
    (h : issueInit mode n s = .next t) : Issued s i t := by
  refine issued_of_onCtx (ctx_of_isInit hi) h fun hp h => ?_
  split at h
  · cases h; exact .rejected (ctx_of_isInit hi) (.inr (.inl rfl))
  · next hb =>
    split at h
    · next hc => cases h; exact .initFailed hi hp hb hc
    · next hc => cases h; exact .initDone hi hp hb hc

theorem issued_of_execEncrypt {n : Fin 16} {s t : State} (h : execEncrypt n s = .next t) : Issued s (.encrypt n) t := by
  refine issued_of_onCtx rfl h fun hp h => ?_
  simp only at h
  split at h
  · cases h; exact .rejected rfl (.inr (.inl rfl))
  · next hst =>
    have hr : (s.ctx n).state = .ready := Decidable.of_not_not hst
    split at h
    · cases h; exact .rejected rfl (.inr (.inr rfl))
    · next hra =>
      split at h
      · cases h; exact .spoiled (.inl ⟨rfl, rfl⟩) (.inl rfl) hp hr (.inr rfl)
      · next hov =>
        cases h
        exact .started (sh := encryptShape (s.ctx n).mode) (.inl ⟨rfl, rfl⟩)
          ⟨hp, hr, rfl, by simpa using hra, by unfold encryptShape; split <;> simp, fun _ => by simpa using hov⟩

theorem issued_of_execDecrypt {n : Fin 16} {s t : State} (h : execDecrypt n s = .next t) : Issued s (.decrypt n) t := by
  refine issued_of_onCtx rfl h fun hp h => ?_
  simp only at h
  split at h
  · cases h; exact .rejected rfl (.inr (.inl rfl))
  · next hst =>
    have hr : (s.ctx n).state = .ready := Decidable.of_not_not hst
    split at h
    · cases h; exact .rejected rfl (.inr (.inr rfl))
    · next hra =>
      split at h
      · cases h; exact .spoiled (.inr (.inl ⟨rfl, rfl⟩)) (.inr rfl) hp hr (.inl rfl)
      · next hlen =>
        split at h
        · cases h; exact .spoiled (.inr (.inl ⟨rfl, rfl⟩)) (.inr rfl) hp hr (.inr rfl)
        · next hov =>
          cases h
          refine .started (sh := decryptShape (s.ctx n).mode) (.inr (.inl ⟨rfl, rfl⟩))
            ⟨hp, hr, rfl, by simpa using hra, fun hal => ?_, fun _ => by simpa using hov⟩
          cases hm : (s.ctx n).mode.blockAligned with
          | false => simp [decryptShape, hm] at hal
          | true => simp [hm] at hlen; omega

theorem issued_of_issueCopy {i : Instr} {op : Opcode} {sh : JobShape} {n : Fin 16} {s t : State}
    (hi : i = .pad n ∧ op = .pad ∧ sh = .padded ∨ i = .unpad n ∧ op = .unpad ∧ sh = .stream)
    (h : issueCopy op sh n s = .next t) : Issued s i t := by
  have hn : i.ctx? = some n := by obtain ⟨rfl, -⟩ | ⟨rfl, -⟩ := hi <;> rfl
  have hj : isJob i op n := by
    obtain ⟨hi, ho, -⟩ | ⟨hi, ho, -⟩ := hi
    · exact .inr (.inr (.inl ⟨hi, ho⟩))
    · exact .inr (.inr (.inr ⟨hi, ho⟩))
  refine issued_of_onCtx hn h fun hp h => ?_
  simp only at h
  split at h
  · cases h; exact .rejected hn (.inr (.inl rfl))
  · next hst =>
    have he : (s.ctx n).state = .empty := Decidable.of_not_not hst
    split at h
    · cases h; exact .rejected hn (.inr (.inr rfl))
    · next hra =>
      cases h
      refine .started hj ⟨hp, ?_, ?_, by simpa using hra, ?_, ?_⟩ <;>
        obtain ⟨-, rfl, rfl⟩ | ⟨-, rfl, rfl⟩ := hi <;> simp [he, stateBeforeJob, jobShape]

theorem issued_of_execDiscard {n : Fin 16} {s t : State} (h : execDiscard n s = .next t) : Issued s (.discard n) t := by
  refine issued_of_onCtx rfl h fun hp h => ?_
  split at h
  · cases h; exact .rejected rfl (.inr (.inl rfl))
  · next hb => cases h; exact .discarded hp hb

theorem issued_of_execAbort {n : Fin 16} {s t : State} (h : execAbort n s = .next t) : Issued s (.abort n) t := by
  refine issued_of_onCtx rfl h fun hp h => ?_
  split at h
  · cases h; exact .rejected rfl (.inr (.inl rfl))
  · next hb =>
    obtain ⟨u, hu, h⟩ := andThen_eq_next h
    obtain ⟨rfl, hm⟩ := memWrite_eq_ok hu
    cases h
    exact .aborted ((busy_iff s n).2 ⟨(present_iff s n).1 hp, Decidable.of_not_not hb⟩) (by simpa using hm)

/-- All a command can do: each next state of `exec` is one of the outcomes of `Issued`. -/
theorem issued_of_exec {i : Instr} {s t : State} (h : exec i s = .next t) : Issued s i t := by
  cases i with
  | nop => cases h; exact .nop
  | initEcb n => exact issued_of_issueInit (mode := .ecb) (.inl ⟨rfl, rfl⟩) h
  | initCbc n => exact issued_of_issueInit (mode := .cbc) (.inr (.inl ⟨rfl, rfl⟩)) h
  | initCfb n => exact issued_of_issueInit (mode := .cfb) (.inr (.inr (.inl ⟨rfl, rfl⟩))) h
  | initOfb n => exact issued_of_issueInit (mode := .ofb) (.inr (.inr (.inr (.inl ⟨rfl, rfl⟩)))) h
  | initCtr n => exact issued_of_issueInit (mode := .ctr) (.inr (.inr (.inr (.inr ⟨rfl, rfl⟩)))) h
  | encrypt n => exact issued_of_execEncrypt h
  | decrypt n => exact issued_of_execDecrypt h
  | discard n => exact issued_of_execDiscard h
  | abort n => exact issued_of_execAbort h
  | pad n => exact issued_of_issueCopy (.inl ⟨rfl, rfl, rfl⟩) h
  | unpad n => exact issued_of_issueCopy (.inr ⟨rfl, rfl, rfl⟩) h

end Sys2Proof.Machine
end

section
/-! SUPPORT. All a step can do: what a register write other than CMD leaves alone, and one inductive relation with a case for
each kind of event. -/

namespace Sys2Proof.Machine

/-! ### Register writes -/

@[simp] theorem offerByte_inst (s : State) (x : Nat) (v : Byte) : (offerByte s x v).inst = s.inst := by
  unfold offerByte; split <;> rfl

@[simp] theorem offerByte_ctxs (s : State) (x : Nat) (v : Byte) : (offerByte s x v).ctxs = s.ctxs := by
  unfold offerByte; split <;> rfl

@[simp] theorem writeMsgmem_inst (s : State) (j : Nat) (v : Word) : (writeMsgmem s j v).inst = s.inst := by
  simp [writeMsgmem]

@[simp] theorem writeMsgmem_ctxs (s : State) (j : Nat) (v : Word) : (writeMsgmem s j v).ctxs = s.ctxs := by
  simp [writeMsgmem]

/-- A write to a register other than CMD touches neither the parameters nor a context (10_state.md R51). -/
theorem writeReg_inst_ctxs {r : Reg} {v : Word} {s t : State} (hr : r ≠ .cmd) (h : writeReg r v s = .next t) :
    t.inst = s.inst ∧ t.ctxs = s.ctxs := by
  cases r with
  | cmd => exact absurd rfl hr
  | msgmem j => cases h; simp
  | _ => cases h; exact ⟨rfl, rfl⟩

/-- Only the offset of CMD reaches CMD (20_memory.md R81). -/
theorem regAt_eq_cmd {p : Params} {a : BitVec 16} (h : regAt p a.toNat = .cmd) : a = cmdOffset := by
  unfold regAt at h
  iterate 10 (replace h := regAt_skip h Reg.noConfusion)
  split at h
  · next ha => exact BitVec.eq_of_toNat_eq ha
  · iterate 3 (replace h := regAt_skip h Reg.noConfusion)
    split at h
    · split at h <;> cases h
    · split at h <;> cases h

/-! ### Engine turns -/

/-- `Turned s n t`: the engine's turn on context `n` in `s` may answer `t`: it passes, does a block, or ends the job. A job
that ends writes `k` zeros from `a` on, in its destination, and reports `e` and the output length `o`. -/
inductive Turned (s : State) (n : Fin 16) : State → Prop
  | passed (hb : busy s n = false) : Turned s n s
  | advanced {sh : JobShape} (hb : busy s n = true) (hsh : jobShape (s.ctx n).op (s.ctx n).mode = some sh)
      (hlt : (s.ctx n).blk < (s.ctx n).nblk) : Turned s n (afterBlock s n (pieceOf sh (s.ctx n) (s.ctx n).blk s))
  | ended {sh : JobShape} {a k : Nat} {e : ErrCode} {o : Nat} (hb : busy s n = true)
      (hsh : jobShape (s.ctx n).op (s.ctx n).mode = some sh) (hend : (s.ctx n).blk = (s.ctx n).nblk)
      (he : e = .none ∨ e = .invalidPadding ∧ o = 0)
      (hm : k = 0 ∨ (s.ctx n).jdst ≤ a ∧ a + k ≤ (s.ctx n).jdst + max (s.ctx n).jlen (s.ctx n).maxout) :
      Turned s n (finish n (s.ctx n) (stateAfterJob (s.ctx n).op) e o { s with mem := s.mem.write a (zeros k) })

/-- All an engine turn can do: each next state of `engineTurn` is one of the outcomes of `Turned`. -/
theorem turned_of_engineTurn {s t : State} {n : Fin 16} (h : engineTurn n s = .next t) : Turned s n t := by
  rcases engineTurn_eq_next h with ⟨hb, rfl⟩ | ⟨hb, sh, hsh, hcase⟩
  · exact .passed hb
  rcases hcase with ⟨hlt, piece, hpiece, rfl⟩ | ⟨hend, -, hu⟩ | ⟨hend, -, rfl⟩
  · rw [split_eq_ok hpiece]
    exact .advanced hb hsh hlt
  · rcases completeUnpad_eq_next hu with ⟨-, rfl⟩ | ⟨k, hk, rfl⟩
    · exact .ended hb hsh hend (.inr ⟨rfl, rfl⟩) (.inr ⟨Nat.le_refl _, by omega⟩)
    · obtain ⟨-, -, hkl, -⟩ := padLen_eq_some hk
      rw [Memory.read_length] at hkl
      exact .ended hb hsh hend (.inl rfl) (.inr ⟨by omega, by omega⟩)
  · exact .ended (a := 0) hb hsh hend (.inl rfl) (.inl rfl)

/-! ### Steps -/

/-- `Stepped s t`: a step of `s` may answer `t`, by the kind of event. -/
inductive Stepped (s : State) : State → Prop
  | idle (ha : s.agenda = []) : Stepped s s
  | turn {n : Fin 16} {a : List Event} {k : Nat} {t : State}
      (ha : s.agenda = [] ∨ ∃ rest, s.agenda = .engine n :: rest)
      (h : Turned { s with agenda := a, tick := k } n t) : Stepped s t
  | reset {rest : List Event} (ha : s.agenda = .rst :: rest) : Stepped s (resetStep { s with agenda := rest })
  | misaligned {rest : List Event} {d : Option Word} : Stepped s (respond true d (setBuserr { s with agenda := rest }))
  | read {rest : List Event} {v : Word} : Stepped s (respond false (some v) { s with agenda := rest })
  | command {i : Instr} {rest : List Event} {u : State} (hc : s.nextCommand = some i)
      (h : Issued { s with agenda := rest } i u) : Stepped s (respond false none u)
  | malformed {n : Fin 16} {rest : List Event} :
      Stepped s (respond false none (reject .illegalCommand n { s with agenda := rest }))
  | write {a : BitVec 16} {v : Word} {rest : List Event} {u : State} (ha : a.toNat % 4 = 0)
      (hr : regAt s.inst a.toNat ≠ .cmd)
      (h : writeReg (regAt s.inst a.toNat) v { s with agenda := rest } = .next u) : Stepped s (respond false none u)

theorem stepped_of_engineAlone {s t : State} (ha : s.agenda = []) (h : engineAlone s = .next t) : Stepped s t := by
  unfold engineAlone at h
  split at h
  · cases h; exact .idle ha
  · exact .turn (.inl ha) (turned_of_engineTurn h)

theorem stepped_of_hostRead {s t : State} {a : BitVec 16} {rest : List Event}
    (h : hostRead a { s with agenda := rest } = .next t) : Stepped s t := by
  rcases hostRead_eq a { s with agenda := rest } with ⟨-, hm⟩ | ⟨-, hr⟩
  · rw [hm] at h; cases h; exact .misaligned
  · rw [hr] at h; cases h; exact .read

theorem stepped_of_issue {s u : State} {w : Word} {rest : List Event} (ha : s.agenda = commandEvent w :: rest)
    (h : issue w { s with agenda := rest } = .next u) : Stepped s (respond false none u) := by
  cases hd : decode w with
  | ok i =>
    rw [issue_of_decode hd] at h
    refine .command (i := i) ?_ (issued_of_exec h)
    simp [State.nextCommand, ha, commandEvent, hd, Except.toOption]
  | error e =>
    rw [issue_of_error hd] at h
    cases h; exact .malformed

theorem stepped_of_hostWrite {s t : State} {a : BitVec 16} {v : Word} {rest : List Event}
    (ha : s.agenda = .host (.write a v) :: rest) (h : hostWrite a v { s with agenda := rest } = .next t) :
    Stepped s t := by
  rcases hostWrite_eq_next h with ⟨-, rfl⟩ | ⟨hal, u, hu, rfl⟩
  · exact .misaligned
  · by_cases hr : regAt s.inst a.toNat = .cmd
    · obtain rfl := regAt_eq_cmd hr
      exact stepped_of_issue ha hu
    · exact .write hal hr hu

/-- All a step can do: each next state of `step` is one of the outcomes of `Stepped`. -/
theorem stepped_of_step {s t : State} (h : step s = .next t) : Stepped s t := by
  cases ha : s.agenda with
  | nil => exact stepped_of_engineAlone ha (step_nil ha ▸ h)
  | cons e rest =>
    rw [step_cons ha] at h
    cases e with
    | host b =>
      cases b with
      | read a => exact stepped_of_hostRead h
      | write a v => exact stepped_of_hostWrite ha h
    | engine n => exact .turn (.inr ⟨rest, ha⟩) (turned_of_engineTurn h)
    | rst => cases h; exact .reset ha

end Sys2Proof.Machine
end

section
/-! SUPPORT. What keeps a state well formed: the status bits, a context that ends, starts or advances a job, a byte the host
offers. -/

namespace Sys2Proof.Machine

/-! ### Contexts -/

/-- A context without a mode state, EMPTY, with any code of INIT's or DISCARD's (43_stream_driver.md R263,
44_control_interleaver.md R303). -/
theorem ctxFields_cleared {p : Params} (hl : p.legal = true) (c : Ctx) {e : ErrCode} (he : e.ofContext) :
    CtxFields p { c.cleared p with state := .empty, err := e, outlen := BitVec.ofNat 32 0 } where
  k_len := zeros_length _
  chain_len := zeros_length _
  nl_lt := by
    have := (legal_spec hl).1
    simp only [Ctx.cleared, BitVec.toNat_ofNat]
    omega
  nl_zero _ := rfl
  ecb_chain _ := rfl
  err_code := he
  err_outlen _ := rfl
  empty_state _ := ⟨rfl, rfl, rfl, rfl⟩
  ready_status h := nomatch h
  job h := nomatch h

/-- A context whose command or job ends SPENT or EMPTY keeps its mode state (10_state.md R47 to R49). -/
theorem CtxFields.ended {p : Params} {c : Ctx} (hf : CtxFields p c) {st : Lifecycle} {l : Opcode} {e : ErrCode} {o : Nat}
    (hb : st ≠ .busy) (hr : st ≠ .ready) (hst : st = .empty → c.noModeState p) (hc : e.ofContext)
    (ho : e ≠ .none → o = 0) :
    CtxFields p { c with lastop := l, state := st, err := e, outlen := BitVec.ofNat 32 o } where
  k_len := hf.k_len
  chain_len := hf.chain_len
  nl_lt := hf.nl_lt
  nl_zero := hf.nl_zero
  ecb_chain := hf.ecb_chain
  err_code := hc
  err_outlen h := by rw [ho h]
  empty_state := hst
  ready_status h := absurd h hr
  job h := absurd h hb

theorem stateAfterJob_ne_ready (op : Opcode) : stateAfterJob op ≠ .ready := by
  unfold stateAfterJob; split <;> simp

/-- Only PAD and UNPAD leave a context EMPTY, and they run without a mode state (41_padding.md R190). -/
theorem noModeState_of_jobEnd {p : Params} {c : Ctx} (hf : CtxFields p c) (hb : c.state = .busy)
    (h : stateAfterJob c.op = .empty) : c.noModeState p := by
  obtain ⟨sh, hsh, hj⟩ := hf.job hb
  rcases job_op hsh with ho | ho
  · simp [stateAfterJob, ho] at h
  · exact hj.copy_job ho

/-- The mode state INIT latches is well formed when its checks pass (43_stream_driver.md R262, R264). -/
theorem initOk_lengths {mode : Mode} {s : State} (hl : s.inst.legal = true) (hc : initCheck mode s = none) :
    (initChain mode s).length = s.inst.b ∧ (initNl mode s).toNat < s.inst.b := by
  have hL := legal_spec hl
  have hiv : ((ivString s).take s.inst.b).length = s.inst.b := by
    rw [List.length_take, ivString_length]; omega
  cases mode with
  | ecb => simp [initChain, initNl]; omega
  | ctr =>
    simp only [initCheck] at hc
    split at hc
    · cases hc
    · split at hc
      · cases hc
      · next h =>
        simp only [initChain, initNl, List.length_append, List.length_take, ivString_length, beBytes_length]
        omega
  | _ => exact ⟨hiv, by simp [initNl]; omega⟩

theorem ctxFields_initDone {mode : Mode} {s : State} (hl : s.inst.legal = true) (c : Ctx)
    (hc : initCheck mode s = none) :
    CtxFields s.inst
      { c with
        lastop := .init, mode := mode, k := (keyString s).take s.inst.keyBytes, chain := initChain mode s,
        nl := initNl mode s, state := .ready, err := .none, outlen := BitVec.ofNat 32 0 } where
  k_len := by
    have := legal_spec hl
    rw [List.length_take, keyString_length]
    omega
  chain_len := (initOk_lengths hl hc).1
  nl_lt := (initOk_lengths hl hc).2
  nl_zero h := by
    cases mode with
    | ctr => exact absurd rfl h
    | _ => rfl
  ecb_chain h := by cases h; rfl
  err_code := (by decide : ErrCode.none.ofContext)
  err_outlen _ := rfl
  empty_state h := nomatch h
  ready_status _ := ⟨rfl, rfl, rfl⟩
  job h := nomatch h

/-- A counter that passed the check of ENCRYPT and DECRYPT does not wrap (42_modes.md R232). -/
theorem no_wrap_of_not_overflow {p : Params} {c : Ctx} {k : Nat} (h : jobOverflows p c k = false) (hm : c.mode = .ctr)
    (hk : 0 < k) : counterOf c.nl.toNat c.chain + k ≤ 256 ^ (p.b - c.nl.toNat) := by
  simp only [jobOverflows, hm, ctrOverflow, decide_true, Bool.true_and, Bool.and_eq_false_iff,
    decide_eq_false_iff_not] at h
  omega

/-- The fields of a job that has just started (43_stream_driver.md R270, 41_padding.md R190). -/
theorem jobFields_started {s : State} {n : Fin 16} {op : Opcode} {sh : JobShape} (hf : CtxFields s.inst (s.ctx n))
    (hj : JobChecks s n op sh) : JobFields s.inst (startedCtx n op sh s) sh := by
  obtain ⟨hsrc, hdst, hown, -⟩ := (rangeOk_iff ..).1 hj.range
  have hcopy : op = .pad ∨ op = .unpad → (s.ctx n).noModeState s.inst := fun ho =>
    hf.empty_state (by rw [hj.state]; rcases ho with rfl | rfl <;> rfl)
  refine ⟨rfl, rfl, Nat.zero_le _, hsrc, hdst, hown, hj.aligned_len, ⟨rfl, rfl, rfl⟩, hcopy, fun hm hk => ?_⟩
  rcases job_op hj.shape with ho | ho
  · exact no_wrap_of_not_overflow (hj.no_overflow ho) hm hk
  · exact absurd ((hcopy ho).1.symm.trans hm) (by decide)

theorem ctxFields_started {s : State} {n : Fin 16} {op : Opcode} {sh : JobShape} (hf : CtxFields s.inst (s.ctx n))
    (hj : JobChecks s n op sh) : CtxFields s.inst (startedCtx n op sh s) where
  k_len := hf.k_len
  chain_len := hf.chain_len
  nl_lt := hf.nl_lt
  nl_zero := hf.nl_zero
  ecb_chain := hf.ecb_chain
  err_code := (by decide : ErrCode.none.ofContext)
  err_outlen _ := rfl
  empty_state h := nomatch h
  ready_status h := nomatch h
  job _ := ⟨sh, hj.shape, jobFields_started hf hj⟩

/-- A job that starts keeps off every running job (20_memory.md R90). -/
theorem startedCtx_apart {s : State} {n m : Fin 16} {op : Opcode} {sh : JobShape} (hj : JobChecks s n op sh)
    (hmn : m ≠ n) (hb : busy s m = true) :
    JobsApart (startedCtx n op sh s) (s.ctx m) ∧ JobsApart (s.ctx m) (startedCtx n op sh s) := by
  obtain ⟨-, -, -, hothers⟩ := (rangeOk_iff ..).1 hj.range
  obtain ⟨h1, h2, h3⟩ := hothers m hmn hb
  exact ⟨⟨h1, h2⟩, by rw [disjoint_comm]; exact h3, by rw [disjoint_comm]; exact h2⟩

/-! ### A block of a job -/

/-- Where block BLK of a well-formed job is written: inside the destination range (43_stream_driver.md R273, R274). -/
theorem blockOutput_bounds {s : State} {n : Fin 16} {sh : JobShape} (hl : s.inst.legal = true)
    (hf : CtxFields s.inst (s.ctx n)) (hsh : jobShape (s.ctx n).op (s.ctx n).mode = some sh)
    (hj : JobFields s.inst (s.ctx n) sh) (hlt : (s.ctx n).blk < (s.ctx n).nblk) :
    let piece := pieceOf sh (s.ctx n) (s.ctx n).blk s
    let r := jobXform s.inst (s.ctx n) piece.input
    piece.dstoff + (r.1.take piece.wlen).length ≤ (s.ctx n).maxout ∧ r.2.length = s.inst.b := by
  have hb : 0 < s.inst.b := by have := (legal_spec hl).1; omega
  obtain ⟨h1, h2, h3, h4⟩ := pieceOf_len hb hj.nblk_eq hlt hj.aligned_len
  obtain ⟨-, hchain⟩ := jobXform_lengths hl hf hsh (x := (pieceOf sh (s.ctx n) (s.ctx n).blk s).input) (by omega)
    fun h => by rw [h1, h3 h]
  refine ⟨?_, hchain⟩
  rw [List.length_take, hj.maxout_eq]
  omega

/-- A block step keeps the fields of its job: the counter it steps is the next block's (42_modes.md R230, R232). -/
theorem jobFields_nextBlock {p : Params} {c : Ctx} {sh : JobShape} (hf : CtxFields p c)
    (hsh : jobShape c.op c.mode = some sh) (hj : JobFields p c sh) (hlt : c.blk < c.nblk) (x : Bytes) :
    JobFields p { c with chain := (jobXform p c x).2, blk := c.blk + 1 } sh where
  nblk_eq := hj.nblk_eq
  maxout_eq := hj.maxout_eq
  blk_le := hlt
  src_inside := hj.src_inside
  dst_inside := hj.dst_inside
  own_overlap := hj.own_overlap
  aligned_len := hj.aligned_len
  status := hj.status
  copy_job ho := by
    obtain ⟨hm, hn, hk, hc⟩ := hj.copy_job ho
    have hchain : (jobXform p c x).2 = c.chain := by rw [jobXform_copy (show c.op = .pad ∨ c.op = .unpad from ho)]
    exact ⟨hm, hn, hk, hchain.trans hc⟩
  no_wrap hm hk := by
    rcases job_op hsh with ho | ho
    · have hroom := hj.no_wrap hm hlt
      have hnl := hf.nl_lt
      have hlen := hf.chain_len
      have hmode : c.mode = .ctr := hm
      simp only at hk ⊢
      rw [jobXform_ctr hmode ho, counterOf_nextCounter (by omega), Nat.mod_eq_of_lt (by omega)]
      omega
    · exact absurd ((hj.copy_job ho).1.symm.trans hm) (by decide)

theorem ctxFields_nextBlock {p : Params} {c : Ctx} {sh : JobShape} (hf : CtxFields p c) (hb : c.state = .busy)
    (hsh : jobShape c.op c.mode = some sh) (hj : JobFields p c sh) (hlt : c.blk < c.nblk) {x : Bytes}
    (hx : (jobXform p c x).2.length = p.b) :
    CtxFields p { c with chain := (jobXform p c x).2, blk := c.blk + 1 } where
  k_len := hf.k_len
  chain_len := hx
  nl_lt := hf.nl_lt
  nl_zero := hf.nl_zero
  ecb_chain h := (jobXform_ecb (c := c) h).trans (hf.ecb_chain h)
  err_code := hf.err_code
  err_outlen := hf.err_outlen
  empty_state h := absurd (hb.symm.trans h) (by decide)
  ready_status := hf.ready_status
  job _ := ⟨sh, hsh, jobFields_nextBlock hf hsh hj hlt x⟩

/-! ### States -/

/-- A state right after reset is well formed (10_state.md R57). -/
theorem good_resetFor {p : Params} (hl : p.legal = true) : (State.resetFor p).Good where
  legal := hl
  mem_wf := ⟨List.Pairwise.nil, by simp [State.resetFor]⟩
  mem_below := by simp [State.resetFor]
  irq_status := BitVec.zero_and
  irq_enable := BitVec.zero_and
  issue_err := .inl rfl
  no_rejection _ := ⟨rfl, rfl⟩
  absent n _ := ctx_resetFor p n
  fields n _ := by rw [ctx_resetFor]; exact ctxFields_reset hl
  apart m n _ hm _ := by simp [busy, Ctx.reset] at hm

/-- A change of the status and interrupt registers keeps a state well formed while their own conditions hold
(10_state.md R33 to R35). -/
theorem State.Good.withStatus {s t : State} (hs : s.Good) (hi : t.inst = s.inst) (hc : t.ctxs = s.ctxs)
    (hm : t.mem = s.mem) (hq : t.irqStatus &&& ~~~(irqMask s.inst) = 0#32)
    (he : t.irqEnable &&& ~~~(irqMask s.inst) = 0#32) (hg : t.gstatus.issueErr.ofRejection)
    (hr : t.gstatus.rej = false → t.gstatus.issueErr = .none ∧ t.gstatus.issueCtx = 0) : t.Good := by
  have ctx : ∀ n, t.ctx n = s.ctx n := State.ctx_congr hc
  have pres : ∀ n, present t n = present s n := present_congr hi
  have bus : ∀ n, busy t n = busy s n := fun n => busy_congr hi (by rw [ctx])
  exact ⟨by rw [hi]; exact hs.legal, by rw [hm]; exact hs.mem_wf, by rw [hm, hi]; exact hs.mem_below, by rw [hi]; exact hq,
    by rw [hi]; exact he, hg, hr, by simpa only [pres, ctx, hi] using hs.absent,
    by simpa only [pres, ctx, hi] using hs.fields, by simpa only [bus, ctx] using hs.apart⟩

theorem good_reject {s : State} (hs : s.Good) {code : ErrCode} {n : Fin 16}
    (hc : code = .illegalCommand ∨ code = .badState ∨ code = .invalidRange) : (reject code n s).Good :=
  hs.withStatus rfl rfl rfl (or_and_zero hs.irq_status (rej_mask _)) hs.irq_enable (.inr hc) (fun h => nomatch h)

/-- A command or job that ends on a context keeps a state well formed if the context it leaves is, with bytes of MSGMEM
written before it. -/
theorem good_finish {s : State} (hs : s.Good) {n : Fin 16} (hp : present s n = true) {a : Nat} {bs : Bytes}
    (hm : bs.length = 0 ∨ a + bs.length ≤ s.inst.msgmemBytes) {c : Ctx} {st : Lifecycle} {e : ErrCode} {o : Nat}
    (hst : st ≠ .busy) (hf : CtxFields s.inst { c with state := st, err := e, outlen := BitVec.ofNat 32 o }) :
    (finish n c st e o { s with mem := s.mem.write a bs }).Good :=
  hs.update rfl rfl (.inr rfl) rfl rfl (Memory.wf_write hs.mem_wf a bs)
    (Memory.below_write hs.mem_below a bs (hm.imp List.eq_nil_of_length_eq_zero id)) hp hf fun h => absurd h hst

/-- `good_finish` where no byte is written. -/
theorem good_finish_quiet {s : State} (hs : s.Good) {n : Fin 16} (hp : present s n = true) {c : Ctx} {st : Lifecycle}
    {e : ErrCode} {o : Nat} (hst : st ≠ .busy)
    (hf : CtxFields s.inst { c with state := st, err := e, outlen := BitVec.ofNat 32 o }) :
    (finish n c st e o s).Good :=
  good_finish (a := 0) (bs := []) hs hp (.inl rfl) hst hf

/-- A job that ends, by completion or by ABORT, keeps a state well formed: it has written zeros inside MSGMEM. -/
theorem good_jobEnd {s : State} (hs : s.Good) {n : Fin 16} (hb : busy s n = true) {a k : Nat}
    (hm : k = 0 ∨ a + k ≤ s.inst.msgmemBytes) {l : Opcode} {e : ErrCode} {o : Nat} (hc : e.ofContext)
    (ho : e ≠ .none → o = 0) :
    (finish n { s.ctx n with lastop := l } (stateAfterJob (s.ctx n).op) e o
      { s with mem := s.mem.write a (zeros k) }).Good := by
  have hp := present_of_busy hb
  have hf := hs.fields n hp
  exact good_finish hs hp (by simpa using hm) (stateAfterJob_ne _)
    (hf.ended (stateAfterJob_ne _) (stateAfterJob_ne_ready _) (noModeState_of_jobEnd hf ((busy_iff s n).1 hb).2) hc ho)

/-- Every command keeps a state well formed. -/
theorem good_of_issued {s t : State} {i : Instr} (hs : s.Good) (h : Issued s i t) : t.Good := by
  cases h with
  | nop => exact hs
  | rejected _ hc => exact good_reject hs hc
  | initFailed _ hp _ hc =>
    refine good_finish_quiet hs hp (by decide) (ctxFields_cleared hs.legal _ ?_)
    rcases initCheck_code hc with rfl | rfl <;> decide
  | initDone _ hp _ hc => exact good_finish_quiet hs hp (by decide) (ctxFields_initDone hs.legal _ hc)
  | @started _ op n sh _ hj =>
    exact hs.update (c := startedCtx n op sh s) rfl rfl (.inl rfl) rfl rfl hs.mem_wf hs.mem_below hj.present
      (ctxFields_started (hs.fields n hj.present) hj) fun _ m hmn hb => startedCtx_apart hj hmn hb
  | @spoiled _ _ n _ _ _ hp _ hc =>
    refine good_finish_quiet hs hp (by decide)
      ((hs.fields n hp).ended (by decide) (by decide) (fun h => nomatch h) ?_ fun _ => rfl)
    rcases hc with rfl | rfl <;> decide
  | discarded hp _ => exact good_finish_quiet hs hp (by decide) (ctxFields_cleared hs.legal _ (by decide))
  | aborted hb hm => exact good_jobEnd hs hb hm (by decide) fun _ => rfl

/-- A block step or copy step keeps a state well formed. -/
theorem good_afterBlock {s : State} (hs : s.Good) {n : Fin 16} {sh : JobShape} (hb : busy s n = true)
    (hsh : jobShape (s.ctx n).op (s.ctx n).mode = some sh) (hj : JobFields s.inst (s.ctx n) sh)
    (hlt : (s.ctx n).blk < (s.ctx n).nblk) : (afterBlock s n (pieceOf sh (s.ctx n) (s.ctx n).blk s)).Good := by
  have hp := present_of_busy hb
  have hf := hs.fields n hp
  obtain ⟨hout, hchain⟩ := blockOutput_bounds hs.legal hf hsh hj hlt
  have hdst := hj.dst_inside
  exact hs.update rfl rfl (.inl rfl) rfl rfl (Memory.wf_write hs.mem_wf _ _)
    (Memory.below_write hs.mem_below _ _ (.inr (by omega))) hp
    (ctxFields_nextBlock hf ((busy_iff s n).1 hb).2 hsh hj hlt hchain)
    fun _ m hmn hbm => ⟨hs.apart n m hmn.symm hb hbm, hs.apart m n hmn hbm hb⟩

/-- A well-formed job's shape is that of its OP and MODE. -/
theorem jobFields_of_busy {s : State} (hs : s.Good) {n : Fin 16} (hb : busy s n = true) {sh : JobShape}
    (hsh : jobShape (s.ctx n).op (s.ctx n).mode = some sh) : JobFields s.inst (s.ctx n) sh := by
  obtain ⟨sh', hsh', hj⟩ := (hs.fields n (present_of_busy hb)).job ((busy_iff s n).1 hb).2
  obtain rfl := Option.some.inj (hsh'.symm.trans hsh)
  exact hj

/-- A well-formed job's source is no longer than its destination (43_stream_driver.md R273). -/
theorem JobFields.jlen_le_maxout {p : Params} {c : Ctx} {sh : JobShape} (hj : JobFields p c sh) (hl : p.legal = true) :
    c.jlen ≤ c.maxout := by
  have := (legal_spec hl).1
  rw [hj.maxout_eq]
  exact len_le_maxoutOf sh (by omega) _

/-- An engine turn keeps a state well formed. -/
theorem good_of_turned {s t : State} {n : Fin 16} (hs : s.Good) (h : Turned s n t) : t.Good := by
  cases h with
  | passed => exact hs
  | advanced hb hsh hlt => exact good_afterBlock hs hb hsh (jobFields_of_busy hs hb hsh) hlt
  | ended hb hsh _ he hm =>
    have hj := jobFields_of_busy hs hb hsh
    have hlen := hj.jlen_le_maxout hs.legal
    have hdst := hj.dst_inside
    rcases he with rfl | ⟨rfl, rfl⟩
    · exact good_jobEnd hs hb (by omega) (by decide) fun h => absurd rfl h
    · exact good_jobEnd hs hb (by omega) (by decide) fun _ => rfl

/-! ### Register writes -/

/-- An offered byte of MSGMEM keeps a state well formed (20_memory.md R89). -/
theorem good_offerByte {s : State} (hs : s.Good) {x : Nat} (hx : x < s.inst.msgmemBytes) (v : Byte) :
    (offerByte s x v).Good := by
  unfold offerByte
  split
  · exact hs.withStatus rfl rfl rfl hs.irq_status hs.irq_enable hs.issue_err hs.no_rejection
  · exact ⟨hs.legal, Memory.wf_set hs.mem_wf x v, Memory.below_set hs.mem_below x v hx, hs.irq_status, hs.irq_enable,
      hs.issue_err, hs.no_rejection, hs.absent, hs.fields, hs.apart⟩

theorem good_writeMsgmem {s : State} (hs : s.Good) {j : Nat} (hj : j + 3 < s.inst.msgmemBytes) (v : Word) :
    (writeMsgmem s j v).Good := by
  have h0 := good_offerByte hs (x := j) (by omega) (v.extractLsb' 0 8)
  have h1 := good_offerByte h0 (x := j + 1) (by rw [offerByte_inst]; omega) (v.extractLsb' 8 8)
  have h2 := good_offerByte h1 (x := j + 2) (by simp only [offerByte_inst]; omega) (v.extractLsb' 16 8)
  exact good_offerByte h2 (by simp only [offerByte_inst]; omega) _

theorem good_ackGstatus {s : State} (hs : s.Good) (v : Word) : (ackGstatus v s).Good := by
  refine hs.withStatus rfl rfl rfl hs.irq_status hs.irq_enable ?_ ?_
  · simp only [ackGstatus]
    split
    · exact .inl rfl
    · exact hs.issue_err
  · simp only [ackGstatus]
    cases v.getLsbD 16 with
    | true => exact fun _ => ⟨rfl, rfl⟩
    | false => simpa using hs.no_rejection

/-- A host write to a register other than CMD keeps a state well formed. -/
theorem good_writeReg {s t : State} {a : Nat} {v : Word} (hs : s.Good) (ha : a % 4 = 0) (hr : regAt s.inst a ≠ .cmd)
    (h : writeReg (regAt s.inst a) v s = .next t) : t.Good := by
  cases hreg : regAt s.inst a with
  | cmd => exact absurd hreg hr
  | gstatus => rw [hreg] at h; cases h; exact good_ackGstatus hs v
  | irqStatus =>
    rw [hreg] at h; cases h
    exact hs.withStatus rfl rfl rfl (clear_mask hs.irq_status) hs.irq_enable hs.issue_err hs.no_rejection
  | irqEnable =>
    rw [hreg] at h; cases h
    exact hs.withStatus rfl rfl rfl hs.irq_status (mask_mask v _) hs.issue_err hs.no_rejection
  | msgmem j =>
    obtain ⟨haj, hj⟩ := regAt_eq_msgmem hreg
    have hmul := (legal_spec hs.legal).2.2.2.1.1
    rw [hreg] at h; cases h
    exact good_writeMsgmem hs (by omega) v
  | _ => rw [hreg] at h; cases h; exact hs.congr rfl rfl rfl rfl rfl rfl

/-! ### Steps -/

/-- Taking events off the agenda and advancing the schedule's counter keeps a state well formed. -/
theorem State.Good.schedule {s : State} (hs : s.Good) (a : List Event) (k : Nat) :
    ({ s with agenda := a, tick := k } : State).Good :=
  hs.congr rfl rfl rfl rfl rfl rfl

theorem State.Good.respond {s : State} (hs : s.Good) (e : Bool) (d : Option Word) : (respond e d s).Good :=
  hs.congr rfl rfl rfl rfl rfl rfl

theorem State.Good.setBuserr {s : State} (hs : s.Good) : (setBuserr s).Good :=
  hs.withStatus rfl rfl rfl hs.irq_status hs.irq_enable hs.issue_err hs.no_rejection

/-- Every step keeps a state well formed. -/
theorem good_of_stepped {s t : State} (hs : s.Good) (h : Stepped s t) : t.Good := by
  have taken : ∀ rest, ({ s with agenda := rest } : State).Good := fun rest => hs.schedule rest s.tick
  cases h with
  | idle => exact hs
  | turn _ h => exact good_of_turned (hs.schedule _ _) h
  | reset => exact (good_resetFor hs.legal).congr rfl rfl rfl rfl rfl rfl
  | misaligned => exact (taken _).setBuserr.respond _ _
  | read => exact (taken _).respond _ _
  | command _ h => exact (good_of_issued (taken _) h).respond _ _
  | malformed => exact (good_reject (taken _) (.inl rfl)).respond _ _
  | @write _ _ rest _ ha hr h => exact (good_writeReg (taken rest) ha hr h).respond _ _

end Sys2Proof.Machine
end

section
/-! SUPPORT. What commands, engine turns and steps leave alone: the parameters, a context's key, its STATE, the other
contexts and the bytes outside a job. -/

namespace Sys2Proof.Machine

/-! ### The parameters -/

theorem issued_inst {s t : State} {i : Instr} (h : Issued s i t) : t.inst = s.inst := by
  cases h <;> rfl

theorem turned_inst {s t : State} {n : Fin 16} (h : Turned s n t) : t.inst = s.inst := by
  cases h <;> rfl

/-- No step changes the parameters (10_state.md R32). -/
theorem stepped_inst {s t : State} (h : Stepped s t) : t.inst = s.inst := by
  cases h with
  | turn _ h => exact (turned_inst h :)
  | command _ h => exact (issued_inst h :)
  | write _ hr h => exact (writeReg_inst_ctxs hr h).1
  | _ => rfl

/-! ### Contexts -/

@[simp] theorem ctx_afterBlock_same (s : State) (n : Fin 16) (piece : Piece) :
    (afterBlock s n piece).ctx n =
      { s.ctx n with chain := (jobXform s.inst (s.ctx n) piece.input).2, blk := (s.ctx n).blk + 1 } :=
  State.ctx_setCtx_same _ n _

theorem ctx_afterBlock_other (s : State) {n m : Fin 16} (piece : Piece) (h : m ≠ n) :
    (afterBlock s n piece).ctx m = s.ctx m :=
  State.ctx_setCtx_other _ n m _ h

theorem ctx_finish_same (n : Fin 16) (c : Ctx) (l : Lifecycle) (e : ErrCode) (o : Nat) (s : State) :
    (finish n c l e o s).ctx n = { c with state := l, err := e, outlen := BitVec.ofNat 32 o } := by
  rw [ctx_finish, if_pos rfl]

theorem ctx_finish_other {n m : Fin 16} (h : m ≠ n) (c : Ctx) (l : Lifecycle) (e : ErrCode) (o : Nat) (s : State) :
    (finish n c l e o s).ctx m = s.ctx m := by
  rw [ctx_finish, if_neg h]

theorem ctx_failWith_same (n : Fin 16) (c : Ctx) (l : Lifecycle) (e : ErrCode) (s : State) :
    (failWith n c l e s).ctx n = { c with state := l, err := e, outlen := 0#32 } := by
  rw [ctx_failWith, if_pos rfl]

theorem ctx_failWith_other {n m : Fin 16} (h : m ≠ n) (c : Ctx) (l : Lifecycle) (e : ErrCode) (s : State) :
    (failWith n c l e s).ctx m = s.ctx m := by
  rw [ctx_failWith, if_neg h]

/-- An engine turn changes its own context only. -/
theorem turned_ctx_other {s t : State} {n m : Fin 16} (h : Turned s n t) (hm : m ≠ n) : t.ctx m = s.ctx m := by
  cases h with
  | passed => rfl
  | advanced => exact ctx_afterBlock_other s _ hm
  | ended => exact ctx_finish_other hm ..

theorem ctx_of_isJob {i : Instr} {op : Opcode} {n : Fin 16} (h : isJob i op n) : i.ctx? = some n := by
  obtain ⟨rfl, -⟩ | ⟨rfl, -⟩ | ⟨rfl, -⟩ | ⟨rfl, -⟩ := h <;> rfl

/-- A command changes no context but the one it names (30_encoding.md R128). -/
theorem issued_ctx_other {s t : State} {i : Instr} {m : Fin 16} (h : Issued s i t) (hm : i.ctx? ≠ some m) :
    t.ctx m = s.ctx m := by
  have other : ∀ {n : Fin 16}, i.ctx? = some n → m ≠ n := fun hn e => hm (e ▸ hn)
  cases h with
  | nop => rfl
  | rejected => rfl
  | initFailed hi => exact ctx_failWith_other (other (ctx_of_isInit hi)) ..
  | initDone hi => exact ctx_finish_other (other (ctx_of_isInit hi)) ..
  | started hi => exact State.ctx_setCtx_other _ _ _ _ (other (ctx_of_isJob hi))
  | spoiled hi => exact ctx_failWith_other (other (ctx_of_isJob hi)) ..
  | discarded => exact ctx_finish_other (other rfl) ..
  | aborted => exact ctx_failWith_other (other rfl) ..

/-- Every step leaves a context alone, or it is reset, a turn of the engine on it, or a command that names it. -/
theorem stepped_ctx {s t : State} {n : Fin 16} (h : Stepped s t) :
    t.ctx n = s.ctx n ∨
    ((∃ rest, s.agenda = .rst :: rest) ∧ t.ctx n = Ctx.reset s.inst) ∨
    ((s.agenda = [] ∨ ∃ rest, s.agenda = .engine n :: rest) ∧
      ∃ a k u, Turned { s with agenda := a, tick := k } n u ∧ t.ctx n = u.ctx n) ∨
    ∃ i rest u, s.nextCommand = some i ∧ i.ctx? = some n ∧ Issued { s with agenda := rest } i u ∧ t.ctx n = u.ctx n := by
  cases h with
  | idle => exact .inl rfl
  | reset ha => exact .inr (.inl ⟨⟨_, ha⟩, ctx_resetFor _ n⟩)
  | @turn m a k _ ha h =>
    by_cases hnm : n = m
    · subst hnm; exact .inr (.inr (.inl ⟨ha, a, k, t, h, rfl⟩))
    · exact .inl (turned_ctx_other h hnm :)
  | misaligned => exact .inl rfl
  | read => exact .inl rfl
  | @command i rest u hc h =>
    by_cases hn : i.ctx? = some n
    · exact .inr (.inr (.inr ⟨i, rest, u, hc, hn, h, rfl⟩))
    · exact .inl (issued_ctx_other h hn :)
  | malformed => exact .inl rfl
  | write _ hr h => exact .inl (State.ctx_congr (writeReg_inst_ctxs hr h).2 n)

/-! ### The key -/

/-- No engine turn changes the key (10_state.md R50). -/
theorem turned_key {s t : State} {n : Fin 16} (h : Turned s n t) : (t.ctx n).k = (s.ctx n).k := by
  cases h with
  | passed => rfl
  | advanced => rw [ctx_afterBlock_same]
  | ended => rw [ctx_finish_same]

/-- The only commands that change a key are INIT and DISCARD of its context (10_state.md R50). -/
theorem issued_key {s t : State} {i : Instr} {n : Fin 16} (h : Issued s i t) (hn : i.ctx? = some n)
    (hk : (t.ctx n).k ≠ (s.ctx n).k) : i = .discard n ∨ ∃ mode, isInit i mode n := by
  have named : ∀ {m : Fin 16}, i.ctx? = some m → m = n := fun hm => Option.some.inj (hm.symm.trans hn)
  cases h with
  | nop => cases hn
  | rejected => exact absurd rfl hk
  | initFailed hi => obtain rfl := named (ctx_of_isInit hi); exact .inr ⟨_, hi⟩
  | initDone hi => obtain rfl := named (ctx_of_isInit hi); exact .inr ⟨_, hi⟩
  | started hi => obtain rfl := named (ctx_of_isJob hi); rw [State.ctx_setCtx_same] at hk; exact absurd rfl hk
  | spoiled hi => obtain rfl := named (ctx_of_isJob hi); rw [ctx_failWith_same] at hk; exact absurd rfl hk
  | discarded => obtain rfl := named rfl; exact .inl rfl
  | aborted => obtain rfl := named rfl; rw [ctx_failWith_same] at hk; exact absurd rfl hk

/-! ### STATE -/

/-- How a job ends, by its opcode (10_state.md R47). -/
theorem stateAfterJob_cases {op : Opcode} {mode : Mode} {sh : JobShape} (h : jobShape op mode = some sh) :
    (op = .encrypt ∨ op = .decrypt) ∧ stateAfterJob op = .spent ∨
    (op = .pad ∨ op = .unpad) ∧ stateAfterJob op = .empty := by
  rcases job_op h with ho | ho
  · exact .inl ⟨ho, if_pos ho⟩
  · exact .inr ⟨ho, by rcases ho with rfl | rfl <;> rfl⟩

/-- An engine turn changes STATE only by the completion of the job (10_state.md R47). -/
theorem turned_state {s t : State} {n : Fin 16} (h : Turned s n t) (hst : (t.ctx n).state ≠ (s.ctx n).state) :
    (s.ctx n).blk = (s.ctx n).nblk ∧ (s.ctx n).state = .busy ∧
    (((s.ctx n).op = .encrypt ∨ (s.ctx n).op = .decrypt) ∧ (t.ctx n).state = .spent ∨
     ((s.ctx n).op = .pad ∨ (s.ctx n).op = .unpad) ∧ (t.ctx n).state = .empty) := by
  cases h with
  | passed => exact absurd rfl hst
  | advanced => rw [ctx_afterBlock_same] at hst; exact absurd rfl hst
  | ended hb hsh hend =>
    rw [ctx_finish_same]
    exact ⟨hend, ((busy_iff s n).1 hb).2, stateAfterJob_cases hsh⟩

/-- The changes of STATE a command can make to the context it names: the rows of the lifecycle table that commands take
(10_state.md R47). -/
inductive CommandRow (c d : Ctx) (n : Fin 16) : Instr → Prop
  | init {i : Instr} {mode : Mode} (hi : isInit i mode n) (hc : c.state ≠ .busy)
      (hd : d.state = .ready ∨ d.state = .empty) :
      CommandRow c d n i
  | stream {i : Instr} (hi : i = .encrypt n ∨ i = .decrypt n) (hc : c.state = .ready)
      (hd : d.state = .busy ∧ (d.op = .encrypt ∨ d.op = .decrypt) ∨
        d.state = .spent ∧ (d.err = .invalidLength ∨ d.err = .counterOverflow)) : CommandRow c d n i
  | copy {i : Instr} (hi : i = .pad n ∨ i = .unpad n) (hc : c.state = .empty) (hd : d.state = .busy)
      (ho : d.op = .pad ∨ d.op = .unpad) : CommandRow c d n i
  | discard (hc : c.state ≠ .busy) (hd : d.state = .empty) : CommandRow c d n (.discard n)
  | abort (hc : c.state = .busy)
      (hd : (c.op = .encrypt ∨ c.op = .decrypt) ∧ d.state = .spent ∨
        (c.op = .pad ∨ c.op = .unpad) ∧ d.state = .empty) :
      CommandRow c d n (.abort n)

/-- The command that starts a job, by what the job's opcode is. -/
theorem isJob_stream {i : Instr} {op : Opcode} {n : Fin 16} (h : isJob i op n) (ho : op = .encrypt ∨ op = .decrypt) :
    i = .encrypt n ∨ i = .decrypt n := by
  obtain ⟨hi, -⟩ | ⟨hi, -⟩ | ⟨-, rfl⟩ | ⟨-, rfl⟩ := h
  · exact .inl hi
  · exact .inr hi
  · simp at ho
  · simp at ho

theorem isJob_copy {i : Instr} {op : Opcode} {n : Fin 16} (h : isJob i op n) (ho : op = .pad ∨ op = .unpad) :
    i = .pad n ∨ i = .unpad n := by
  obtain ⟨-, rfl⟩ | ⟨-, rfl⟩ | ⟨hi, -⟩ | ⟨hi, -⟩ := h
  · simp at ho
  · simp at ho
  · exact .inl hi
  · exact .inr hi

/-- A command that starts a job takes its context from the STATE the job needs to BUSY (10_state.md R47). -/
theorem commandRow_started {s : State} {i : Instr} {op : Opcode} {n : Fin 16} {sh : JobShape} (hi : isJob i op n)
    (hj : JobChecks s n op sh) : CommandRow (s.ctx n) (startedCtx n op sh s) n i := by
  rcases job_op hj.shape with ho | ho
  · exact .stream (isJob_stream hi ho) (hj.state.trans (if_pos ho)) (.inl ⟨rfl, ho⟩)
  · exact .copy (isJob_copy hi ho) (hj.state.trans (by rcases ho with rfl | rfl <;> rfl)) rfl ho

/-- A command changes STATE only by a row of the lifecycle table (10_state.md R47). -/
theorem issued_state {s t : State} {i : Instr} {n : Fin 16} (hs : s.Good) (h : Issued s i t) (hn : i.ctx? = some n)
    (hst : (t.ctx n).state ≠ (s.ctx n).state) : CommandRow (s.ctx n) (t.ctx n) n i := by
  have named : ∀ {m : Fin 16}, i.ctx? = some m → m = n := fun hm => Option.some.inj (hm.symm.trans hn)
  cases h with
  | nop => cases hn
  | rejected => exact absurd rfl hst
  | initFailed hi _ hb =>
    obtain rfl := named (ctx_of_isInit hi)
    rw [ctx_failWith_same]; exact .init hi hb (.inr rfl)
  | initDone hi _ hb =>
    obtain rfl := named (ctx_of_isInit hi)
    rw [ctx_finish_same]; exact .init hi hb (.inl rfl)
  | started hi hj =>
    obtain rfl := named (ctx_of_isJob hi)
    rw [State.ctx_setCtx_same]; exact commandRow_started hi hj
  | spoiled hi ho _ hr hc =>
    obtain rfl := named (ctx_of_isJob hi)
    rw [ctx_failWith_same]; exact .stream (isJob_stream hi ho) hr (.inr ⟨rfl, hc⟩)
  | discarded _ hb =>
    obtain rfl := named rfl
    rw [ctx_finish_same]; exact .discard hb rfl
  | @aborted m hb =>
    obtain rfl := named rfl
    have hbusy := ((busy_iff s m).1 hb).2
    obtain ⟨sh, hsh, -⟩ := (hs.fields m (present_of_busy hb)).job hbusy
    rw [ctx_failWith_same]; exact .abort hbusy (stateAfterJob_cases hsh)

/-! ### An engine turn's own job -/

/-- An engine turn writes contexts, bytes and IRQ_STATUS only, and of IRQ_STATUS at most its context's CDONE. -/
theorem turned_frame {s t : State} {n : Fin 16} (h : Turned s n t) :
    (t.irqStatus = s.irqStatus ∨ t.irqStatus = s.irqStatus ||| cdoneBit n) ∧
    t = { s with ctxs := t.ctxs, mem := t.mem, irqStatus := t.irqStatus } := by
  cases h with
  | passed => exact ⟨.inl rfl, rfl⟩
  | advanced => exact ⟨.inl rfl, rfl⟩
  | ended => exact ⟨.inr rfl, rfl⟩

/-- In a well-formed state an engine turn writes no byte outside its job's destination (20_memory.md R106). -/
theorem turned_mem_outside {s t : State} {n : Fin 16} (hs : s.Good) (h : Turned s n t) {x : Nat}
    (hx : ¬ ((s.ctx n).jdst ≤ x ∧ x < (s.ctx n).jdst + (s.ctx n).maxout)) : t.mem.get x = s.mem.get x := by
  cases h with
  | passed => rfl
  | advanced hb hsh hlt =>
    obtain ⟨hout, -⟩ :=
      blockOutput_bounds hs.legal (hs.fields n (present_of_busy hb)) hsh (jobFields_of_busy hs hb hsh) hlt
    exact Memory.get_write_outside _ _ _ _ (by omega)
  | ended hb hsh _ _ hm =>
    have hlen := (jobFields_of_busy hs hb hsh).jlen_le_maxout hs.legal
    refine (Memory.get_write ..).trans (if_neg ?_)
    rw [zeros_length]
    omega

end Sys2Proof.Machine
end

section
/-! SUPPORT. The words the host reads: their fields by place, and the bits of the interrupt mask. -/

namespace Sys2Proof.Machine

/-! ### A field of a word -/

@[simp] theorem fieldAt_zero (lo : Nat) : fieldAt 0 lo = 0#32 := by simp [fieldAt]

/-- Bit `i` of a field at `lo` is bit `i - lo` of its value. -/
theorem getLsbD_fieldAt (v lo i : Nat) :
    (fieldAt v lo).getLsbD i = (decide (i < 32) && decide (lo ≤ i) && v.testBit (i - lo)) := by
  rw [fieldAt, BitVec.getLsbD_shiftLeft, BitVec.getLsbD_ofNat]
  by_cases h : i < lo
  · simp [h]
  · by_cases h32 : i < 32
    · simp [h, h32, show i - lo < 32 by omega, show lo ≤ i by omega]
    · simp [h32]

/-- A field read at its own place is its value. -/
theorem extractLsb'_fieldAt {v lo k : Nat} (hk : lo + k ≤ 32) : (fieldAt v lo).extractLsb' lo k = BitVec.ofNat k v := by
  apply BitVec.eq_of_getLsbD_eq
  intro i hi
  rw [BitVec.getLsbD_extractLsb', getLsbD_fieldAt, BitVec.getLsbD_ofNat]
  simp [hi, show lo + i < 32 by omega]

/-- A field of `w` bits is 0 at every place above it. -/
theorem extractLsb'_fieldAt_above {v w lo pos k : Nat} (hv : v < 2 ^ w) (h : lo + w ≤ pos) :
    (fieldAt v lo).extractLsb' pos k = 0#k := by
  apply BitVec.eq_of_getLsbD_eq
  intro i hi
  have hbit : v.testBit (pos + i - lo) = false :=
    Nat.testBit_eq_false_of_lt (Nat.lt_of_lt_of_le hv (Nat.pow_le_pow_right (by decide) (by omega)))
  rw [BitVec.getLsbD_extractLsb', getLsbD_fieldAt, hbit]
  simp

/-- A field is 0 at every place below it. -/
theorem extractLsb'_fieldAt_below {v lo pos k : Nat} (h : pos + k ≤ lo) : (fieldAt v lo).extractLsb' pos k = 0#k := by
  apply BitVec.eq_of_getLsbD_eq
  intro i hi
  rw [BitVec.getLsbD_extractLsb', getLsbD_fieldAt]
  simp [show ¬ lo ≤ pos + i by omega]

/-- Bit `i` of a word is its one-bit field at `i`. -/
theorem getLsbD_eq_extractLsb' (x : Word) (i : Nat) : x.getLsbD i = (x.extractLsb' i 1).getLsbD 0 := by
  simp

theorem code_lt_errCode (e : ErrCode) : e.code < 2 ^ 4 := by cases e <;> decide

theorem code_lt_opcode (o : Opcode) : o.code < 2 ^ 4 := by cases o <;> decide

theorem code_lt_lifecycle (l : Lifecycle) : l.code < 2 ^ 2 := by cases l <;> decide

theorem code_lt_mode (m : Mode) : m.code < 2 ^ 3 := by cases m <;> decide

theorem toNat_lt_bool (b : Bool) : b.toNat < 2 ^ 1 := by cases b <;> decide

/-! ### GSTATUS -/

/-- GSTATUS, place by place (10_state.md R33). -/
theorem gstatus_word_fields (g : Gstatus) :
    g.word.extractLsb' 0 4 = BitVec.ofNat 4 g.issueErr.code ∧ g.word.extractLsb' 4 4 = 0#4 ∧
    g.word.extractLsb' 8 4 = BitVec.ofNat 4 g.issueCtx.val ∧ g.word.extractLsb' 12 4 = 0#4 ∧
    g.word.extractLsb' 16 1 = BitVec.ofNat 1 g.rej.toNat ∧ g.word.extractLsb' 17 1 = BitVec.ofNat 1 g.buserr.toNat ∧
    g.word.extractLsb' 18 1 = BitVec.ofNat 1 g.wrconf.toNat ∧ g.word.extractLsb' 19 13 = 0#13 := by
  have herr := fun {pos k} => extractLsb'_fieldAt_above (lo := 0) (pos := pos) (k := k) (code_lt_errCode g.issueErr)
  have hctx := fun {pos k} => extractLsb'_fieldAt_above (w := 4) (lo := 8) (pos := pos) (k := k) g.issueCtx.isLt
  have hbit := fun {b lo pos k} => extractLsb'_fieldAt_above (lo := lo) (pos := pos) (k := k) (toNat_lt_bool b)
  simp [Gstatus.word, bitAt, BitVec.extractLsb'_or, extractLsb'_fieldAt, extractLsb'_fieldAt_below, herr, hctx, hbit]

/-- What an acknowledgement leaves of GSTATUS: each bit written 1 is cleared, the error with bit 16 (10_state.md R33). -/
theorem ackGstatus_gstatus (v : Word) (s : State) :
    (ackGstatus v s).gstatus =
      { issueErr := if v.getLsbD 16 = true then .none else s.gstatus.issueErr
        issueCtx := if v.getLsbD 16 = true then 0 else s.gstatus.issueCtx
        rej := if v.getLsbD 16 = true then false else s.gstatus.rej
        buserr := if v.getLsbD 17 = true then false else s.gstatus.buserr
        wrconf := if v.getLsbD 18 = true then false else s.gstatus.wrconf } := by
  have clear : ∀ g b : Bool, (g && !b) = if b = true then false else g := by decide
  simp only [ackGstatus, clear]

/-! ### CTXn_STATUS -/

/-- CTXn_STATUS, place by place (10_state.md R43). -/
theorem ctx_statusWord_fields (c : Ctx) :
    c.statusWord.extractLsb' 0 2 = BitVec.ofNat 2 c.state.code ∧ c.statusWord.extractLsb' 2 2 = 0#2 ∧
    c.statusWord.extractLsb' 4 3 = BitVec.ofNat 3 c.mode.code ∧ c.statusWord.extractLsb' 7 1 = 0#1 ∧
    c.statusWord.extractLsb' 8 4 = BitVec.ofNat 4 c.err.code ∧
    c.statusWord.extractLsb' 12 4 = BitVec.ofNat 4 c.lastop.code ∧ c.statusWord.extractLsb' 16 16 = 0#16 := by
  have hst := fun {pos k} => extractLsb'_fieldAt_above (lo := 0) (pos := pos) (k := k) (code_lt_lifecycle c.state)
  have hmode := fun {pos k} => extractLsb'_fieldAt_above (lo := 4) (pos := pos) (k := k) (code_lt_mode c.mode)
  have herr := fun {pos k} => extractLsb'_fieldAt_above (lo := 8) (pos := pos) (k := k) (code_lt_errCode c.err)
  have hop := fun {pos k} => extractLsb'_fieldAt_above (lo := 12) (pos := pos) (k := k) (code_lt_opcode c.lastop)
  simp [Ctx.statusWord, BitVec.extractLsb'_or, extractLsb'_fieldAt, extractLsb'_fieldAt_below, hst, hmode, herr, hop]

/-! ### CFG -/

/-- CFG, place by place (10_state.md R37). -/
theorem cfg_word_fields (c : Cfg) :
    c.word.extractLsb' 0 6 = c.keylen ∧ c.word.extractLsb' 8 5 = c.ivlen ∧ c.word.extractLsb' 16 5 = c.noncelen := by
  have hkey := fun {pos k} => extractLsb'_fieldAt_above (lo := 0) (pos := pos) (k := k) c.keylen.isLt
  have hiv := fun {pos k} => extractLsb'_fieldAt_above (lo := 8) (pos := pos) (k := k) c.ivlen.isLt
  simp [Cfg.word, BitVec.extractLsb'_or, extractLsb'_fieldAt, extractLsb'_fieldAt_below, hkey, hiv]

/-- What CFG keeps of a word written to it: the three fields (10_state.md R37). -/
theorem cfg_word_ofWord (v : Word) : (Cfg.ofWord v).word = v &&& 0x001F1F3F#32 := by
  have hmask : ∀ i, i < 32 → (0x001F1F3F#32).getLsbD i =
      (decide (i < 6) || decide (8 ≤ i ∧ i < 13) || decide (16 ≤ i ∧ i < 21)) := by decide
  apply BitVec.eq_of_getLsbD_eq
  intro i hi
  rw [BitVec.getLsbD_and, hmask i hi]
  simp only [Cfg.word, Cfg.ofWord, BitVec.getLsbD_or, getLsbD_fieldAt, BitVec.testBit_toNat, BitVec.getLsbD_extractLsb']
  by_cases h6 : i < 6
  · simp [h6, hi, show ¬ 8 ≤ i by omega, show ¬ 16 ≤ i by omega]
  by_cases h8 : i < 8
  · simp [h6, show ¬ 8 ≤ i by omega, show ¬ 16 ≤ i by omega]
  by_cases h16 : i < 16
  · simp [h6, hi, show 8 ≤ i by omega, show ¬ 16 ≤ i by omega, show i - 8 < 5 ↔ i < 13 by omega,
      show 8 + (i - 8) = i by omega, Bool.and_comm]
  · simp [h6, hi, show ¬ i < 13 by omega, show ¬ i - 8 < 5 by omega, show 16 ≤ i by omega,
      show i - 16 < 5 ↔ i < 21 by omega, show 16 + (i - 16) = i by omega, Bool.and_comm]

/-! ### PARAM0 -/

/-- PARAM0 of legal parameters, place by place (10_state.md R32). -/
theorem params_word0_fields {p : Params} (hl : p.legal = true) :
    (Params.word0 p).extractLsb' 0 8 = BitVec.ofNat 8 p.b ∧
    (Params.word0 p).extractLsb' 8 8 = BitVec.ofNat 8 p.keyBytes ∧
    (Params.word0 p).extractLsb' 16 5 = BitVec.ofNat 5 p.nctx ∧ (Params.word0 p).extractLsb' 21 3 = 0#3 ∧
    (Params.word0 p).extractLsb' 24 4 = BitVec.ofNat 4 p.nlanes ∧ (Params.word0 p).extractLsb' 28 4 = 0#4 := by
  have hL := legal_spec hl
  have hb := fun {pos k} => extractLsb'_fieldAt_above (v := p.b) (w := 8) (lo := 0) (pos := pos) (k := k) (by omega)
  have hk := fun {pos k} => extractLsb'_fieldAt_above (v := p.keyBytes) (w := 8) (lo := 8) (pos := pos) (k := k) (by omega)
  have hn := fun {pos k} => extractLsb'_fieldAt_above (v := p.nctx) (w := 5) (lo := 16) (pos := pos) (k := k) (by omega)
  have hn' := fun {pos k} => extractLsb'_fieldAt_above (v := p.nlanes) (w := 4) (lo := 24) (pos := pos) (k := k) (by omega)
  simp [Params.word0, BitVec.extractLsb'_or, extractLsb'_fieldAt, extractLsb'_fieldAt_below, hb, hk, hn, hn']

/-! ### Interrupts -/

/-- The implemented bits: one for each context there is, and bit 31 (10_state.md R34, R35). -/
theorem getLsbD_irqMask {p : Params} (hn : p.nctx ≤ 16) (i : Nat) :
    (irqMask p).getLsbD i = (decide (i < p.nctx) || decide (i = 31)) := by
  have hrej : rejIrqBit = BitVec.twoPow 32 31 := rfl
  rw [irqMask, hrej, BitVec.getLsbD_or, BitVec.getLsbD_ofNat, BitVec.getLsbD_twoPow, Nat.testBit_two_pow_sub_one]
  by_cases h : i < 32
  · simp [h, eq_comm]
  · simp [show ¬ i < p.nctx by omega, show i ≠ 31 by omega, show ¬ i < 32 by omega, show 31 ≠ i by omega]

/-- A word is not 0 exactly if one of its bits is set. -/
theorem word_ne_zero_iff (x : Word) : x ≠ 0#32 ↔ ∃ i, i < 32 ∧ x.getLsbD i = true := by
  constructor
  · intro h
    by_contra hc
    refine h (BitVec.eq_of_getLsbD_eq fun i hi => ?_)
    simpa using fun hx => hc ⟨i, hi, hx⟩
  · rintro ⟨i, -, hx⟩ rfl
    simp at hx

end Sys2Proof.Machine
end

section
/-! SUPPORT. The register map by offset, and what an aligned access to a register answers. -/

namespace Sys2Proof.Machine

/-! ### Accesses by register -/

/-- An aligned host read answers the register at the offset (20_memory.md R83). -/
theorem hostRead_reg {a : BitVec 16} {r : Reg} {s : State} (ha : a.toNat % 4 = 0) (hr : regAt s.inst a.toNat = r) :
    hostRead a s = .next { s with resp := some { slverr := false, data := some (readReg s r) } } := by
  rw [hostRead_aligned ha, hr]; rfl

/-- An aligned host write answers OKAY on top of the register's write (20_memory.md R83). -/
theorem hostWrite_reg {a : BitVec 16} {r : Reg} {v : Word} {s t : State} (ha : a.toNat % 4 = 0)
    (hr : regAt s.inst a.toNat = r) (hw : writeReg r v s = .next t) :
    hostWrite a v s = .next { t with resp := some { slverr := false, data := none } } := by
  rw [hostWrite_aligned_next ha (hr ▸ hw)]; rfl

/-! ### The register map -/

/-- The KEYj words (10_state.md R40). -/
theorem regAt_key (p : Params) {a : Nat} (h : 0x0040 ≤ a ∧ a < 0x0060) :
    regAt p a = .key (Fin.ofNat 8 ((a - 0x0040) / 4)) := by
  unfold regAt
  iterate 11 rw [if_neg (by omega)]
  rw [if_pos h]

/-- The IVj words (10_state.md R41). -/
theorem regAt_iv (p : Params) {a : Nat} (h : 0x0060 ≤ a ∧ a < 0x0070) :
    regAt p a = .iv (Fin.ofNat 4 ((a - 0x0060) / 4)) := by
  unfold regAt
  iterate 12 rw [if_neg (by omega)]
  rw [if_pos h]

/-- The CTRINITj words (10_state.md R42). -/
theorem regAt_ctrinit (p : Params) {a : Nat} (h : 0x0070 ≤ a ∧ a < 0x0080) :
    regAt p a = .ctrinit (Fin.ofNat 4 ((a - 0x0070) / 4)) := by
  unfold regAt
  iterate 13 rw [if_neg (by omega)]
  rw [if_pos h]

/-- The two words of a context there is (10_state.md R43, R44). -/
theorem regAt_ctx {p : Params} {a : Nat} {n : Fin 16} (hn : n.val < p.nctx) :
    (a = 0x0100 + 8 * n.val → regAt p a = .ctxStatus n) ∧ (a = 0x0104 + 8 * n.val → regAt p a = .ctxOutlen n) := by
  have hlt := n.isLt
  have hself : Fin.ofNat 16 n.val = n := Fin.ext (Nat.mod_eq_of_lt hlt)
  constructor <;> intro ha
  · have hslot : (a - 0x0100) / 8 = n.val := by omega
    unfold regAt
    iterate 14 rw [if_neg (by omega)]
    rw [if_pos (by omega), if_pos (by omega), hslot, hself]
  · have hslot : (a - 0x0100) / 8 = n.val := by omega
    unfold regAt
    iterate 14 rw [if_neg (by omega)]
    rw [if_pos (by omega), if_neg (by omega), hslot, hself]

/-- The offset of a word of a bank of registers, as a number. -/
theorem toNat_bankOffset {base k j : Nat} (h : base + k * j < 65536) :
    (BitVec.ofNat 16 (base + k * j)).toNat = base + k * j := by
  rw [BitVec.toNat_ofNat]; omega

theorem regAt_keyOffset (p : Params) (j : Fin 8) : regAt p (BitVec.ofNat 16 (0x0040 + 4 * j.val)).toNat = .key j := by
  have hj := j.isLt
  rw [toNat_bankOffset (by omega), regAt_key p (by omega)]
  exact congrArg Reg.key (Fin.ext (by simp only [Fin.ofNat]; omega))

theorem regAt_ivOffset (p : Params) (j : Fin 4) : regAt p (BitVec.ofNat 16 (0x0060 + 4 * j.val)).toNat = .iv j := by
  have hj := j.isLt
  rw [toNat_bankOffset (by omega), regAt_iv p (by omega)]
  exact congrArg Reg.iv (Fin.ext (by simp only [Fin.ofNat]; omega))

theorem regAt_ctrinitOffset (p : Params) (j : Fin 4) :
    regAt p (BitVec.ofNat 16 (0x0070 + 4 * j.val)).toNat = .ctrinit j := by
  have hj := j.isLt
  rw [toNat_bankOffset (by omega), regAt_ctrinit p (by omega)]
  exact congrArg Reg.ctrinit (Fin.ext (by simp only [Fin.ofNat]; omega))

theorem regAt_ctxStatusOffset {p : Params} {n : Fin 16} (hn : n.val < p.nctx) :
    regAt p (BitVec.ofNat 16 (0x0100 + 8 * n.val)).toNat = .ctxStatus n :=
  (regAt_ctx hn).1 (toNat_bankOffset (by omega))

theorem regAt_ctxOutlenOffset {p : Params} {n : Fin 16} (hn : n.val < p.nctx) :
    regAt p (BitVec.ofNat 16 (0x0104 + 8 * n.val)).toNat = .ctxOutlen n :=
  (regAt_ctx hn).2 (toNat_bankOffset (by omega))

/-- The words of the banks are aligned. -/
theorem bankOffset_aligned {base k j : Nat} (h : base + k * j < 65536) (hb : base % 4 = 0) (hk : k % 4 = 0) :
    (BitVec.ofNat 16 (base + k * j)).toNat % 4 = 0 := by
  rw [toNat_bankOffset h, Nat.add_mod, Nat.mul_mod, hb, hk, Nat.zero_mul]

/-! ### The staging registers but KEYj -/

/-- The offset of a staging register that the host can read back (20_memory.md R81). -/
def Reg.stagingOffset? : Reg → Option Nat
  | .cfg => some 0x0020
  | .src => some 0x0024
  | .dst => some 0x0028
  | .len => some 0x002C
  | .iv j => some (0x0060 + 4 * j.val)
  | .ctrinit j => some (0x0070 + 4 * j.val)
  | _ => none

theorem stagingOffset?_ite {c : Prop} [Decidable c] {x y : Reg} (hx : c → x.stagingOffset? = none)
    (hy : y.stagingOffset? = none) : (if c then x else y).stagingOffset? = none := by
  split
  · next h => exact hx h
  · exact hy

/-- No offset outside the two ranges reaches a readable staging register: each branch of the decode is another register, or
its offsets are in the ranges. -/
theorem stagingOffset?_regAt_outside (p : Params) {a : Nat}
    (h : ¬ ((0x0020 ≤ a ∧ a ≤ 0x002F) ∨ (0x0060 ≤ a ∧ a ≤ 0x007F))) : (regAt p a).stagingOffset? = none := by
  unfold regAt
  iterate 6 refine stagingOffset?_ite (fun _ => rfl) ?_
  iterate 4 refine stagingOffset?_ite (fun _ => by omega) ?_
  iterate 2 refine stagingOffset?_ite (fun _ => rfl) ?_
  iterate 2 refine stagingOffset?_ite (fun _ => by omega) ?_
  refine stagingOffset?_ite (fun _ => by split <;> rfl) ?_
  exact stagingOffset?_ite (fun _ => rfl) rfl

/-- The readable staging registers lie at 0x0020 to 0x002C and 0x0060 to 0x007C, and nothing else does. -/
theorem stagingOffset?_regAt (p : Params) {a : Nat} (ha : a % 4 = 0) :
    (regAt p a).stagingOffset? =
      if (0x0020 ≤ a ∧ a ≤ 0x002C) ∨ (0x0060 ≤ a ∧ a ≤ 0x007C) then some a else none := by
  split
  · next h =>
    have hcases : a = 0x0020 ∨ a = 0x0024 ∨ a = 0x0028 ∨ a = 0x002C ∨
        (0x0060 ≤ a ∧ a < 0x0070) ∨ (0x0070 ≤ a ∧ a < 0x0080) := by
      omega
    rcases hcases with rfl | rfl | rfl | rfl | h | h
    · rfl
    · rfl
    · rfl
    · rfl
    · rw [regAt_iv p h]
      simp only [Reg.stagingOffset?, Fin.ofNat, Option.some.injEq]
      omega
    · rw [regAt_ctrinit p h]
      simp only [Reg.stagingOffset?, Fin.ofNat, Option.some.injEq]
      omega
  · next h => exact stagingOffset?_regAt_outside p (by omega)

/-- No other aligned offset reaches the staging register that lies at `a`. -/
theorem regAt_eq_iff_of_staging {p : Params} {a b : BitVec 16} (ha : (regAt p a.toNat).stagingOffset? = some a.toNat)
    (hb : b.toNat % 4 = 0) : regAt p b.toNat = regAt p a.toNat ↔ b = a := by
  refine ⟨fun h => ?_, fun h => by rw [h]⟩
  have hoff := stagingOffset?_regAt p hb
  rw [h, ha] at hoff
  split at hoff
  · exact BitVec.eq_of_toNat_eq (Option.some.inj hoff).symm
  · cases hoff

theorem regAt_eq_cfg_iff {p : Params} {a : BitVec 16} (ha : (regAt p a.toNat).stagingOffset? = some a.toNat) :
    regAt p a.toNat = .cfg ↔ a = 0x0020#16 := by
  have hcfg : regAt p (0x0020#16).toNat = .cfg := rfl
  rw [eq_comm, eq_comm (a := a), ← regAt_eq_iff_of_staging ha (by decide), hcfg]

/-- A write to a readable staging register is read back there, in CFG with the reserved bits 0, and seen nowhere else
(10_state.md R37, R38, R41, R42). -/
theorem readReg_after_staging {r : Reg} {k : Nat} (hr : r.stagingOffset? = some k) {v : Word} {s t : State}
    (hw : writeReg r v s = .next t) (q : Reg) :
    readReg t q = if q = r then (if r = .cfg then v &&& 0x001F1F3F#32 else v) else readReg s q := by
  split
  · next hq =>
    subst hq
    cases q with
    | cfg => cases hw; exact cfg_word_ofWord v
    | iv j => cases hw; exact Vector.getElem_set_self _
    | ctrinit j => cases hw; exact Vector.getElem_set_self _
    | src => cases hw; rfl
    | dst => cases hw; rfl
    | len => cases hw; rfl
    | _ => cases hr
  · next hq =>
    cases r with
    | cfg => cases hw; cases q with | cfg => exact absurd rfl hq | _ => rfl
    | src => cases hw; cases q with | src => exact absurd rfl hq | _ => rfl
    | dst => cases hw; cases q with | dst => exact absurd rfl hq | _ => rfl
    | len => cases hw; cases q with | len => exact absurd rfl hq | _ => rfl
    | iv j =>
      cases hw
      cases q with
      | iv i => exact Vector.getElem_set_ne j.isLt i.isLt fun e => hq (congrArg Reg.iv (Fin.ext e.symm))
      | _ => rfl
    | ctrinit j =>
      cases hw
      cases q with
      | ctrinit i => exact Vector.getElem_set_ne j.isLt i.isLt fun e => hq (congrArg Reg.ctrinit (Fin.ext e.symm))
      | _ => rfl
    | _ => cases hr

/-- A write to a readable staging register touches those registers only (10_state.md R51). -/
theorem writeReg_staging_frame {r : Reg} {k : Nat} (hr : r.stagingOffset? = some k) (v : Word) (s : State) :
    ∃ t, writeReg r v s = .next t ∧
      t = { s with cfg := t.cfg, src := t.src, dst := t.dst, len := t.len, iv := t.iv, ctrinit := t.ctrinit } := by
  cases r with
  | cfg | src | dst | len | iv | ctrinit => exact ⟨_, rfl, rfl⟩
  | _ => cases hr

/-! ### What a read sees of two states -/

theorem SameVisible.gated {s t : State} (h : SameVisible s t) (x : Nat) : gated s x = gated t x := by
  have hb : ∀ m, busy s m = busy t m := fun m => busy_congr h.inst (h.ctxs m).1
  have hd : ∀ m, inDest (s.ctx m) x = inDest (t.ctx m) x := fun m => by
    obtain ⟨-, -, -, -, -, hdst, hout⟩ := h.ctxs m
    simp only [inDest, hdst, hout]
  simp only [Machine.gated, hb, hd]

/-- No register shows what two states hide (10_state.md R45, R56). -/
theorem SameVisible.readReg {s t : State} (h : SameVisible s t) (r : Reg) : readReg s r = readReg t r := by
  cases r with
  | id | cmd | key | reserved => rfl
  | param0 => exact congrArg Params.word0 h.inst
  | param1 => exact congrArg Params.word1 h.inst
  | gstatus => exact congrArg Gstatus.word h.gstatus
  | irqStatus => exact h.irqStatus
  | irqEnable => exact h.irqEnable
  | cfg => exact congrArg Cfg.word h.cfg
  | src => exact h.jobRegs.1
  | dst => exact h.jobRegs.2.1
  | len => exact h.jobRegs.2.2
  | iv j => exact congrArg (fun x : Vector Word 4 => x[j.val]) h.iv
  | ctrinit j => exact congrArg (fun x : Vector Word 4 => x[j.val]) h.ctrinit
  | ctxStatus n =>
    obtain ⟨hst, hmode, herr, hop, -⟩ := h.ctxs n
    simp only [Machine.readReg, Ctx.statusWord, hst, hmode, herr, hop]
  | ctxOutlen n =>
    obtain ⟨-, -, -, -, hout, -⟩ := h.ctxs n
    exact hout
  | msgmem j => simp only [Machine.readReg, readMsgmem, gatedByte, h.gated, h.mem]

theorem SameVisible.respond {s t : State} (h : SameVisible s t) (e : Bool) (d : Option Word) :
    SameVisible (respond e d s) (respond e d t) :=
  ⟨h.inst, h.gstatus, h.irqStatus, h.irqEnable, h.cfg, h.jobRegs, h.iv, h.ctrinit, h.mem, h.ctxs⟩

theorem SameVisible.setBuserr {s t : State} (h : SameVisible s t) : SameVisible (setBuserr s) (setBuserr t) :=
  ⟨h.inst, congrArg (fun g : Gstatus => { g with buserr := true }) h.gstatus, h.irqStatus, h.irqEnable, h.cfg, h.jobRegs,
    h.iv, h.ctrinit, h.mem, h.ctxs⟩

end Sys2Proof.Machine
end

section
/-! SUPPORT. The staging strings, the values after reset, and a job at its start. -/

namespace Sys2Proof.Machine

/-! ### Staging strings -/

/-- Byte `b` of a word's string (00_scope.md R11). -/
theorem getD_leBytes (w : Word) (b : Fin 4) : (leBytes w).getD b.val 0#8 = w.extractLsb' (8 * b.val) 8 := by
  match b with
  | 0 => rfl
  | 1 => rfl
  | 2 => rfl
  | 3 => rfl

/-- Byte `4j + b` of a string of words is byte `b` of word `j` (10_state.md R40, R41). -/
theorem getD_flatMap_leBytes (ws : List Word) (j : Nat) (hj : j < ws.length) (b : Fin 4) :
    (ws.flatMap leBytes).getD (4 * j + b.val) 0#8 = ws[j].extractLsb' (8 * b.val) 8 := by
  induction ws generalizing j with
  | nil => exact absurd hj (Nat.not_lt_zero j)
  | cons w rest ih =>
    have hb := b.isLt
    rw [List.flatMap_cons]
    cases j with
    | zero =>
      rw [List.getD_append _ _ _ _ (by rw [leBytes_length]; omega), Nat.mul_zero, Nat.zero_add]
      exact getD_leBytes w b
    | succ j =>
      rw [List.getD_append_right _ _ _ _ (by rw [leBytes_length]; omega), leBytes_length,
        show 4 * (j + 1) + b.val - 4 = 4 * j + b.val by omega]
      exact ih j (Nat.lt_of_succ_lt_succ hj)

/-! ### Reset -/

theorem ctx_resetStep (s : State) (n : Fin 16) : (resetStep s).ctx n = Ctx.reset s.inst := ctx_resetFor s.inst n

/-- Reset sets every row of the table of reset values (10_state.md R57). -/
theorem resetValues_resetStep (s : State) : ResetValues (resetStep s) where
  gstatus := by simp [Gstatus.word, bitAt, ErrCode.code]
  irqStatus := rfl
  irqEnable := rfl
  cfg := by simp [Cfg.word]
  jobRegs := ⟨rfl, rfl, rfl⟩
  key := rfl
  iv := rfl
  ctrinit := by simp [startCounter]
  lifecycle n := by rw [ctx_resetStep]; rfl
  status n := by
    rw [ctx_resetStep]
    exact ⟨by simp [Ctx.statusWord, Ctx.reset, Lifecycle.code, Mode.code, ErrCode.code, Opcode.code], rfl, rfl, rfl⟩
  k n := by rw [ctx_resetStep]; rfl
  chain n := by rw [ctx_resetStep]; rfl
  job n := by rw [ctx_resetStep]; exact ⟨rfl, rfl, rfl, rfl, rfl, rfl⟩
  mem _ := rfl
  irq := by simp [State.irq]

/-! ### A job at its start -/

/-- With no block done, a job has computed nothing and CHAIN is what it began with (10_state.md R53). -/
theorem jobFold_nil (p : Params) (c : Ctx) (chain : Bytes) : jobFold p c [] chain = ([], chain) := by
  unfold jobFold
  split <;> rfl

/-- A job that has just started has done no block of the bytes of its source (43_stream_driver.md R270, 41_padding.md
R190). -/
theorem jobProgress_started {s : State} {n : Fin 16} {op : Opcode} {sh : JobShape} (hs : s.Good)
    (hj : JobChecks s n op sh) :
    JobProgress (s.setCtx n (startedCtx n op sh s)) n (s.mem.read s.src.toNat s.len.toNat) (s.ctx n).chain := by
  have hf := hs.fields n hj.present
  have hbusy : busy (s.setCtx n (startedCtx n op sh s)) n = true :=
    (busy_iff ..).2 ⟨(present_iff s n).1 hj.present, by rw [State.ctx_setCtx_same]; rfl⟩
  refine ⟨hbusy, ?_, hf.chain_len, sh, ?_, ?_⟩
  · rw [State.ctx_setCtx_same, Memory.read_length]; rfl
  · rw [State.ctx_setCtx_same]; exact hj.shape
  · have hblk : (startedCtx n op sh s).blk = 0 := rfl
    simp only [State.ctx_setCtx_same, hblk, List.take_zero, jobFold_nil, Nat.zero_mul]
    exact ⟨rfl, rfl, rfl⟩

/-- A command that makes a context BUSY starts a job on it. -/
theorem issued_starts {s t : State} {i : Instr} {n : Fin 16} (h : Issued s i t) (hs : busy s n = false)
    (ht : busy t n = true) :
    ∃ op sh, JobChecks s n op sh ∧ t = s.setCtx n (startedCtx n op sh s) := by
  have changed : t.inst = s.inst → t.ctx n ≠ s.ctx n := fun hi e => by
    rw [busy_congr hi (congrArg Ctx.state e), hs] at ht; cases ht
  have hst : (t.ctx n).state = .busy := ((busy_iff t n).1 ht).2
  have named : i.ctx? = some n := Decidable.of_not_not fun hn => changed (issued_inst h) (issued_ctx_other h hn)
  have here : ∀ {m : Fin 16}, i.ctx? = some m → m = n := fun hm => Option.some.inj (hm.symm.trans named)
  cases h with
  | nop => cases named
  | rejected => exact absurd rfl (changed rfl)
  | initFailed hi =>
    obtain rfl := here (ctx_of_isInit hi)
    rw [ctx_failWith_same] at hst; cases hst
  | initDone hi =>
    obtain rfl := here (ctx_of_isInit hi)
    rw [ctx_finish_same] at hst; cases hst
  | started hi hj =>
    obtain rfl := here (ctx_of_isJob hi)
    exact ⟨_, _, hj, rfl⟩
  | spoiled hi =>
    obtain rfl := here (ctx_of_isJob hi)
    rw [ctx_failWith_same] at hst; cases hst
  | discarded =>
    obtain rfl := here rfl
    rw [ctx_finish_same] at hst; cases hst
  | aborted hb =>
    obtain rfl := here rfl
    rw [hs] at hb; cases hb

end Sys2Proof.Machine
end

section
/-! PROOFS. The invariant: it holds after reset, and every step keeps it. -/

namespace Sys2Proof.Proofs

open Sys2Proof.Machine

/-- Settles O50: a step is one of the outcomes of `Stepped`, and each keeps a state well formed. -/
theorem stepKeepsGood : Obligations.StepKeepsGood := fun _ _ hs h => good_of_stepped hs (stepped_of_step h)

/-- Settles O49. -/
theorem resetIsGood : Obligations.ResetIsGood := ⟨fun _ hl => good_resetFor hl, good_resetFor (by decide)⟩

end Sys2Proof.Proofs
end

section
/-! PROOFS. What no step changes, and the only ways STATE and a key change. -/

namespace Sys2Proof.Proofs

open Sys2Proof.Machine

/-- Settles O32. -/
theorem engineTurnStaysInItsJob : Obligations.EngineTurnStaysInItsJob := by
  refine ⟨fun s n hb => by simp [engineTurn, hb], fun s t n hs h => ?_⟩
  have ht := turned_of_engineTurn h
  obtain ⟨hirq, hframe⟩ := turned_frame ht
  exact ⟨fun _ hm => turned_ctx_other ht hm, hirq, fun _ hx => turned_mem_outside hs ht hx, hframe⟩

/-- Settles O52: the step is the idle one, reset, the engine's or a command's on that context. -/
theorem lifecycleTransitionsExactly : Obligations.LifecycleTransitionsExactly := by
  intro s t n hs h hst
  rcases stepped_ctx (n := n) (stepped_of_step h) with
    heq | ⟨ha, hr⟩ | ⟨ha, a, k, u, hu, heq⟩ | ⟨i, rest, u, hc, hn, hu, heq⟩
  · exact absurd (congrArg Ctx.state heq) hst
  · exact .inl ⟨ha, by rw [hr]; rfl⟩
  · rw [heq] at hst ⊢
    obtain ⟨hend, hb, hrow⟩ := turned_state hu hst
    exact .inr (.inr (.inr (.inr (.inr ⟨.inr ⟨ha, hend⟩, hb, hrow⟩))))
  · rw [heq] at hst ⊢
    have hrow : CommandRow (s.ctx n) (u.ctx n) n i :=
      (issued_state (hs.schedule rest s.tick) hu hn hst :)
    cases hrow with
    | init hi hb hd => exact .inr (.inl ⟨⟨_, _, hc, hi⟩, hb, hd⟩)
    | stream hi hr hd => exact .inr (.inr (.inl ⟨by rw [hc]; simpa using hi, hr, hd⟩))
    | copy hi he hd ho => exact .inr (.inr (.inr (.inl ⟨by rw [hc]; simpa using hi, he, hd, ho⟩)))
    | discard hb hd => exact .inr (.inr (.inr (.inr (.inl ⟨hc, hb, hd⟩))))
    | abort hb hd => exact .inr (.inr (.inr (.inr (.inr ⟨.inl hc, hb, hd⟩))))

/-- Settles O53. -/
theorem keyChangesOnlyByInitDiscardReset : Obligations.KeyChangesOnlyByInitDiscardReset := by
  intro s t n h hk
  rcases stepped_ctx (n := n) (stepped_of_step h) with
    heq | ⟨ha, -⟩ | ⟨-, a, k, u, hu, heq⟩ | ⟨i, rest, u, hc, hn, hu, heq⟩
  · exact absurd (congrArg Ctx.k heq) hk
  · exact .inl ha
  · rw [heq] at hk
    exact absurd (turned_key hu) hk
  · rw [heq] at hk
    rcases issued_key hu hn hk with rfl | ⟨mode, hi⟩
    · exact .inr (.inl hc)
    · exact .inr (.inr ⟨i, mode, hc, hi⟩)

end Sys2Proof.Proofs
end

section
/-! PROOFS. The host's registers, the staging strings, reset, and a job at its start. -/

namespace Sys2Proof.Proofs

open Sys2Proof.Machine

/-- Settles O37. -/
theorem idAndParamsAreConstant : Obligations.IdAndParamsAreConstant := by
  refine ⟨fun s t h => stepped_inst (stepped_of_step h), fun s hl => ?_⟩
  have hL := legal_spec hl
  obtain ⟨hb, hk, hn, hz, hlanes, hz'⟩ := params_word0_fields hl
  refine ⟨hostRead_reg (by decide) rfl, ⟨_, hostRead_reg (r := .param0) (by decide) rfl, ?_, ?_, ?_, hz, ?_, hz'⟩,
    ⟨_, hostRead_reg (r := .param1) (by decide) rfl, ?_⟩, ?_⟩
  · exact (congrArg BitVec.toNat hb).trans (by rw [BitVec.toNat_ofNat]; omega)
  · exact (congrArg BitVec.toNat hk).trans (by rw [BitVec.toNat_ofNat]; omega)
  · exact (congrArg BitVec.toNat hn).trans (by rw [BitVec.toNat_ofNat]; omega)
  · exact (congrArg BitVec.toNat hlanes).trans (by rw [BitVec.toNat_ofNat]; omega)
  · simp only [readReg, Params.word1, BitVec.toNat_ofNat]
    omega
  · rintro a v (rfl | rfl | rfl)
    · exact hostWrite_reg (r := .id) (by decide) rfl rfl
    · exact hostWrite_reg (r := .param0) (by decide) rfl rfl
    · exact hostWrite_reg (r := .param1) (by decide) rfl rfl

/-- Settles O38. -/
theorem gstatusFieldsAndWriteOneClear : Obligations.GstatusFieldsAndWriteOneClear := by
  intro s w
  obtain ⟨herr, h4, hctx, h12, hrej, hbuserr, hwrconf, h19⟩ := gstatus_word_fields s.gstatus
  have code : ∀ {e : ErrCode}, s.gstatus.issueErr = e → s.gstatus.word.extractLsb' 0 4 = BitVec.ofNat 4 e.code :=
    fun he => he ▸ herr
  have bit : ∀ {b : Bool} {i : Nat}, s.gstatus.word.extractLsb' i 1 = BitVec.ofNat 1 b.toNat →
      s.gstatus.word.getLsbD i = b := fun {b i} h => by
    rw [getLsbD_eq_extractLsb', h]; cases b <;> rfl
  refine ⟨⟨s.gstatus.word, hostRead_reg (r := .gstatus) (by decide) rfl, code, code, code, code, code, code, code, code,
    code, code, h4, ?_, h12, bit hrej, bit hbuserr, bit hwrconf, h19⟩, ?_⟩
  · rw [hctx]
    exact Fin.ext (Nat.mod_eq_of_lt s.gstatus.issueCtx.isLt)
  · rw [hostWrite_reg (r := .gstatus) (by decide) rfl rfl, ackGstatus_gstatus]
    rfl

/-- Settles O39. -/
theorem interruptRegistersBitByBit : Obligations.InterruptRegistersBitByBit := by
  intro s w hn
  refine ⟨hostRead_reg (r := .irqStatus) (by decide) rfl, hostRead_reg (r := .irqEnable) (by decide) rfl,
    ⟨s.irqStatus &&& ~~~(w &&& irqMask s.inst), hostWrite_reg (r := .irqStatus) (t := ackIrq w s) (by decide) rfl rfl,
      fun i => ?_⟩,
    ⟨w &&& irqMask s.inst,
      hostWrite_reg (r := .irqEnable) (t := { s with irqEnable := w &&& irqMask s.inst }) (by decide) rfl rfl,
      fun i => ?_⟩⟩
  · rw [BitVec.getLsbD_and, BitVec.getLsbD_not, BitVec.getLsbD_and, getLsbD_irqMask hn]
    by_cases h : i < 32
    · simp [h]
    · simp [h, BitVec.getLsbD_of_ge s.irqStatus i (by omega)]
  · rw [BitVec.getLsbD_and, getLsbD_irqMask hn]

/-- Settles O40. -/
theorem irqLineIsPendingAndEnabled : Obligations.IrqLineIsPendingAndEnabled := by
  intro s
  rw [State.irq, bne_iff_ne, word_ne_zero_iff]
  simp only [BitVec.getLsbD_and, Bool.and_eq_true]

/-- Settles O41: the offsets tell the staging registers apart, and a write shows in its own register only. -/
theorem stagingRegistersReadBack : Obligations.StagingRegistersReadBack := by
  refine ⟨fun v s => ⟨?_, ?_, ?_, ?_, fun j => ?_, fun j => ?_⟩,
    fun s => ⟨⟨s.cfg.word, ?_, ?_⟩, ?_, ?_, ?_, fun j => ?_, fun j => ?_⟩,
    fun a v s ha hrange => ?_⟩
  · exact hostWrite_reg (r := .cfg) (t := { s with cfg := Cfg.ofWord v }) (by decide) rfl rfl
  · exact hostWrite_reg (r := .src) (t := { s with src := v }) (by decide) rfl rfl
  · exact hostWrite_reg (r := .dst) (t := { s with dst := v }) (by decide) rfl rfl
  · exact hostWrite_reg (r := .len) (t := { s with len := v }) (by decide) rfl rfl
  · exact hostWrite_reg (t := { s with iv := s.iv.set j.val v }) (bankOffset_aligned (by omega) rfl rfl)
      (regAt_ivOffset s.inst j) rfl
  · exact hostWrite_reg (t := { s with ctrinit := s.ctrinit.set j.val v }) (bankOffset_aligned (by omega) rfl rfl)
      (regAt_ctrinitOffset s.inst j) rfl
  · exact hostRead_reg (r := .cfg) (by decide) rfl
  · exact cfg_word_fields s.cfg
  · exact hostRead_reg (r := .src) (by decide) rfl
  · exact hostRead_reg (r := .dst) (by decide) rfl
  · exact hostRead_reg (r := .len) (by decide) rfl
  · exact hostRead_reg (bankOffset_aligned (by omega) rfl rfl) (regAt_ivOffset s.inst j)
  · exact hostRead_reg (bankOffset_aligned (by omega) rfl rfl) (regAt_ctrinitOffset s.inst j)
  · have hoff : (regAt s.inst a.toNat).stagingOffset? = some a.toNat := by
      rw [stagingOffset?_regAt s.inst ha, if_pos hrange]
    obtain ⟨t, hw, hframe⟩ := writeReg_staging_frame hoff v s
    have hinst : t.inst = s.inst := by rw [hframe]
    refine ⟨_, hostWrite_reg ha rfl hw, by rw [hframe], fun a' ha' => ?_⟩
    rw [hostRead_reg ha' rfl]
    have hread := readReg_after_staging hoff hw (regAt s.inst a'.toNat)
    simp only [regAt_eq_iff_of_staging hoff ha', regAt_eq_cfg_iff hoff] at hread
    rw [← hread, ← hinst]
    rfl

/-- Settles O43. -/
theorem stagingStringsAreLittleEndian : Obligations.StagingStringsAreLittleEndian := fun s =>
  ⟨keyString_length s, ivString_length s,
    fun j b => getD_flatMap_leBytes s.key.toList j.val (by simp) b,
    fun j b => getD_flatMap_leBytes s.iv.toList j.val (by simp) b, rfl⟩

/-- Settles O44. -/
theorem contextStatusShowsFields : Obligations.ContextStatusShowsFields := by
  intro s n w hn
  obtain ⟨hstate, h2, hmode, h7, herr, hop, h16⟩ := ctx_statusWord_fields (s.ctx n)
  have state : ∀ {l : Lifecycle}, (s.ctx n).state = l → (s.ctx n).statusWord.extractLsb' 0 2 = BitVec.ofNat 2 l.code :=
    fun h => h ▸ hstate
  have mode : ∀ {m : Mode}, (s.ctx n).mode = m → (s.ctx n).statusWord.extractLsb' 4 3 = BitVec.ofNat 3 m.code :=
    fun h => h ▸ hmode
  have err : ∀ {e : ErrCode}, (s.ctx n).err = e → (s.ctx n).statusWord.extractLsb' 8 4 = BitVec.ofNat 4 e.code :=
    fun h => h ▸ herr
  have lastop : ∀ {o : Opcode}, (s.ctx n).lastop = o → (s.ctx n).statusWord.extractLsb' 12 4 = BitVec.ofNat 4 o.code :=
    fun h => h ▸ hop
  have hstatus := regAt_ctxStatusOffset hn
  have houtlen := regAt_ctxOutlenOffset hn
  have hal : (BitVec.ofNat 16 (0x0100 + 8 * n.val)).toNat % 4 = 0 := bankOffset_aligned (by omega) rfl rfl
  have hal' : (BitVec.ofNat 16 (0x0104 + 8 * n.val)).toNat % 4 = 0 := bankOffset_aligned (by omega) rfl rfl
  exact ⟨⟨(s.ctx n).statusWord, hostRead_reg hal hstatus, state, state, state, state, mode, mode, mode, mode, mode,
    err, err, err, err, err, err, err, err, err, err, lastop, lastop, lastop, lastop, lastop, lastop, lastop, lastop,
    h2, h7, h16⟩, hostRead_reg hal' houtlen, hostWrite_reg hal hstatus rfl, hostWrite_reg hal' houtlen rfl⟩

/-- Settles O47. -/
theorem readsRevealNoHiddenState : Obligations.ReadsRevealNoHiddenState := by
  intro s t a h
  by_cases ha : a.toNat % 4 = 0
  · refine ⟨_, _, hostRead_aligned ha s, hostRead_aligned ha t, ?_, ?_⟩
    · rw [h.readReg, h.inst]; rfl
    · rw [h.readReg, h.inst]; exact h.respond _ _
  · exact ⟨_, _, hostRead_misaligned ha s, hostRead_misaligned ha t, rfl, h.setBuserr.respond _ _⟩

/-- Settles O58. -/
theorem startedJobHasProgress : Obligations.StartedJobHasProgress := by
  intro s t i n hs h hidle hbusy
  obtain ⟨op, sh, hj, rfl⟩ := issued_starts (issued_of_exec h) hidle hbusy
  exact ⟨jobProgress_started hs hj, by rw [State.ctx_setCtx_same]; rfl⟩

/-- Settles O42. -/
theorem keyAndCommandRegistersReadZero : Obligations.KeyAndCommandRegistersReadZero := by
  refine ⟨fun a s ha hrange => ?_, fun j v s => ?_⟩
  · rcases hrange with hcmd | hkey
    · exact hostRead_reg (r := .cmd) ha (by rw [hcmd]; rfl)
    · exact hostRead_reg ha (regAt_key s.inst (by omega))
  · exact hostWrite_reg (t := { s with key := s.key.set j.val v }) (bankOffset_aligned (by omega) rfl rfl)
      (regAt_keyOffset s.inst j) rfl

/-- Settles O48. -/
theorem resetSetsEveryState : Obligations.ResetSetsEveryState := by
  refine ⟨fun s rest ha => ⟨resetStep { s with agenda := rest }, ?_, rfl, resetValues_resetStep _⟩,
    resetValues_resetStep State.reset⟩
  rw [step_cons ha, runEvent_rst]

end Sys2Proof.Proofs
end

section
/-! SUPPORT. The host's accesses to MSGMEM and to reserved offsets: the sets they look at, the words they carry, and the
engine's choice where no access is left. -/

namespace Sys2Proof.Machine

/-! ### Ranges of MSGMEM, by their ends -/

/-- The source range of a job (20_memory.md R87). -/
theorem inSource_iff (c : Ctx) (x : Nat) : inSource c x = true ↔ c.jsrc ≤ x ∧ x < c.jsrc + c.jlen :=
  inRange_iff c.jsrc c.jlen x

/-- The destination range of a job (20_memory.md R87). -/
theorem inDest_iff (c : Ctx) (x : Nat) : inDest c x = true ↔ c.jdst ≤ x ∧ x < c.jdst + c.maxout :=
  inRange_iff c.jdst c.maxout x

/-- The read-gated set (20_memory.md R87). -/
theorem gated_iff_ranges (s : State) (x : Nat) :
    gated s x = true ↔ ∃ m : Fin 16, m.val < s.inst.nctx ∧ (s.ctx m).state = .busy ∧
      (s.ctx m).jdst ≤ x ∧ x < (s.ctx m).jdst + (s.ctx m).maxout := by
  simp only [gated_iff, busy_iff, inDest_iff, and_assoc]

/-- The write-locked set (20_memory.md R87). -/
theorem locked_iff_ranges (s : State) (x : Nat) :
    locked s x = true ↔ ∃ m : Fin 16, m.val < s.inst.nctx ∧ (s.ctx m).state = .busy ∧
      (((s.ctx m).jsrc ≤ x ∧ x < (s.ctx m).jsrc + (s.ctx m).jlen) ∨
       ((s.ctx m).jdst ≤ x ∧ x < (s.ctx m).jdst + (s.ctx m).maxout)) := by
  simp only [locked_iff, busy_iff, inSource_iff, inDest_iff, and_assoc]

/-- Two ranges are disjoint exactly if no offset of the one lies in the other (20_memory.md R90). -/
theorem disjoint_iff_forall_not (a n b m : Nat) :
    disjoint a n b m = true ↔ ∀ x, (a ≤ x ∧ x < a + n) → ¬ (b ≤ x ∧ x < b + m) := by
  simp only [disjoint_spec, inRange_iff, not_and]

/-! ### The register map outside the registers -/

/-- The words of MSGMEM (20_memory.md R83). -/
theorem regAt_msgmem {p : Params} {j : Nat} (h : j < p.msgmemBytes) : regAt p (0x8000 + j) = .msgmem j := by
  unfold regAt
  iterate 15 rw [if_neg (by omega)]
  rw [if_pos (by omega), Nat.add_sub_cancel_left]

/-- The reserved offsets (20_memory.md R81). -/
theorem regAt_reserved {p : Params} {a : Nat} (ha : a % 4 = 0)
    (h : a = 0x000C ∨ a = 0x001C ∨ (0x0034 ≤ a ∧ a ≤ 0x003C) ∨ (0x0080 ≤ a ∧ a ≤ 0x00FC) ∨
      (0x0100 + 8 * p.nctx ≤ a ∧ a ≤ 0x7FFC) ∨ 0x8000 + p.msgmemBytes ≤ a) : regAt p a = .reserved := by
  unfold regAt
  iterate 16 rw [if_neg (by omega)]

theorem toNat_msgmemOffset {j : Nat} (h : j < 32768) : (BitVec.ofNat 16 (0x8000 + j)).toNat = 0x8000 + j := by
  rw [BitVec.toNat_ofNat]; omega

/-! ### Reading a word of MSGMEM -/

/-- A byte above the lowest one of a bit string lies in what stands before that. -/
theorem extractLsb'_append_byte {v k : Nat} (hi : BitVec v) (lo : Byte) :
    (hi ++ lo).extractLsb' (8 + k) 8 = hi.extractLsb' k 8 := by
  rw [BitVec.extractLsb'_append_eq_of_le (by omega), Nat.add_sub_cancel_left]

/-- The four bytes of a word put together little-endian (20_memory.md R86). -/
theorem extractLsb'_leWord (b0 b1 b2 b3 : Byte) :
    (leWord b0 b1 b2 b3).extractLsb' 0 8 = b0 ∧ (leWord b0 b1 b2 b3).extractLsb' 8 8 = b1 ∧
    (leWord b0 b1 b2 b3).extractLsb' 16 8 = b2 ∧ (leWord b0 b1 b2 b3).extractLsb' 24 8 = b3 := by
  have hb2 : (b3 ++ b2 ++ b1).extractLsb' 8 8 = b2 :=
    (extractLsb'_append_byte (k := 0) (b3 ++ b2) b1).trans BitVec.extractLsb'_append_eq_right
  have hb3 : (b3 ++ b2 ++ b1).extractLsb' 16 8 = b3 :=
    (extractLsb'_append_byte (k := 8) (b3 ++ b2) b1).trans BitVec.extractLsb'_append_eq_left
  exact ⟨BitVec.extractLsb'_append_eq_right,
    (extractLsb'_append_byte (k := 0) _ b0).trans BitVec.extractLsb'_append_eq_right,
    (extractLsb'_append_byte (k := 8) _ b0).trans hb2,
    (extractLsb'_append_byte (k := 16) _ b0).trans hb3⟩

/-- Byte `b` of the word that a host read answers is what the read sees at that offset (20_memory.md R86, R88). -/
theorem extractLsb'_readMsgmem (s : State) (j : Nat) (b : Fin 4) :
    (readMsgmem s j).extractLsb' (8 * b.val) 8 = gatedByte s (j + b.val) := by
  obtain ⟨h0, h1, h2, h3⟩ :=
    extractLsb'_leWord (gatedByte s j) (gatedByte s (j + 1)) (gatedByte s (j + 2)) (gatedByte s (j + 3))
  match b with
  | 0 => exact h0
  | 1 => exact h1
  | 2 => exact h2
  | 3 => exact h3

theorem gatedByte_of_gated {s : State} {x : Nat} (h : gated s x = true) : gatedByte s x = 0#8 := if_pos h

theorem gatedByte_of_not_gated {s : State} {x : Nat} (h : ¬ gated s x = true) : gatedByte s x = s.mem.get x := if_neg h

/-! ### Writing a word of MSGMEM -/

@[simp] theorem locked_offerByte (s : State) (x : Nat) (v : Byte) (y : Nat) :
    locked (offerByte s x v) y = locked s y :=
  locked_congr (offerByte_inst s x v) (offerByte_ctxs s x v) y

/-- An offered byte reaches its own offset, unless that is locked, and no other (20_memory.md R89). -/
theorem get_offerByte (s : State) (x : Nat) (v : Byte) (y : Nat) :
    (offerByte s x v).mem.get y = if y = x then if locked s x then s.mem.get x else v else s.mem.get y := by
  unfold offerByte
  by_cases hl : locked s x = true
  · rw [if_pos hl, if_pos hl]
    split
    · next hy => rw [hy]
    · rfl
  · rw [if_neg hl, if_neg hl]
    exact Memory.get_set s.mem x y v

/-- WRCONF records a dropped byte (20_memory.md R89). -/
theorem wrconf_offerByte (s : State) (x : Nat) (v : Byte) :
    (offerByte s x v).gstatus.wrconf = (s.gstatus.wrconf || locked s x) := by
  unfold offerByte
  split
  · next hl => simp [hl]
  · next hl => simp [hl]

/-- An offered byte changes MSGMEM and WRCONF at most (20_memory.md R89). -/
theorem offerByte_frame (s : State) (x : Nat) (v : Byte) :
    offerByte s x v = { s with
      mem := (offerByte s x v).mem
      gstatus := { s.gstatus with wrconf := (offerByte s x v).gstatus.wrconf } } := by
  unfold offerByte
  split <;> rfl

/-- A written word changes MSGMEM and WRCONF at most (20_memory.md R89). -/
theorem writeMsgmem_frame (s : State) (j : Nat) (v : Word) :
    writeMsgmem s j v = { s with
      mem := (writeMsgmem s j v).mem
      gstatus := { s.gstatus with wrconf := (writeMsgmem s j v).gstatus.wrconf } } := by
  unfold writeMsgmem
  rw [offerByte_frame, offerByte_frame (offerByte (offerByte s j _) _ _), offerByte_frame (offerByte s j _),
    offerByte_frame s]

/-- Each byte of a written word reaches its offset, unless that is locked (20_memory.md R86, R89). -/
theorem get_writeMsgmem_inside (s : State) (j : Nat) (v : Word) (b : Fin 4) :
    (writeMsgmem s j v).mem.get (j + b.val) =
      if locked s (j + b.val) then s.mem.get (j + b.val) else v.extractLsb' (8 * b.val) 8 := by
  simp only [writeMsgmem, get_offerByte, locked_offerByte]
  match b with
  | 0 => simp
  | 1 => simp
  | 2 => simp
  | 3 => simp

theorem get_writeMsgmem_outside (s : State) {j x : Nat} (v : Word) (h : x < j ∨ j + 4 ≤ x) :
    (writeMsgmem s j v).mem.get x = s.mem.get x := by
  simp only [writeMsgmem, get_offerByte]
  iterate 4 rw [if_neg (by omega)]

/-- A written word sets WRCONF exactly if one of its bytes was dropped (20_memory.md R89). -/
theorem wrconf_writeMsgmem (s : State) (j : Nat) (v : Word) :
    (writeMsgmem s j v).gstatus.wrconf = true ↔ s.gstatus.wrconf = true ∨ ∃ b : Fin 4, locked s (j + b.val) = true := by
  simp [writeMsgmem, wrconf_offerByte, Fin.exists_fin_succ, or_assoc]

/-! ### The engine alone -/

theorem mem_busyList (s : State) (n : Fin 16) : n ∈ busyList s ↔ busy s n = true := by
  simp [busyList]

/-- The engine, alone, steps a BUSY context, and idles only where there is none (44_control_interleaver.md R310). -/
theorem pickBusy_cases (s : State) :
    (pickBusy s = none ∧ ∀ n, busy s n = false) ∨ ∃ n, pickBusy s = some n ∧ busy s n = true := by
  simp only [← mem_busyList, ← Bool.not_eq_true]
  unfold pickBusy
  split
  · next h => exact .inl ⟨rfl, by simp [h]⟩
  · next n h => exact .inr ⟨n, rfl, by simp [h]⟩
  · next n rest _ h =>
    refine .inr ⟨_, rfl, ?_⟩
    have hlt : Config.pick s.tick % (rest.length + 1) < (n :: rest).length := Nat.mod_lt _ (Nat.succ_pos rest.length)
    rw [h, List.getD_eq_getElem _ _ hlt]
    exact List.getElem_mem hlt

theorem engineAlone_of_pickBusy_none {s : State} (h : pickBusy s = none) : engineAlone s = .next s := by
  simp only [engineAlone, h]

theorem engineAlone_of_pickBusy_some {s : State} {n : Fin 16} (h : pickBusy s = some n) :
    engineAlone s = engineTurn n { s with tick := s.tick + 1 } := by
  simp only [engineAlone, h]

end Sys2Proof.Machine
end

section
/-! PROOFS. The host's bus accesses to MSGMEM and reserved offsets, the range check, and what a step runs. -/

namespace Sys2Proof.Proofs

open Sys2Proof.Machine

/-- Settles O17: clause by clause, a disjointness check being a statement about every offset. -/
theorem rangeCheckMeansDisjoint : Obligations.RangeCheckMeansDisjoint := by
  intro n src len dst out s
  rw [rangeOk_iff, ← and_assoc]
  refine and_congr_right fun _ => and_congr ?_ (forall₂_congr fun m _ => ?_)
  · simp only [disjoint_iff_forall_not, not_and]
  · simp only [busy_iff, disjoint_iff_forall_not, and_imp, imp_and, forall_and, and_assoc]

/-- Settles O45: byte `b` of the answered word is what the host sees at that offset. -/
theorem hostReadIsGated : Obligations.HostReadIsGated := by
  intro s j hj hlt hbytes
  have hoff := toNat_msgmemOffset (j := j) (by omega)
  refine ⟨readMsgmem s j, hostRead_reg (by omega) (hoff ▸ regAt_msgmem hlt), fun b => ?_⟩
  rw [extractLsb'_readMsgmem]
  refine ⟨fun h => gatedByte_of_gated ((gated_iff_ranges s _).mpr h), fun h => gatedByte_of_not_gated fun hg => ?_⟩
  obtain ⟨m, hm, hb, hr⟩ := (gated_iff_ranges s _).mp hg
  exact h m hm hb hr

/-- Settles O46: the held offsets are the locked ones. -/
theorem hostWriteDropsLockedBytes : Obligations.HostWriteDropsLockedBytes := by
  intro s j w hj hlt hbytes
  have hoff := toNat_msgmemOffset (j := j) (by omega)
  simp only [← locked_iff_ranges]
  refine ⟨(writeMsgmem s j w).mem, (writeMsgmem s j w).gstatus.wrconf, ?_, wrconf_writeMsgmem s j w,
    fun b h => ?_, fun b h => ?_, fun x h => get_writeMsgmem_outside s w h⟩
  · rw [hostWrite_reg (by omega) (hoff ▸ regAt_msgmem hlt) rfl, writeMsgmem_frame]
  · rw [get_writeMsgmem_inside, if_pos h]
  · rw [get_writeMsgmem_inside, if_neg h]

/-- Settles O5: with an event the step runs it, and without one it is the engine's, which picks a BUSY context. -/
theorem stepRunsTheNextEvent : Obligations.StepRunsTheNextEvent := by
  refine ⟨fun s a rest h => step_cons h, fun s a v rest h => step_cons h, fun s n rest h => step_cons h,
    fun s rest h => ⟨step_cons h, rfl⟩, busy_iff, fun s ha hidle => ?_, fun s n ha hn => ?_⟩
  · rcases pickBusy_cases s with ⟨hp, -⟩ | ⟨m, -, hm⟩
    · rw [step_nil ha, engineAlone_of_pickBusy_none hp]
    · exact absurd hm (by simp [hidle m])
  · rcases pickBusy_cases s with ⟨-, hidle⟩ | ⟨m, hp, hm⟩
    · exact absurd hn (by simp [hidle n])
    · exact ⟨m, hm, by rw [step_nil ha, engineAlone_of_pickBusy_some hp]⟩

/-- Settles O34. -/
theorem misalignedAccessSetsOnlyBuserr : Obligations.MisalignedAccessSetsOnlyBuserr :=
  fun _ v s ha => ⟨hostRead_misaligned ha s, hostWrite_misaligned ha v s⟩

/-- Settles O35. -/
theorem alignedReadHasNoSideEffect : Obligations.AlignedReadHasNoSideEffect :=
  fun _ _ ha => ⟨_, hostRead_reg ha rfl⟩

/-- Settles O36: the decode has no register at the offset. -/
theorem reservedOffsetsReadZero : Obligations.ReservedOffsetsReadZero := by
  intro a v s ha hrange
  have hreg : regAt s.inst a.toNat = .reserved := regAt_reserved ha hrange
  exact ⟨hostRead_reg ha hreg, hostWrite_reg ha hreg rfl⟩

end Sys2Proof.Proofs
end

section
/-! SUPPORT. The fields of a command word, when the decoder answers a command and which one, and what a word that is rejected
at its issue leaves behind. -/

namespace Sys2Proof

/-! ### The fields, as bits and as numbers (30_encoding.md R121) -/

theorem toNat_extractLsb'_opc (w : Word) : (w.extractLsb' 0 4).toNat = opcField w := by
  simp [opcField]

theorem toNat_extractLsb'_mode (w : Word) : (w.extractLsb' 4 3).toNat = modeField w := by
  simp [modeField, Nat.shiftRight_eq_div_pow]

theorem toFin_extractLsb'_ctx (w : Word) : (w.extractLsb' 8 4).toFin = ctxField w := by
  apply Fin.ext
  simp [ctxField, Nat.shiftRight_eq_div_pow]

theorem opcField_eq_iff {w : Word} {k : Nat} (hk : k < 16) : opcField w = k ↔ w.extractLsb' 0 4 = BitVec.ofNat 4 k := by
  rw [← BitVec.toNat_inj, toNat_extractLsb'_opc, BitVec.toNat_ofNat, Nat.mod_eq_of_lt hk]

theorem modeField_eq_zero_iff (w : Word) : modeField w = 0 ↔ w.extractLsb' 4 3 = 0#3 := by
  rw [← BitVec.toNat_inj, toNat_extractLsb'_mode]; rfl

theorem reservedZero_iff (w : Word) : reservedZero w = true ↔ w.toNat / 128 % 2 = 0 ∧ w.toNat / 4096 = 0 := by
  simp [reservedZero]

theorem reservedZero_iff_bits (w : Word) :
    reservedZero w = true ↔ w.getLsbD 7 = false ∧ w.extractLsb' 12 20 = 0#20 := by
  have hw := w.isLt
  rw [reservedZero_iff, ← BitVec.toNat_inj]
  refine and_congr ?_ ?_
  · simp [BitVec.getLsbD, Nat.testBit_eq_decide_div_mod_eq]
  · simp only [BitVec.extractLsb'_toNat, Nat.shiftRight_eq_div_pow, BitVec.toNat_ofNat]
    omega

/-! ### Words put together from fields -/

theorem toNat_commandWord {opc mode : Nat} (ho : opc < 16) (hm : mode < 8) (n : Fin 16) :
    (commandWord opc mode n).toNat = opc + 16 * mode + 256 * n.val := by
  rw [commandWord, BitVec.toNat_ofNat]
  omega

/-- A word whose reserved bits are 0 is made of its three fields. -/
theorem commandWord_fields {w : Word} (h : reservedZero w = true) :
    commandWord (opcField w) (modeField w) (ctxField w) = w := by
  obtain ⟨h7, h12⟩ := (reservedZero_iff w).1 h
  apply BitVec.eq_of_toNat_eq
  rw [toNat_commandWord (by unfold opcField; omega) (by unfold modeField; omega)]
  simp only [opcField, modeField, ctxField, Fin.val_ofNat]
  omega

/-- The decoder reads back the fields a word is made of. -/
theorem decode_commandWord {opc mode : Nat} (ho : opc ≤ 7) (hm : mode < 8) (n : Fin 16) :
    decode (commandWord opc mode n) = decodeOpcode opc mode n := by
  have hw := toNat_commandWord (show opc < 16 by omega) hm n
  have hopc : opcField (commandWord opc mode n) = opc := by unfold opcField; omega
  have hmode : modeField (commandWord opc mode n) = mode := by unfold modeField; omega
  have hctx : ctxField (commandWord opc mode n) = n := by
    apply Fin.ext
    simp only [ctxField, Fin.val_ofNat, hw]
    omega
  have hzero : reservedZero (commandWord opc mode n) = true := (reservedZero_iff _).2 (by omega)
  rw [decode, hopc, hmode, hctx, if_neg (show ¬ 7 < opc by omega), if_pos hzero]
  split
  · next h0 => subst h0; rfl
  · rfl

/-! ### The decoder -/

/-- The MODE is one the opcode allows (30_encoding.md R124 check 3). -/
abbrev modeAllowed (opc mode : Nat) : Prop := if opc = 1 then mode ≤ 4 else mode = 0

/-- The field checks of 30_encoding.md R124 that the word alone decides: checks 1 to 3. -/
structure FieldChecks (w : Word) : Prop where
  opc : opcField w ≤ 7
  zero : reservedZero w = true
  mode : modeAllowed (opcField w) (modeField w)

/-- The spec's four field checks are the decoder's three and `CTX < NCTX`. -/
theorem wellFormedWord_iff (p : Params) (w : Word) :
    Machine.wellFormedWord p w ↔ FieldChecks w ∧ (ctxField w).val < p.nctx := by
  have hmode : (if w.extractLsb' 0 4 = 1#4 then (w.extractLsb' 4 3).toNat ≤ 4 else w.extractLsb' 4 3 = 0#3) ↔
      modeAllowed (opcField w) (modeField w) := by
    simp only [modeAllowed, opcField_eq_iff (k := 1) (by decide), toNat_extractLsb'_mode, modeField_eq_zero_iff]
  unfold Machine.wellFormedWord
  rw [toNat_extractLsb'_opc, ← reservedZero_iff_bits, hmode, ← toFin_extractLsb'_ctx]
  exact ⟨fun ⟨hopc, hzero, hm, hctx⟩ => ⟨⟨hopc, hzero, hm⟩, hctx⟩,
    fun ⟨⟨hopc, hzero, hm⟩, hctx⟩ => ⟨hopc, hzero, hm, hctx⟩⟩

/-- An opcode that takes no MODE answers its command exactly where MODE is 0. -/
theorem eq_ok_of_zeroMode {mode : Nat} {i j : Instr}
    (h : (if mode = 0 then Except.ok j else Except.error DecodeError.reservedMode) = .ok i) : mode = 0 ∧ i = j := by
  split at h
  · next hm => cases h; exact ⟨hm, rfl⟩
  · cases h

/-- All the opcode map can answer: NOP for OPC 0, and otherwise the command whose word has these fields. -/
theorem decodeOpcode_eq_ok {opc mode : Nat} {n : Fin 16} {i : Instr} (h : decodeOpcode opc mode n = .ok i) :
    opc = 0 ∧ i = .nop ∨
    opc ≠ 0 ∧ modeAllowed opc mode ∧ encode i = commandWord opc mode n ∧ i.ctx? = some n := by
  unfold decodeOpcode at h
  split at h
  case h_1 => cases h; exact .inl ⟨rfl, rfl⟩
  case h_2 =>
    unfold decodeInit at h
    split at h <;> cases h <;> exact .inr ⟨by decide, by decide, rfl, rfl⟩
  case h_9 => cases h
  all_goals
    obtain ⟨rfl, rfl⟩ := eq_ok_of_zeroMode h
    exact .inr ⟨by decide, rfl, rfl, rfl⟩

/-- The opcode map has a command for every opcode and every MODE the opcode allows. -/
theorem exists_decodeOpcode {opc mode : Nat} (ho : opc ≤ 7) (hm : modeAllowed opc mode) (n : Fin 16) :
    ∃ i, decodeOpcode opc mode n = .ok i := by
  by_cases h1 : opc = 1
  · subst h1
    have hm4 : mode ≤ 4 := hm
    interval_cases mode <;> exact ⟨_, rfl⟩
  · obtain rfl : mode = 0 := (if_neg h1).mp hm
    interval_cases opc <;> exact ⟨_, rfl⟩

/-- Every word with OPC 0 is NOP, whatever its other fields (30_encoding.md R126). -/
theorem decode_of_opcField_zero {w : Word} (h : opcField w = 0) : decode w = .ok .nop := if_pos h

/-- With the three checks passed, the decoder answers as the opcode map does. -/
theorem decode_of_checks {w : Word} (h : FieldChecks w) :
    decode w = decodeOpcode (opcField w) (modeField w) (ctxField w) := by
  rw [← decode_commandWord h.opc (by unfold modeField; omega), commandWord_fields h.zero]

/-- All the decoder can answer: NOP for OPC 0, and otherwise the command whose word this is, with the checks passed. -/
theorem decode_eq_ok {w : Word} {i : Instr} (h : decode w = .ok i) :
    opcField w = 0 ∧ i = .nop ∨
    opcField w ≠ 0 ∧ FieldChecks w ∧ encode i = w ∧ i.ctx? = some (ctxField w) := by
  by_cases h0 : opcField w = 0
  · rw [decode_of_opcField_zero h0] at h
    cases h
    exact .inl ⟨h0, rfl⟩
  · rw [decode, if_neg h0] at h
    split at h
    · cases h
    next hopc =>
    split at h
    · next hzero =>
      obtain ⟨he, -⟩ | ⟨-, hmode, hw, hctx⟩ := decodeOpcode_eq_ok h
      · exact absurd he h0
      · exact .inr ⟨h0, ⟨by omega, hzero, hmode⟩, hw.trans (commandWord_fields hzero), hctx⟩
    · cases h

/-- The words that stand for NOP (30_encoding.md R126). -/
theorem decode_eq_nop_iff (w : Word) : decode w = .ok .nop ↔ opcField w = 0 := by
  refine ⟨fun h => ?_, decode_of_opcField_zero⟩
  obtain ⟨h0, -⟩ | ⟨-, -, -, hctx⟩ := decode_eq_ok h
  · exact h0
  · cases hctx

/-- Decoding an encoded command gives it back. -/
theorem decode_encode (i : Instr) : decode (encode i) = .ok i := by
  cases i with
  | nop => rfl
  | _ n => exact decode_commandWord (by decide) (by decide) n

end Sys2Proof

namespace Sys2Proof.Machine

/-- A rejection of a word, every field written out (60_exceptions.md R343). -/
theorem reject_ctxField (code : ErrCode) (w : Word) (s : State) :
    reject code (ctxField w) s =
      { s with
        gstatus := { s.gstatus with issueErr := code, issueCtx := (w.extractLsb' 8 4).toFin, rej := true }
        irqStatus := s.irqStatus ||| 0x80000000#32 } := by
  rw [← toFin_extractLsb'_ctx]; rfl

/-- Every command on a context that the instance does not have is IllegalCommand (30_encoding.md R124 check 4). -/
theorem exec_absent {i : Instr} {n : Fin 16} {s : State} (hi : i.ctx? = some n) (hp : present s n = false) :
    exec i s = .next (reject .illegalCommand n s) := by
  cases i with
  | nop => cases hi
  | initEcb | initCbc | initCfb | initOfb | initCtr =>
    cases hi
    exact (onCtx_absent hp _ : issueInit _ n s = _)
  | pad | unpad =>
    cases hi
    exact (onCtx_absent hp _ : issueCopy _ _ n s = _)
  | encrypt => cases hi; exact (onCtx_absent hp _ : execEncrypt n s = _)
  | decrypt => cases hi; exact (onCtx_absent hp _ : execDecrypt n s = _)
  | discard => cases hi; exact (onCtx_absent hp _ : execDiscard n s = _)
  | abort => cases hi; exact (onCtx_absent hp _ : execAbort n s = _)

/-- A word that fails one of the field checks is rejected at its issue, whoever makes the check: the decoder, or the command
it answers (30_encoding.md R124). -/
theorem issue_of_not_wellFormed {w : Word} {s : State} (h0 : opcField w ≠ 0) (hw : ¬ wellFormedWord s.inst w) :
    issue w s = .next (reject .illegalCommand (ctxField w) s) := by
  cases hd : decode w with
  | error e => exact issue_of_error hd s
  | ok i =>
    obtain ⟨he, -⟩ | ⟨-, hchecks, -, hctx⟩ := decode_eq_ok hd
    · exact absurd he h0
    have habsent : present s (ctxField w) = false :=
      decide_eq_false fun hlt => hw ((wellFormedWord_iff s.inst w).2 ⟨hchecks, hlt⟩)
    rw [issue_of_decode hd, exec_absent hctx habsent]

/-- The table's words are whole bus words: nothing is cut off at 32 bits. -/
theorem tableWord_bus (w : Nat) : tableWord 32 w = BitVec.ofNat 32 w := by
  apply BitVec.eq_of_toNat_eq
  simp [tableWord]

end Sys2Proof.Machine
end

section
/-! PROOFS. The command words: decode and encode agree, what a malformed word does, and the step that issues a word. -/

namespace Sys2Proof.Proofs

open Sys2Proof.Machine

/-- Settles O1. -/
theorem decodeInvertsEncode : Obligations.DecodeInvertsEncode := by
  refine ⟨decode_encode, fun w i h hi => ?_, fun w => (decode_eq_nop_iff w).trans (opcField_eq_iff (by decide))⟩
  obtain ⟨-, hnop⟩ | ⟨-, -, hw, -⟩ := decode_eq_ok h
  · exact absurd hnop hi
  · exact hw.symm

/-- Settles O2: a word that passes the checks decodes to a command on a context there is. -/
theorem malformedWordIsRejected : Obligations.MalformedWordIsRejected := by
  intro w s hopc
  have h0 : opcField w ≠ 0 := mt (opcField_eq_iff (by decide)).1 hopc
  refine ⟨fun hw => ?_, fun hw => by rw [issue_of_not_wellFormed h0 hw, reject_ctxField]⟩
  obtain ⟨hchecks, hlt⟩ := (wellFormedWord_iff s.inst w).1 hw
  obtain ⟨i, hi⟩ := exists_decodeOpcode hchecks.opc hchecks.mode (ctxField w)
  have hd : decode w = .ok i := (decode_of_checks hchecks).trans hi
  obtain ⟨he, -⟩ | ⟨-, -, henc, hctx⟩ := decode_eq_ok hd
  · exact absurd he h0
  · exact ⟨i, henc, by simpa [Instr.wf, hctx] using hlt, issue_of_decode hd s⟩

/-- Settles O3: each word is its command's encoding, but for the second, another spelling of NOP. -/
theorem specWordsDecode : Obligations.SpecWordsDecode :=
  ⟨decode_encode .nop, decode_of_opcField_zero (by decide), decode_encode (.initEcb 0), decode_encode (.initOfb 1),
    decode_encode (.initCtr 2), decode_encode (.encrypt 2), decode_encode (.decrypt 3), decode_encode (.discard 1),
    decode_encode (.unpad 15)⟩

/-- Settles O4. -/
theorem stepIssuesTheDecodedCommand : Obligations.StepIssuesTheDecodedCommand := by
  have issues : ∀ (s : State) (w : Word) (rest : List Event), s.agenda = commandEvent w :: rest →
      step s = hostWrite cmdOffset w { s with agenda := rest } := fun s w rest h => step_cons h
  refine ⟨fun s w rest h => (issues s w rest h).trans (hostWrite_cmd w _), fun s w i rest h hd => ?_,
    fun s w rest h hd => ?_, fun s w => by rw [← tableWord_bus]; rfl⟩
  · rw [issues s w rest h, hostWrite_cmd, issue_of_decode hd]; rfl
  · cases he : decode w with
    | ok i => exact absurd he (hd i)
    | error e =>
      rw [issues s w rest h, hostWrite_reg (by decide) (regAt_cmdOffset _) (issue_of_error he _), reject_ctxField]

end Sys2Proof.Proofs
end

section
/-! SUPPORT. PadLen as a statement about the end of a string: which suffix it accepts, and that suffix byte by byte. -/

namespace Sys2Proof.Machine

/-- A string ends in `n` bytes `v` exactly when it has `n` bytes and each of its last `n` is `v`. -/
theorem rep_suffix_iff {v : Byte} {n : Nat} {y : Bytes} :
    rep v n <:+ y ↔ n ≤ y.length ∧ ∀ j, y.length - n ≤ j → j < y.length → y.getD j 0#8 = v := by
  simp only [rep, List.suffix_iff_getElem?, List.length_replicate, List.getElem_replicate]
  refine and_congr_right fun hn => ⟨fun h j hlo hhi => ?_, fun h i hi => ?_⟩
  · have hj := h (j - (y.length - n)) (by omega)
    rw [show j - (y.length - n) + y.length - n = j by omega] at hj
    simp [hj]
  · have hlt : i + y.length - n < y.length := by omega
    rw [← h (i + y.length - n) (by omega) hlt, List.getElem?_eq_getElem hlt, List.getD_eq_getElem _ _ hlt]

/-- A byte is at most 255, so a block width above that bounds PadLen no further. -/
theorem padLen_min_byte (b : Nat) (y : Bytes) : padLen b y = padLen (min b 255) y := by
  unfold padLen
  cases y.getLast? with
  | none => rfl
  | some last =>
    have hbound : min b 255 < last.toNat ↔ b < last.toNat := by have := last.isLt; omega
    simp only [hbound]

/-- PadLen answers `n` exactly when the string ends in `n` bytes of value `n`, for an `n` from 1 to B that a byte can hold
(41_padding.md R182). -/
theorem padLen_eq_some_iff {b n : Nat} {y : Bytes} :
    padLen b y = some n ↔ 1 ≤ n ∧ n ≤ b ∧ n < 256 ∧ rep (BitVec.ofNat 8 n) n <:+ y := by
  rw [padLen_min_byte]
  constructor
  · intro h
    obtain ⟨hpos, hle, -, hdrop⟩ := padLen_eq_some h
    exact ⟨hpos, by omega, by omega, hdrop ▸ List.drop_suffix _ y⟩
  · rintro ⟨hpos, hle, hbyte, x, rfl⟩
    exact padLen_of_suffix hpos (by omega) (by omega) x

end Sys2Proof.Machine
end

section
/-! PROOFS. The padding functions: the length of a padded string, what PadLen accepts and reads, and that it finds what
`pad` appended. -/

namespace Sys2Proof.Proofs

open Sys2Proof.Machine

/-- Settles O18. -/
theorem paddedLengthIsPositiveMultiple : Obligations.PaddedLengthIsPositiveMultiple := by
  intro b x hb
  rw [padBytes_length hb]
  exact ⟨rfl, Nat.mul_pos (Nat.succ_pos _) hb, Nat.mul_mod_left _ _⟩

/-- Settles O19: the accepted suffix, read byte by byte; that its value fits a byte is what the last byte says. -/
theorem padLenInspectsEveryPaddingByte : Obligations.PadLenInspectsEveryPaddingByte := by
  intro b n y
  rw [padLen_eq_some_iff, rep_suffix_iff]
  constructor
  · rintro ⟨hpos, hle, hbyte, hlen, hall⟩
    have hvalue : ∀ j, y.length - n ≤ j → j < y.length → (y.getD j 0#8).toNat = n := fun j hlo hhi => by
      rw [hall j hlo hhi, BitVec.toNat_ofNat, Nat.mod_eq_of_lt hbyte]
    exact ⟨List.length_pos_iff.1 (by omega), hvalue _ (by omega) (by omega), hpos, hle, hlen, hvalue⟩
  · rintro ⟨-, hlast, hpos, hle, hlen, hall⟩
    have hbyte : n < 256 := hlast ▸ BitVec.isLt _
    exact ⟨hpos, hle, hbyte, hlen, fun j hlo hhi => by rw [← hall j hlo hhi, BitVec.ofNat_toNat, BitVec.setWidth_eq]⟩

/-- Settles O20: `padLen_padBytes` for the first sentence; for the second, PadLen answers no other number than the last
byte (O19). -/
theorem unpadInvertsPad : Obligations.UnpadInvertsPad := by
  intro b hb
  refine ⟨fun x => ⟨padCount b x.length, padLen_padBytes (by omega) (by omega) x, by simp [padBytes]⟩, fun y v hv => ?_⟩
  refine Option.eq_none_iff_forall_ne_some.2 fun n hn => ?_
  obtain ⟨-, hlast, hpos, hle, -⟩ := (padLenInspectsEveryPaddingByte b n (y ++ [v])).1 hn
  have hvn : v.toNat = n := by simpa using hlast
  rcases hv with rfl | hv
  · exact absurd hvn (Nat.ne_of_lt hpos)
  · omega

/-- Settles O21: a suffix of at most B bytes lies in the last `min(L, B)` bytes, or not in the string. -/
theorem padCheckReadsOnlyTheLastBlock : Obligations.PadCheckReadsOnlyTheLastBlock := by
  intro b y
  refine Option.ext fun n => ?_
  rw [padLen_eq_some_iff, padLen_eq_some_iff]
  refine and_congr_right fun _ => and_congr_right fun hle => and_congr_right fun _ => ⟨fun h => ?_, fun h => ?_⟩
  · have hlen := h.length_le
    rw [rep_length] at hlen
    exact List.suffix_of_suffix_length_le h (List.drop_suffix _ y) (by rw [rep_length, List.length_drop]; omega)
  · exact h.trans (List.drop_suffix _ y)

end Sys2Proof.Proofs
end

section
/-! SUPPORT. What answers a next state: PAD and UNPAD where their checks pass, and the engine's turn on a well-formed job, by
its block step and by each completion. -/

namespace Sys2Proof.Machine

/-! ### PAD and UNPAD at their issue (41_padding.md R189, R190, R194, R195) -/

/-- PAD and UNPAD on an EMPTY context whose ranges are free start a job. -/
theorem issueCopy_started {op : Opcode} {sh : JobShape} {n : Fin 16} {s : State} (hp : present s n = true)
    (hst : (s.ctx n).state = .empty)
    (hr : rangeOk n s.src.toNat s.len.toNat s.dst.toNat (maxoutOf sh s.inst.b s.len.toNat) s = true) :
    issueCopy op sh n s = .next (s.setCtx n (startedCtx n op sh s)) := by
  rw [issueCopy, onCtx_present hp]
  simp only [hst, hr, ne_eq, not_true_eq_false, if_false, Bool.not_true, Bool.false_eq_true]
  rfl

/-! ### The engine's turn on a job (44_control_interleaver.md R310) -/

/-- With a block left to do, the turn is the job's next block. -/
theorem engineTurn_of_blk_lt {s : State} {n : Fin 16} (hb : busy s n = true) (hlt : (s.ctx n).blk < (s.ctx n).nblk) :
    engineTurn n s = nextBlock n s := by
  simp only [engineTurn, hb, hlt, if_true]

/-- With all blocks done, the turn is the job's completion. -/
theorem engineTurn_of_blk_eq {s : State} {n : Fin 16} (hb : busy s n = true) (hend : (s.ctx n).blk = (s.ctx n).nblk) :
    engineTurn n s = complete n s := by
  simp only [engineTurn, hb, hend, if_true, Nat.lt_irrefl, if_false]

/-- The step of a block whose output lies in MSGMEM. -/
theorem runBlock_of_split {sh : JobShape} {n : Fin 16} {s : State} {piece : Piece}
    (hp : split sh (s.ctx n) (s.ctx n).blk s = .ok piece)
    (hw : (s.ctx n).jdst + piece.dstoff + ((jobXform s.inst (s.ctx n) piece.input).1.take piece.wlen).length ≤
      s.inst.msgmemBytes) :
    runBlock sh (jobXform s.inst (s.ctx n)) n s = .next (afterBlock s n piece) := by
  simp only [runBlock, hp, andThen_ok, memWrite_ok (.inr hw)]
  rfl

/-- The turn of a well-formed job with a block left: the splitter's piece, and the state after it. -/
theorem engineTurn_block {s : State} {n : Fin 16} {sh : JobShape} (hs : s.Good) (hb : busy s n = true)
    (hlt : (s.ctx n).blk < (s.ctx n).nblk) (hsh : jobShape (s.ctx n).op (s.ctx n).mode = some sh) :
    let piece := pieceOf sh (s.ctx n) (s.ctx n).blk s
    split sh (s.ctx n) (s.ctx n).blk s = .ok piece ∧ piece.input.length = piece.wlen ∧
    engineTurn n s = .next (afterBlock s n piece) := by
  have hj := jobFields_of_busy hs hb hsh
  have hpos : 0 < s.inst.b := by have := (legal_spec hs.legal).1; omega
  have hsplit := split_ok (i := (s.ctx n).blk) hpos hj.nblk_eq hlt hj.src_inside
  obtain ⟨hout, -⟩ := blockOutput_bounds hs.legal (hs.fields n (present_of_busy hb)) hsh hj hlt
  refine ⟨hsplit, (pieceOf_len hpos hj.nblk_eq hlt hj.aligned_len).1, ?_⟩
  rw [engineTurn_of_blk_lt hb hlt, nextBlock_eq, hsh]
  have hdst := hj.dst_inside
  exact runBlock_of_split hsplit (by omega)

/-- A copy step writes its piece as it is and leaves CHAIN (41_padding.md R192). -/
theorem afterBlock_copy {s : State} {n : Fin 16} {piece : Piece} (ho : (s.ctx n).op = .pad ∨ (s.ctx n).op = .unpad)
    (hlen : piece.input.length = piece.wlen) :
    afterBlock s n piece =
      { s with
        mem := s.mem.write ((s.ctx n).jdst + piece.dstoff) piece.input
        ctxs := s.ctxs.set n.val { s.ctx n with blk := (s.ctx n).blk + 1 } } := by
  simp only [afterBlock, jobXform_copy ho, List.take_of_length_le hlen.le]
  rfl

/-! ### Completions (43_stream_driver.md R280 to R282, 41_padding.md R193, R198) -/

/-- ECB and CBC are the block-aligned modes (00_scope.md R16). -/
theorem blockAligned_iff (m : Mode) : m.blockAligned = true ↔ m = .ecb ∨ m = .cbc := by
  cases m <;> decide

/-- The jobs whose completion checks the padding: UNPAD, and DECRYPT in a block-aligned mode. -/
theorem unpads_iff (c : Ctx) : unpads c = true ↔ c.op = .unpad ∨ c.op = .decrypt ∧ (c.mode = .ecb ∨ c.mode = .cbc) := by
  simp [unpads, blockAligned_iff]

/-- The completion of a job whose padding is checked. -/
theorem complete_of_unpads {s : State} {n : Fin 16} {sh : JobShape}
    (hsh : jobShape (s.ctx n).op (s.ctx n).mode = some sh) (h : unpads (s.ctx n) = true) :
    complete n s = completeUnpad n s := by
  simp only [complete_eq, hsh, h, if_true]

/-- The completion of every other job. -/
theorem complete_of_not_unpads {s : State} {n : Fin 16} {sh : JobShape}
    (hsh : jobShape (s.ctx n).op (s.ctx n).mode = some sh) (h : unpads (s.ctx n) = false) :
    complete n s = .next (completeOk n (plainOutlen (s.ctx n)) s) := by
  simp only [complete_eq, hsh, h, Bool.false_eq_true, if_false]

/-- OUTLEN is MAXOUT after PAD and after an ENCRYPT in a block-aligned mode, JLEN after any other job. -/
theorem plainOutlen_eq (c : Ctx) :
    plainOutlen c =
      if c.op = .pad ∨ c.op = .encrypt ∧ (c.mode = .ecb ∨ c.mode = .cbc) then c.maxout else c.jlen := by
  unfold plainOutlen
  cases ho : c.op with
  | encrypt => by_cases hm : c.mode = .ecb ∨ c.mode = .cbc <;> simp [jobShape, blockAligned_iff, hm]
  | decrypt => by_cases hm : c.mode = .ecb ∨ c.mode = .cbc <;> simp [jobShape, blockAligned_iff, hm]
  | _ => simp [jobShape]

/-- The check of the destination of a job that lies in MSGMEM. -/
theorem padCheck_of_inside {d l : Nat} {s : State} (h : d + l ≤ s.inst.msgmemBytes) :
    padCheck d l s = .ok (padLen s.inst.b (s.mem.read d l)) := by
  rw [padCheck, memRead_ok (.inr h)]; rfl

/-- Where PadLen answers INVALID, the completion zeroes the destination. -/
theorem completeUnpad_of_invalid {s : State} {n : Fin 16} (hl : (s.ctx n).jdst + (s.ctx n).jlen ≤ s.inst.msgmemBytes)
    (hm : (s.ctx n).jdst + (s.ctx n).maxout ≤ s.inst.msgmemBytes)
    (h : padLen s.inst.b (s.mem.read (s.ctx n).jdst (s.ctx n).jlen) = none) :
    completeUnpad n s = .next (afterUnpad s n (s.ctx n).jdst (s.ctx n).maxout .invalidPadding 0) := by
  have hw := memWrite_ok (bs := zeros (s.ctx n).maxout) (.inr (by rwa [zeros_length]))
  simp only [completeUnpad, padCheck_of_inside hl, andThen_ok, h, hw]
  rfl

/-- Where PadLen answers `k`, the completion zeroes the last `k` bytes of the output. -/
theorem completeUnpad_of_valid {s : State} {n : Fin 16} {k : Nat}
    (hl : (s.ctx n).jdst + (s.ctx n).jlen ≤ s.inst.msgmemBytes)
    (h : padLen s.inst.b (s.mem.read (s.ctx n).jdst (s.ctx n).jlen) = some k) :
    completeUnpad n s = .next (afterUnpad s n ((s.ctx n).jdst + (s.ctx n).jlen - k) k .none ((s.ctx n).jlen - k)) := by
  obtain ⟨-, -, hk, -⟩ := padLen_eq_some h
  rw [Memory.read_length] at hk
  have hw := memWrite_ok (a := (s.ctx n).jdst + (s.ctx n).jlen - k) (bs := zeros k) (s := s)
    (.inr (by rw [zeros_length]; omega))
  simp only [completeUnpad, padCheck_of_inside hl, andThen_ok, h, hw]
  rfl

/-- What one byte reads as after a range was zeroed. -/
theorem Memory.get_write_zeros (m : Memory) (a k x : Nat) :
    (m.write a (zeros k)).get x = if a ≤ x ∧ x < a + k then 0#8 else m.get x := by
  rw [Memory.get_write, zeros_length]
  refine if_congr Iff.rfl ?_ rfl
  simp [zeros, rep]

end Sys2Proof.Machine
end

section
/-! PROOFS. The jobs of the padding handler and the completions: how PAD and UNPAD start, their copy step, and how a job
with and without a padding check ends. -/

namespace Sys2Proof.Proofs

open Sys2Proof.Machine

/-- Settles O14. -/
theorem padAndUnpadStartJob : Obligations.PadAndUnpadStartJob := by
  intro i op n s nblk maxout hi hn hst hr
  have hp : present s n = true := (present_iff s n).2 hn
  obtain ⟨rfl, rfl, rfl, rfl⟩ | ⟨rfl, rfl, rfl, rfl⟩ := hi
  · exact issueCopy_started (op := .pad) (sh := .padded) hp hst hr
  · exact issueCopy_started (op := .unpad) (sh := .stream) hp hst hr

/-- Settles O29: the block step of every job, whose transform is the identity here. -/
theorem copyStepCopiesOneBlock : Obligations.CopyStepCopiesOneBlock := by
  intro s n hs hb hlt hop
  obtain ⟨sh, hsh, -⟩ := (hs.fields n (present_of_busy hb)).job ((busy_iff s n).1 hb).2
  obtain ⟨hsplit, hlen, hturn⟩ := engineTurn_block hs hb hlt hsh
  rw [afterBlock_copy hop hlen] at hturn
  refine ⟨sh, _, _, hsh, hsplit, hturn, hlen, fun x => ?_⟩
  rw [← hlen]
  exact Memory.get_write ..

/-- Settles O30: none of these jobs is one whose padding is checked (`unpads_iff`). -/
theorem plainCompletionReportsLength : Obligations.PlainCompletionReportsLength := by
  intro s n hn hst hend hop
  have hu : unpads (s.ctx n) = false := by
    rw [← Bool.not_eq_true, unpads_iff]
    rcases hop with ho | ho | ⟨ho, hmode⟩
    · simp [ho]
    · simp [ho]
    · simpa [ho] using hmode
  have hafter : stateAfterJob (s.ctx n).op = if (s.ctx n).op = .pad then .empty else .spent := by
    rcases hop with ho | ho | ⟨ho, -⟩ <;> simp [ho, stateAfterJob]
  obtain ⟨sh, hsh⟩ : ∃ sh, jobShape (s.ctx n).op (s.ctx n).mode = some sh := by
    rcases hop with ho | ho | ⟨ho, -⟩ <;> rw [ho] <;> exact ⟨_, rfl⟩
  rw [engineTurn_of_blk_eq ((busy_iff s n).2 ⟨hn, hst⟩) hend, complete_of_not_unpads hsh hu, completeOk_eq, hafter,
    plainOutlen_eq]
  rfl

/-- Settles O31: JLEN is at most MAXOUT, so what the check reads and what either branch zeroes lie in MSGMEM, and the `p`
bytes scrubbed end where the output does. -/
theorem unpaddingCompletionScrubs : Obligations.UnpaddingCompletionScrubs := by
  intro s n hs hb hend hop c after
  obtain ⟨sh, hsh, hj⟩ := (hs.fields n (present_of_busy hb)).job ((busy_iff s n).1 hb).2
  have hdst : c.jdst + c.maxout ≤ s.inst.msgmemBytes := hj.dst_inside
  have hlen : c.jlen ≤ c.maxout := hj.jlen_le_maxout hs.legal
  have hread : c.jdst + c.jlen ≤ s.inst.msgmemBytes := by omega
  have hafter : stateAfterJob c.op = after := by
    rcases hop with ho | ⟨ho, -⟩ <;> simp [c, after, ho, stateAfterJob]
  rw [engineTurn_of_blk_eq hb hend, complete_of_unpads hsh ((unpads_iff c).2 hop), ← hafter]
  refine ⟨fun hinv => ?_, fun p hp => ?_⟩
  · exact ⟨s.mem.write c.jdst (zeros c.maxout), completeUnpad_of_invalid hread hdst hinv,
      Memory.get_write_zeros s.mem c.jdst c.maxout⟩
  · obtain ⟨-, -, hple, -⟩ := padLen_eq_some hp
    rw [Memory.read_length] at hple
    refine ⟨s.mem.write (c.jdst + c.jlen - p) (zeros p), completeUnpad_of_valid hread hp, fun x => ?_⟩
    rw [Memory.get_write_zeros, Nat.sub_add_cancel (Nat.le_add_left_of_le hple)]

end Sys2Proof.Proofs
end

section
/-! SUPPORT. The mode transforms row by row, the strings they are made of, what a fold of transforms leaves in CHAIN and in
each block of its output, and the transform of a job. -/

namespace Sys2Proof.Machine

/-! ### Byte strings (00_scope.md R10, R11) -/

/-- The first byte of a string is its most significant (R11). -/
theorem be_cons (x : Byte) (rest : Bytes) : be (x :: rest) = x.toNat * 256 ^ rest.length + be rest := by
  induction rest using List.reverseRecOn with
  | nil => simp [be]
  | append_singleton rest y ih =>
    rw [← List.cons_append, be_append, be_append, ih, List.length_append, List.length_singleton, Nat.pow_succ]
    ring

/-- The exclusive-or is bytewise (R10). -/
theorem getD_xorBytes {a b : Bytes} {i : Nat} (h : i < min a.length b.length) :
    (xorBytes a b).getD i 0#8 = a.getD i 0#8 ^^^ b.getD i 0#8 := by
  obtain ⟨ha, hb⟩ := Nat.lt_min.1 h
  rw [List.getD_eq_getElem _ _ ha, List.getD_eq_getElem _ _ hb, List.getD_eq_getElem _ _ (by rwa [xorBytes_length])]
  exact List.getElem_zipWith

/-! ### The table of transforms (42_modes.md R236) -/

section Table

variable (p : Params) (dir : Dir) (nl : Nat) (k chain x : Bytes)

/-- R212. -/
theorem xform_ecb_enc : xform p .ecb .enc nl k chain x = (primE p k x, chain) := rfl

/-- R213. -/
theorem xform_ecb_dec : xform p .ecb .dec nl k chain x = (primD p k x, chain) := rfl

/-- R215. -/
theorem xform_cbc_enc :
    xform p .cbc .enc nl k chain x = (primE p k (xorBytes x chain), primE p k (xorBytes x chain)) := rfl

/-- R216. -/
theorem xform_cbc_dec : xform p .cbc .dec nl k chain x = (xorBytes (primD p k x) chain, x) := rfl

/-- R226. -/
theorem xform_ofb : xform p .ofb dir nl k chain x = (xorBytes x (primE p k chain), primE p k chain) := rfl

/-- R230. -/
theorem xform_ctr : xform p .ctr dir nl k chain x = (xorBytes x (primE p k chain), nextCounter p nl chain) := rfl

variable {p x}

/-- R220. -/
theorem xform_cfb_enc_full (h : x.length = p.b) :
    xform p .cfb .enc nl k chain x = (xorBytes x (primE p k chain), xorBytes x (primE p k chain)) :=
  if_neg h.not_lt

/-- R222. -/
theorem xform_cfb_dec_full (h : x.length = p.b) :
    xform p .cfb .dec nl k chain x = (xorBytes x (primE p k chain), x) :=
  if_neg h.not_lt

/-- R221, R223: a short last block leaves CHAIN. -/
theorem xform_cfb_short (h : x.length < p.b) :
    xform p .cfb dir nl k chain x = (xorBytes x (primE p k chain), chain) :=
  if_pos h

/-- Only CTR looks at NL. -/
theorem xform_nl_irrelevant {mode : Mode} (h : mode ≠ .ctr) :
    xform p mode dir nl k chain x = xform p mode dir 0 k chain x := by
  cases mode with
  | ctr => exact absurd rfl h
  | _ => rfl

variable {dir nl k chain}

/-- On a full block the output and CHAIN are full blocks. -/
theorem xform_full_lengths {mode : Mode} (hk : p.prim = .xorprim → k.length = p.b)
    (hnl : mode = .ctr → nl ≤ p.b) (hc : chain.length = p.b) (hx : x.length = p.b) :
    (xform p mode dir nl k chain x).1.length = p.b ∧ (xform p mode dir nl k chain x).2.length = p.b := by
  have full : ∀ {nl'}, nl' ≤ p.b →
      (xform p mode dir nl' k chain x).1.length = p.b ∧ (xform p mode dir nl' k chain x).2.length = p.b := fun h =>
    (xform_lengths hk hc hx.le (fun _ => hx) h).imp_left fun hout => hout.trans hx
  by_cases hm : mode = .ctr
  · exact full (hnl hm)
  · rw [xform_nl_irrelevant dir nl k chain hm]
    exact full (Nat.zero_le _)

end Table

/-! ### Folds of transforms (43_stream_driver.md R275, R276) -/

section Fold

variable {p : Params} {mode : Mode} {dir : Dir} {nl : Nat} {k : Bytes}

theorem foldBlocks_cons (x : Bytes) (rest : List Bytes) (chain : Bytes) :
    foldBlocks p mode dir nl k (x :: rest) chain =
      ((xform p mode dir nl k chain x).1 ++ (foldBlocks p mode dir nl k rest (xform p mode dir nl k chain x).2).1,
       (foldBlocks p mode dir nl k rest (xform p mode dir nl k chain x).2).2) := rfl

/-- The last block's transform gives the CHAIN a fold leaves. -/
theorem foldBlocks_concat_chain (xs : List Bytes) (x chain : Bytes) :
    (foldBlocks p mode dir nl k (xs ++ [x]) chain).2 =
      (xform p mode dir nl k (foldBlocks p mode dir nl k xs chain).2 x).2 := by
  induction xs generalizing chain with
  | nil => rfl
  | cons y ys ih => exact ih _

/-- Block `j` of the output of a fold over full blocks is the transform of piece `j`, with the CHAIN the pieces before it
left. -/
theorem foldBlocks_block (hk : p.prim = .xorprim → k.length = p.b) (hnl : mode = .ctr → nl ≤ p.b)
    {pieces : List Bytes} (hx : ∀ x ∈ pieces, x.length = p.b) {chain : Bytes} (hc : chain.length = p.b) {j : Nat}
    {x : Bytes} (hj : pieces[j]? = some x) :
    ((foldBlocks p mode dir nl k pieces chain).1.drop (j * p.b)).take p.b =
      (xform p mode dir nl k (foldBlocks p mode dir nl k (pieces.take j) chain).2 x).1 := by
  induction pieces generalizing chain j with
  | nil => simp at hj
  | cons y rest ih =>
    obtain ⟨hout, hchain⟩ := xform_full_lengths (dir := dir) hk hnl hc (hx y List.mem_cons_self)
    rw [foldBlocks_cons]
    cases j with
    | zero =>
      obtain rfl : y = x := by simpa using hj
      rw [Nat.zero_mul, List.drop_zero]
      exact List.take_left' hout
    | succ j =>
      have hskip : (j + 1) * p.b = (xform p mode dir nl k chain y).1.length + j * p.b := by rw [hout]; ring
      rw [hskip, List.drop_length_add_append]
      exact ih (fun z hz => hx z (List.mem_cons_of_mem y hz)) hchain (by simpa using hj)

end Fold

/-- In CBC and CFB decryption CHAIN is the last ciphertext block (42_modes.md R216, R222). -/
theorem foldBlocks_dec_chain {p : Params} {mode : Mode} {nl : Nat} {k chain c : Bytes} {pieces : List Bytes} {i : Nat}
    (hm : mode = .cbc ∨ mode = .cfb) (hi : pieces[i]? = some c) (hc : c.length = p.b) :
    (foldBlocks p mode .dec nl k (pieces.take (i + 1)) chain).2 = c := by
  rw [List.take_add_one, hi, Option.toList_some, foldBlocks_concat_chain]
  rcases hm with rfl | rfl
  · rw [xform_cbc_dec]
  · rw [xform_cfb_dec_full _ _ _ hc]

/-- OFB: piece `i` meets `E` applied `i + 1` times to the IV, and CHAIN is `E` applied once a piece (42_modes.md R227). -/
theorem foldBlocks_ofb (p : Params) (dir : Dir) (nl : Nat) (k iv : Bytes) (pieces : List Bytes) :
    foldBlocks p .ofb dir nl k pieces iv =
      ((pieces.zipIdx.map (fun q => xorBytes q.1 ((primE p k)^[q.2 + 1] iv))).flatten,
       (primE p k)^[pieces.length] iv) := by
  induction pieces generalizing iv with
  | nil => rfl
  | cons x rest ih =>
    rw [foldBlocks_cons, xform_ofb, ih, List.zipIdx_cons, List.zipIdx_succ, List.map_cons, List.map_map,
      List.flatten_cons]
    rfl

/-- In CTR a fold steps the counter block once a piece, whatever the data (42_modes.md R230). -/
theorem foldBlocks_ctr_chain (p : Params) (dir : Dir) (nl : Nat) (k chain : Bytes) (pieces : List Bytes) :
    (foldBlocks p .ctr dir nl k pieces chain).2 = (nextCounter p nl)^[pieces.length] chain := by
  induction pieces generalizing chain with
  | nil => rfl
  | cons x rest ih => exact ih _

/-- As long as the counter does not wrap, `i` steps add `i` to it and leave the nonce (42_modes.md R231). -/
theorem nextCounter_iterate {p : Params} {nl : Nat} {chain : Bytes} (hn : nl ≤ p.b) (hc : chain.length = p.b) (i : Nat)
    (hi : counterOf nl chain + i < 256 ^ (p.b - nl)) :
    (nextCounter p nl)^[i] chain = chain.take nl ++ beBytes (p.b - nl) (counterOf nl chain + i) := by
  induction i with
  | zero =>
    have hw : p.b - nl = (chain.drop nl).length := by rw [List.length_drop, hc]
    rw [Function.iterate_zero_apply, hw, Nat.add_zero, counterOf, beBytes_be, List.take_append_drop]
  | succ i ih =>
    have hnonce : (chain.take nl).length = nl := List.length_take_of_le (hc ▸ hn)
    have hcount : counterOf nl (chain.take nl ++ beBytes (p.b - nl) (counterOf nl chain + i)) =
        counterOf nl chain + i := by
      rw [counterOf, List.drop_left' hnonce, be_beBytes _ _ (by omega)]
    rw [Function.iterate_succ_apply', ih (by omega), nextCounter, hcount, List.take_left' hnonce,
      Nat.mod_eq_of_lt (by omega), Nat.add_assoc]

/-! ### Jobs of ENCRYPT and DECRYPT -/

/-- The pieces of a job are as many as its blocks. -/
@[simp] theorem blocks_length (b n : Nat) (x : Bytes) : (blocks b n x).length = n := by simp [blocks]

/-- Only ENCRYPT and DECRYPT run in CTR: a job of PAD or UNPAD has no mode state (41_padding.md R190). -/
theorem streamJob_of_ctr {p : Params} {c : Ctx} {sh : JobShape} (hsh : jobShape c.op c.mode = some sh)
    (hj : JobFields p c sh) (hm : c.mode = .ctr) : c.op = .encrypt ∨ c.op = .decrypt :=
  (job_op hsh).resolve_right fun ho => absurd ((hj.copy_job ho).1.symm.trans hm) (by decide)

/-- The counter block of a CTR job after some pieces. -/
theorem jobFold_ctr_chain {p : Params} {c : Ctx} (hm : c.mode = .ctr) (ho : c.op = .encrypt ∨ c.op = .decrypt)
    (pieces : List Bytes) (chain : Bytes) :
    (jobFold p c pieces chain).2 = (nextCounter p c.nl.toNat)^[pieces.length] chain := by
  rcases ho with ho | ho <;> simp only [jobFold, ho, hm, foldBlocks_ctr_chain]

/-- The transform of an ENCRYPT or DECRYPT job, by its direction (42_modes.md R211). -/
theorem jobXform_stream {p : Params} {c : Ctx} {dir : Dir}
    (h : c.op = .encrypt ∧ dir = .enc ∨ c.op = .decrypt ∧ dir = .dec) :
    jobXform p c = fun x => xform p c.mode dir c.nl.toNat c.k c.chain x := by
  rcases h with ⟨ho, rfl⟩ | ⟨ho, rfl⟩
  · exact jobXform_encrypt ho
  · exact jobXform_decrypt ho

/-- The output of a well-formed job's block has the length the splitter gives (43_stream_driver.md R274). -/
theorem blockOutput_length {s : State} {n : Fin 16} {sh : JobShape} (hs : s.Good) (hb : busy s n = true)
    (hlt : (s.ctx n).blk < (s.ctx n).nblk) (hsh : jobShape (s.ctx n).op (s.ctx n).mode = some sh) :
    let piece := pieceOf sh (s.ctx n) (s.ctx n).blk s
    (jobXform s.inst (s.ctx n) piece.input).1.length = piece.wlen := by
  have hj := jobFields_of_busy hs hb hsh
  have hpos : 0 < s.inst.b := by have := (legal_spec hs.legal).1; omega
  obtain ⟨hin, hle, hfull, -⟩ := pieceOf_len hpos hj.nblk_eq hlt hj.aligned_len
  obtain ⟨hout, -⟩ := jobXform_lengths hs.legal (hs.fields n (present_of_busy hb)) hsh (hin ▸ hle)
    fun h => hin.trans (hfull h)
  exact hout.trans hin

end Sys2Proof.Machine
end

section
/-! PROOFS. The modes: the table of transforms, the counter, the keystream of OFB, decryption of single blocks, and the
block step of a job. -/

namespace Sys2Proof.Proofs

open Sys2Proof.Machine

/-- Settles O22. -/
theorem transformsFollowTheTable : Obligations.TransformsFollowTheTable := by
  refine ⟨fun p nl k chain x => ?_, fun a b => ⟨xorBytes_length a b, fun i hi => getD_xorBytes hi⟩,
    fun n => ⟨zeros_length n, fun x hx => List.eq_of_mem_replicate hx⟩⟩
  exact ⟨xform_ecb_enc .., xform_ecb_dec .., xform_cbc_enc .., xform_cbc_dec .., xform_cfb_enc_full nl k chain,
    xform_cfb_dec_full nl k chain, fun dir => xform_cfb_short dir nl k chain, fun dir => xform_ofb p dir nl k chain x,
    fun dir => xform_ctr p dir nl k chain x⟩

/-- Settles O23: the counter block after a step is `nextCounter`. -/
theorem counterStepKeepsNonce : Obligations.CounterStepKeepsNonce := by
  refine ⟨fun p nl k chain x dir hn hc => ?_, rfl, be_cons, beBytes_length, be_beBytes⟩
  rw [xform_ctr]
  have hle : nl ≤ chain.length := hc ▸ hn
  have hlen := nextCounter_length hc hn
  refine ⟨hlen, nextCounter_take hle, counterOf_nextCounter hle, ?_⟩
  have hlt := be_lt ((nextCounter p nl chain).drop nl)
  rwa [List.length_drop, hlen] at hlt

/-- Settles O24. -/
theorem ofbKeystreamIgnoresData : Obligations.OfbKeystreamIgnoresData := foldBlocks_ofb

/-- Settles O25: block `i + 1` is the transform of `d` (`foldBlocks_block`), and CHAIN is `c` when it begins
(`foldBlocks_dec_chain`). -/
theorem decryptedBlockDependsOnTwoCiphertextBlocks : Obligations.DecryptedBlockDependsOnTwoCiphertextBlocks := by
  intro p nl k iv pieces i c d hl hk hiv hfull hc hd
  have hkey : p.prim = .xorprim → k.length = p.b := fun hp => by
    obtain ⟨-, -, -, -, -, hxor⟩ := legal_spec hl
    exact hk.trans (hxor hp)
  have hclen := hfull c (List.mem_of_getElem? hc)
  have hdlen := hfull d (List.mem_of_getElem? hd)
  have block : ∀ mode, mode = .cbc ∨ mode = .cfb →
      ((foldBlocks p mode .dec nl k pieces iv).1.take ((i + 2) * p.b)).drop ((i + 1) * p.b) =
        (xform p mode .dec nl k c d).1 := fun mode hm => by
    have hwidth : (i + 2) * p.b - (i + 1) * p.b = p.b := by rw [← Nat.sub_mul]; simp
    have hnctr : mode ≠ .ctr := by rcases hm with rfl | rfl <;> decide
    rw [List.drop_take, hwidth, foldBlocks_block hkey (fun h => absurd h hnctr) hfull hiv hd,
      foldBlocks_dec_chain hm hc hclen]
  refine ⟨?_, ?_⟩
  · rw [block .cfb (.inr rfl), xform_cfb_dec_full _ _ _ hdlen]
  · rw [block .cbc (.inl rfl), xform_cbc_dec]

/-- Settles O28: the block step of every job (`engineTurn_block`), whose transform is the mode's here. -/
theorem blockStepTransformsOneBlock : Obligations.BlockStepTransformsOneBlock := by
  intro s n dir hs hb hlt hop
  obtain ⟨sh, hsh, -⟩ := (hs.fields n (present_of_busy hb)).job ((busy_iff s n).1 hb).2
  obtain ⟨hsplit, -, hturn⟩ := engineTurn_block hs hb hlt hsh
  have hlen := blockOutput_length hs hb hlt hsh
  simp only [afterBlock, List.take_of_length_le hlen.le] at hturn
  rw [jobXform_stream hop] at hturn hlen
  refine ⟨sh, _, _, hsh, hsplit, hturn, hlen, fun x => ?_⟩
  rw [← hlen]
  exact Memory.get_write ..

/-- Settles O33: BLK steps of the counter block since the job's start, none of which wraps. -/
theorem ctrJobCountsFromItsStart : Obligations.CtrJobCountsFromItsStart := by
  rintro s n x c0 hs ⟨hb, -, hc0, sh, hsh, hchain, -⟩ hm hlt hroom
  have hj := jobFields_of_busy hs hb hsh
  have hnl := (hs.fields n (present_of_busy hb)).nl_lt
  rw [hchain, jobFold_ctr_chain hm (streamJob_of_ctr hsh hj hm), List.length_take_of_le (by rw [blocks_length]; omega)]
  exact nextCounter_iterate hnl.le hc0 _ (by omega)

end Sys2Proof.Proofs
end

section
/-! SUPPORT. The blocks a message is cut into: how many bytes they hold, and that the splitter's piece is one of them. -/

namespace Sys2Proof.Machine

/-! ### Blocks of a string (43_stream_driver.md R274, R276) -/

/-- The first block, and the blocks of the rest. -/
theorem blocks_succ (b n : Nat) (x : Bytes) : blocks b (n + 1) x = x.take b :: blocks b n (x.drop b) := by
  simp [blocks, List.range_succ_eq_map, Nat.succ_mul, Nat.add_comm]

/-- The first blocks, and the one after them. -/
theorem blocks_concat (b n : Nat) (x : Bytes) : blocks b (n + 1) x = blocks b n x ++ [(x.drop (n * b)).take b] := by
  simp [blocks, List.range_succ]

/-- The first `i` of more blocks. -/
theorem take_blocks {b i n : Nat} (h : i ≤ n) (x : Bytes) : (blocks b n x).take i = blocks b i x := by
  rw [blocks, ← List.map_take, List.take_range, Nat.min_eq_left h]
  rfl

/-- The blocks, joined, are the string up to their end. -/
theorem flatten_blocks (b n : Nat) (x : Bytes) : (blocks b n x).flatten = x.take (n * b) := by
  induction n generalizing x with
  | zero => simp [blocks]
  | succ n ih => rw [blocks_succ, List.flatten_cons, ih, Nat.succ_mul, Nat.add_comm (n * b) b, List.take_add]

/-- No block is longer than B, and each is full where the string has bytes for all of them. -/
theorem length_of_mem_blocks {b n : Nat} {x z : Bytes} (hz : z ∈ blocks b n x) :
    z.length ≤ b ∧ (n * b ≤ x.length → z.length = b) := by
  obtain ⟨i, hi, rfl⟩ := List.mem_map.1 hz
  rw [List.length_take, List.length_drop]
  refine ⟨Nat.min_le_left _ _, fun h => ?_⟩
  have hend := Nat.mul_le_mul_right b (Nat.succ_le_of_lt (List.mem_range.1 hi))
  rw [Nat.succ_mul] at hend
  omega

/-! ### What the splitter cuts -/

/-- The blocks of a job hold its output, exactly where they are all full (43_stream_driver.md R272, R273). -/
theorem maxoutOf_le_blocks {sh : JobShape} {b l : Nat} (hb : 0 < b) (hal : sh = .aligned → l % b = 0) :
    maxoutOf sh b l ≤ nblkOf sh b l * b ∧ (sh ≠ .stream → maxoutOf sh b l = nblkOf sh b l * b) := by
  cases sh with
  | padded => exact ⟨Nat.le_refl _, fun _ => rfl⟩
  | aligned =>
    have h : l = l / b * b := (Nat.div_mul_cancel (Nat.dvd_of_mod_eq_zero (hal rfl))).symm
    exact ⟨h.le, fun _ => h⟩
  | stream =>
    refine ⟨?_, fun h => absurd rfl h⟩
    have h := Nat.lt_div_mul_add (a := l + b - 1) hb
    rw [maxoutOf_stream, nblkOf_stream]
    omega

/-- What a job's blocks are cut from is as long as its output (43_stream_driver.md R273). -/
theorem splitInput_length (sh : JobShape) {b : Nat} (hb : 0 < b) (x : Bytes) :
    (splitInput sh b x).length = maxoutOf sh b x.length := by
  cases sh with
  | padded => exact padBytes_length hb x
  | aligned => rfl
  | stream => rfl

/-- The splitter's piece is a block of what the job cuts, if the bytes of the source from that block on are the
message's (43_stream_driver.md R274). -/
theorem pieceOf_input {sh : JobShape} {c : Ctx} {i : Nat} {s : State} {x : Bytes} (hb : 0 < s.inst.b)
    (hn : c.nblk = nblkOf sh s.inst.b c.jlen) (hi : i < c.nblk) (hx : x.length = c.jlen)
    (hrest : s.mem.read (c.jsrc + i * s.inst.b) (c.jlen - i * s.inst.b) = x.drop (i * s.inst.b)) :
    (pieceOf sh c i s).input = ((splitInput sh s.inst.b x).drop (i * s.inst.b)).take s.inst.b := by
  have inside : ∀ k, k ≤ c.jlen - i * s.inst.b →
      s.mem.read (c.jsrc + i * s.inst.b) k = (x.drop (i * s.inst.b)).take k := fun k hk => by
    rw [← hrest, Memory.read_take, Nat.min_eq_left hk]
  rw [hn] at hi
  cases sh with
  | padded =>
    obtain ⟨hstart, hshort⟩ := padded_last (l := c.jlen) hb
    rw [nblkOf_padded] at hi
    have hmul := Nat.mul_le_mul_right s.inst.b (Nat.le_of_lt_succ hi)
    have hdrop : (splitInput .padded s.inst.b x).drop (i * s.inst.b) = x.drop (i * s.inst.b) ++
        rep (BitVec.ofNat 8 (padCount s.inst.b x.length)) (padCount s.inst.b x.length) :=
      List.drop_append_of_le_length (by omega)
    simp only [pieceOf]
    split
    · next hlt =>
      rw [hn, nblkOf_padded] at hlt
      have hend := Nat.mul_le_mul_right s.inst.b (Nat.le_of_lt_succ hlt)
      rw [Nat.succ_mul] at hend
      rw [hdrop, List.take_append_of_le_length (by rw [List.length_drop]; omega)]
      exact inside _ (by omega)
    · next hlast =>
      rw [hn, nblkOf_padded] at hlast
      obtain rfl : i = c.jlen / s.inst.b := by omega
      have hcount : padCount s.inst.b x.length = s.inst.b - (c.jlen - c.jlen / s.inst.b * s.inst.b) := by
        rw [padCount, hx, Nat.mod_eq_sub_div_mul]
      rw [hdrop, hrest, hcount, List.take_of_length_le]
      rw [List.length_append, List.length_drop, rep_length]
      omega
  | aligned =>
    have hend := aligned_block_end hb hi
    exact inside _ (by omega)
  | stream =>
    rw [splitInput, ← hrest, Memory.read_take]
    rfl

/-- Block `i` is written at its own place (43_stream_driver.md R274). -/
@[simp] theorem pieceOf_dstoff (sh : JobShape) (c : Ctx) (i : Nat) (s : State) :
    (pieceOf sh c i s).dstoff = i * s.inst.b := by
  cases sh with
  | padded => simp only [pieceOf]; split <;> rfl
  | aligned => rfl
  | stream => rfl

/-- No piece of a job is empty (43_stream_driver.md R274). -/
theorem pieceOf_wlen_pos {sh : JobShape} {c : Ctx} {i : Nat} {s : State} (hb : 0 < s.inst.b)
    (hn : c.nblk = nblkOf sh s.inst.b c.jlen) (hi : i < c.nblk) : 1 ≤ (pieceOf sh c i s).wlen := by
  cases sh with
  | padded => simp only [pieceOf]; split <;> exact hb
  | aligned => exact hb
  | stream =>
    have hstart := stream_block_start hb (hn ▸ hi)
    exact Nat.le_min.2 ⟨hb, by omega⟩

end Sys2Proof.Machine
end

section
/-! SUPPORT. Folds of transforms over the blocks of a string: how long their output is, and that decryption undoes
encryption. -/

namespace Sys2Proof.Machine

/-- XORPRIM's keys are as wide as its blocks (00_scope.md R8, 40_primitive.md R166). -/
theorem keyLength_of_legal {p : Params} {k : Bytes} (hl : p.legal = true) (hk : k.length = p.keyBytes) :
    p.prim = .xorprim → k.length = p.b := fun hp => by
  obtain ⟨-, -, -, -, -, hxor⟩ := legal_spec hl
  exact hk.trans (hxor hp)

section Fold

variable {p : Params} {mode : Mode} {dir : Dir} {nl : Nat} {k : Bytes}

/-- The last block's transform gives the last bytes of a fold's output. -/
theorem foldBlocks_concat_out (xs : List Bytes) (x chain : Bytes) :
    (foldBlocks p mode dir nl k (xs ++ [x]) chain).1 =
      (foldBlocks p mode dir nl k xs chain).1 ++
        (xform p mode dir nl k (foldBlocks p mode dir nl k xs chain).2 x).1 := by
  induction xs generalizing chain with
  | nil => simp [foldBlocks]
  | cons y ys ih => rw [List.cons_append, foldBlocks_cons, foldBlocks_cons, ih, List.append_assoc]

/-- A fold's output is as long as its input (43_stream_driver.md R275). -/
theorem foldBlocks_length (hk : p.prim = .xorprim → k.length = p.b) (hnl : nl ≤ p.b) {pieces : List Bytes}
    (hle : ∀ x ∈ pieces, x.length ≤ p.b) (hfull : mode.blockAligned = true → ∀ x ∈ pieces, x.length = p.b)
    {chain : Bytes} (hc : chain.length = p.b) :
    (foldBlocks p mode dir nl k pieces chain).1.length = pieces.flatten.length := by
  induction pieces generalizing chain with
  | nil => rfl
  | cons x rest ih =>
    obtain ⟨hout, hchain⟩ := xform_lengths (dir := dir) hk hc (hle x List.mem_cons_self)
      (fun h => hfull h x List.mem_cons_self) hnl
    rw [foldBlocks_cons, List.flatten_cons, List.length_append, List.length_append, hout,
      ih (fun z hz => hle z (List.mem_cons_of_mem x hz)) (fun h z hz => hfull h z (List.mem_cons_of_mem x hz)) hchain]

/-- A fold over the blocks that hold a string gives a string of its length. -/
theorem foldBlocks_blocks_length (hk : p.prim = .xorprim → k.length = p.b) (hnl : nl ≤ p.b) {n : Nat} {y : Bytes}
    (hle : y.length ≤ n * p.b) (hfull : mode.blockAligned = true → y.length = n * p.b)
    {chain : Bytes} (hc : chain.length = p.b) :
    (foldBlocks p mode dir nl k (blocks p.b n y) chain).1.length = y.length := by
  rw [foldBlocks_length hk hnl (fun _ hz => (length_of_mem_blocks hz).1)
    (fun h _ hz => (length_of_mem_blocks hz).2 (hfull h).ge) hc, flatten_blocks, List.take_of_length_le hle]

/-- Decrypting an encrypted block gives it back and leaves the CHAIN that encrypting left (43_stream_driver.md R284); ECB
and CBC need the primitive's inverse property (40_primitive.md R164). -/
theorem xform_dec_enc (hl : p.legal = true) (hlen : k.length = p.keyBytes)
    (hprim : mode.blockAligned = true → PrimInv p) {chain x : Bytes} (hc : chain.length = p.b) (hx : x.length ≤ p.b)
    (hfull : mode.blockAligned = true → x.length = p.b) :
    xform p mode .dec nl k chain (xform p mode .enc nl k chain x).1 = (x, (xform p mode .enc nl k chain x).2) := by
  have hkey := primE_length (keyLength_of_legal hl hlen) hc
  have hstream : xorBytes (xorBytes x (primE p k chain)) (primE p k chain) = x := xorBytes_cancel (by rwa [hkey])
  cases mode with
  | ecb => rw [xform_ecb_enc, xform_ecb_dec, hprim rfl k x hlen (hfull rfl)]
  | cbc =>
    have hmix : (xorBytes x chain).length = p.b := by rw [xorBytes_length, hfull rfl, hc, Nat.min_self]
    rw [xform_cbc_enc, xform_cbc_dec, hprim rfl k _ hlen hmix, xorBytes_cancel (by rwa [hc])]
  | cfb =>
    have hout : (xorBytes x (primE p k chain)).length = x.length := xorBytes_length_of_le (by rwa [hkey])
    rcases Nat.lt_or_eq_of_le hx with hshort | hblock
    · rw [xform_cfb_short _ _ _ _ hshort, xform_cfb_short _ _ _ _ (hout ▸ hshort), hstream]
    · rw [xform_cfb_enc_full _ _ _ hblock, xform_cfb_dec_full _ _ _ (hout.trans hblock), hstream]
  | ofb => rw [xform_ofb, xform_ofb, hstream]
  | ctr => rw [xform_ctr, xform_ctr, hstream]

/-- A first block's output and the output of the rest are cut where the string was: the first is full or the last. -/
theorem take_drop_of_block_lengths {b : Nat} {y first later : Bytes} (hf : first.length = (y.take b).length)
    (hl : later.length = (y.drop b).length) : (first ++ later).take b = first ∧ (first ++ later).drop b = later := by
  rw [List.length_take] at hf
  rw [List.length_drop] at hl
  rcases Nat.le_total b y.length with hlong | hshort
  · have hb : first.length = b := by omega
    exact ⟨List.take_left' hb, List.drop_left' hb⟩
  · obtain rfl : later = [] := List.eq_nil_of_length_eq_zero (by omega)
    rw [List.append_nil]
    exact ⟨List.take_of_length_le (by omega), List.drop_of_length_le (by omega)⟩

/-- Decrypting the blocks of an encrypted string gives the string back (43_stream_driver.md R284). -/
theorem foldBlocks_dec_enc (hl : p.legal = true) (hlen : k.length = p.keyBytes)
    (hprim : mode.blockAligned = true → PrimInv p) (hnl : nl ≤ p.b) {n : Nat} {y : Bytes} (hle : y.length ≤ n * p.b)
    (hfull : mode.blockAligned = true → y.length = n * p.b) {chain : Bytes} (hc : chain.length = p.b) :
    (foldBlocks p mode .dec nl k
      (blocks p.b n (foldBlocks p mode .enc nl k (blocks p.b n y) chain).1) chain).1 = y := by
  have hk := keyLength_of_legal hl hlen
  induction n generalizing y chain with
  | zero =>
    obtain rfl : y = [] := by simpa using hle
    rfl
  | succ n ih =>
    rw [Nat.succ_mul] at hle hfull
    have hfirst : (y.take p.b).length ≤ p.b := by rw [List.length_take]; exact Nat.min_le_left _ _
    have hfirst' : mode.blockAligned = true → (y.take p.b).length = p.b := fun h => by
      rw [List.length_take, hfull h]; omega
    have hrest : (y.drop p.b).length ≤ n * p.b := by rw [List.length_drop]; omega
    have hrest' : mode.blockAligned = true → (y.drop p.b).length = n * p.b := fun h => by
      rw [List.length_drop, hfull h]; omega
    obtain ⟨hout, hchain⟩ := xform_lengths (dir := .enc) hk hc hfirst hfirst' hnl
    obtain ⟨htake, hdrop⟩ := take_drop_of_block_lengths hout
      (foldBlocks_blocks_length (dir := .enc) hk hnl hrest hrest' hchain)
    rw [blocks_succ p.b n y, foldBlocks_cons, blocks_succ, htake, hdrop, foldBlocks_cons,
      xform_dec_enc hl hlen hprim hc hfirst hfirst', ih hrest hrest' hchain, List.take_append_drop]

end Fold

/-! ### Encryption and decryption of a message (43_stream_driver.md R276, R284) -/

/-- What ENCRYPT makes of a message is as long as its padded form in ECB and CBC, and as long as the message otherwise; and
DECRYPT cuts it into as many blocks (43_stream_driver.md R272, R273). -/
theorem nblkOf_decrypt_encrypted (mode : Mode) {b : Nat} (hb : 0 < b) (l : Nat) :
    nblkOf (decryptShape mode) b (maxoutOf (encryptShape mode) b l) = nblkOf (encryptShape mode) b l := by
  unfold encryptShape decryptShape
  split
  · rw [maxoutOf_padded, nblkOf_aligned, nblkOf_padded, Nat.mul_div_cancel _ hb]
  · rfl

/-- A DECRYPT job pads nothing. -/
theorem splitInput_decryptShape (mode : Mode) (b : Nat) (y : Bytes) : splitInput (decryptShape mode) b y = y := by
  unfold decryptShape
  split <;> rfl

/-- Only jobs in ECB and CBC are not streams (43_stream_driver.md R274). -/
theorem encryptShape_ne_stream {mode : Mode} (h : mode.blockAligned = true) : encryptShape mode ≠ .stream := by
  rw [encryptShape, if_pos h]; decide

theorem encryptShape_ne_aligned (mode : Mode) : encryptShape mode ≠ .aligned := by
  unfold encryptShape
  split <;> decide

/-- The message function undoes itself. -/
theorem message_dec_enc {p : Params} {mode : Mode} {nl : Nat} {k c0 : Bytes} (x : Bytes) (hl : p.legal = true)
    (hlen : k.length = p.keyBytes) (hc : c0.length = p.b) (hnl : nl ≤ p.b)
    (hprim : mode.blockAligned = true → PrimInv p) :
    message p mode .dec nl k c0 (message p mode .enc nl k c0 x).1 = (x, .none) := by
  obtain ⟨hwidth, -⟩ := legal_spec hl
  have hb : 0 < p.b := by omega
  have hk := keyLength_of_legal hl hlen
  have hcut := splitInput_length (encryptShape mode) hb x
  obtain ⟨hle, hfull⟩ := maxoutOf_le_blocks (l := x.length) hb fun h => absurd h (encryptShape_ne_aligned mode)
  rw [← hcut] at hle hfull
  have hfull' := fun h => hfull (encryptShape_ne_stream (mode := mode) h)
  have hout := foldBlocks_blocks_length (dir := .enc) hk hnl hle hfull' hc
  have hback := foldBlocks_dec_enc hl hlen hprim hnl hle hfull' hc
  simp only [message, splitInput_decryptShape, hout, hcut, nblkOf_decrypt_encrypted mode hb, hback]
  split
  · next h =>
    have hshape : encryptShape mode = .padded := if_pos h
    rw [hshape, maxoutOf_padded, ← padBytes_length hb, splitInput, padLen_padBytes hb (by omega)]
    simp [padBytes]
  · next h =>
    have hshape : encryptShape mode = .stream := if_neg h
    rw [hshape, splitInput]

end Sys2Proof.Machine
end

section
/-! SUPPORT. A running job: what its blocks have computed, what a block step adds to it, and why no other step touches it. -/

namespace Sys2Proof.Machine

/-! ### What the blocks of a job compute -/

/-- What a job on the message `x`, begun with CHAIN `c0`, has computed when its first `i` blocks are done: its output bytes,
and CHAIN (43_stream_driver.md R275). -/
def jobDone (p : Params) (c : Ctx) (sh : JobShape) (x c0 : Bytes) (i : Nat) : Bytes × Bytes :=
  jobFold p c (blocks p.b i (splitInput sh p.b x)) c0

/-- One more block of a job is one more transform, with the CHAIN the blocks before it left. -/
theorem jobFold_concat {p : Params} {c : Ctx} {sh : JobShape} (hsh : jobShape c.op c.mode = some sh) (xs : List Bytes)
    (x chain : Bytes) :
    jobFold p c (xs ++ [x]) chain =
      ((jobFold p c xs chain).1 ++ (jobXform p { c with chain := (jobFold p c xs chain).2 } x).1,
       (jobXform p { c with chain := (jobFold p c xs chain).2 } x).2) := by
  rcases job_op hsh with (ho | ho) | (ho | ho) <;>
    simp only [jobFold, jobXform, ho, ← foldBlocks_concat_out, ← foldBlocks_concat_chain, List.flatten_append,
      List.flatten_singleton]

/-- The block step of a job whose CHAIN is what the blocks before it left. -/
theorem jobDone_succ {p : Params} {c : Ctx} {sh : JobShape} (hsh : jobShape c.op c.mode = some sh) {x c0 : Bytes} {i : Nat}
    (hc : c.chain = (jobDone p c sh x c0 i).2) :
    let r := jobXform p c (((splitInput sh p.b x).drop (i * p.b)).take p.b)
    jobDone p c sh x c0 (i + 1) = ((jobDone p c sh x c0 i).1 ++ r.1, r.2) := by
  have hself : { c with chain := (jobFold p c (blocks p.b i (splitInput sh p.b x)) c0).2 } = c := by
    rw [← jobDone, ← hc]
  rw [jobDone, blocks_concat, jobFold_concat hsh, hself]
  rfl

section

variable {p : Params} {c : Ctx} {sh : JobShape} {x c0 : Bytes} (hl : p.legal = true) (hf : CtxFields p c)
  (hsh : jobShape c.op c.mode = some sh) (hj : JobFields p c sh) (hx : x.length = c.jlen) (hc0 : c0.length = p.b)
include hl hf hsh hj hx hc0

/-- The blocks of a job give as many bytes as they take, up to MAXOUT in all (43_stream_driver.md R273, R275). -/
theorem jobDone_length {i : Nat} (hi : i ≤ c.nblk) : (jobDone p c sh x c0 i).1.length = min (i * p.b) c.maxout := by
  obtain ⟨hwidth, -⟩ := legal_spec hl
  have hb : 0 < p.b := by omega
  have hcut : (splitInput sh p.b x).length = c.maxout := by rw [splitInput_length sh hb, hx, hj.maxout_eq]
  obtain ⟨-, hblocks⟩ := maxoutOf_le_blocks (l := c.jlen) hb fun h => (hj.aligned_len h).2
  have hpieces : (blocks p.b i (splitInput sh p.b x)).flatten.length = min (i * p.b) c.maxout := by
    rw [flatten_blocks, List.length_take, hcut]
  have hstream : ∀ dir, c.op = .encrypt ∨ c.op = .decrypt →
      (foldBlocks p c.mode dir c.nl.toNat c.k (blocks p.b i (splitInput sh p.b x)) c0).1.length =
        min (i * p.b) c.maxout := fun dir ho => by
    refine (foldBlocks_length (keyLength_of_legal hl hf.k_len) hf.nl_lt.le (fun _ hz => (length_of_mem_blocks hz).1)
      (fun h z hz => (length_of_mem_blocks hz).2 ?_) hc0).trans hpieces
    rw [hcut, hj.maxout_eq, hblocks ((shape_aligned_mode hsh ho).1 h), ← hj.nblk_eq]
    exact Nat.mul_le_mul_right _ hi
  rcases job_op hsh with (ho | ho) | (ho | ho)
  · simp only [jobDone, jobFold, ho, hstream .enc (.inl ho)]
  · simp only [jobDone, jobFold, ho, hstream .dec (.inr ho)]
  · simp only [jobDone, jobFold, ho, hpieces]
  · simp only [jobDone, jobFold, ho, hpieces]

/-- All blocks of a job give MAXOUT bytes (43_stream_driver.md R273). -/
theorem jobDone_length_all : (jobDone p c sh x c0 c.nblk).1.length = c.maxout := by
  obtain ⟨hwidth, -⟩ := legal_spec hl
  obtain ⟨hle, -⟩ := maxoutOf_le_blocks (l := c.jlen) (by omega) fun h => (hj.aligned_len h).2
  rw [jobDone_length hl hf hsh hj hx hc0 (Nat.le_refl _), hj.nblk_eq, hj.maxout_eq]
  exact Nat.min_eq_right hle

end

/-! ### The progress of a job, part by part -/

/-- `JobProgress` of a job of shape `sh`, part by part. -/
structure Progress (s : State) (n : Fin 16) (sh : JobShape) (x c0 : Bytes) : Prop where
  busy : busy s n = true
  shape : jobShape (s.ctx n).op (s.ctx n).mode = some sh
  message_len : x.length = (s.ctx n).jlen
  start_len : c0.length = s.inst.b
  chain : (s.ctx n).chain = (jobDone s.inst (s.ctx n) sh x c0 (s.ctx n).blk).2
  output : s.mem.read (s.ctx n).jdst (jobDone s.inst (s.ctx n) sh x c0 (s.ctx n).blk).1.length =
    (jobDone s.inst (s.ctx n) sh x c0 (s.ctx n).blk).1
  rest : s.mem.read ((s.ctx n).jsrc + (s.ctx n).blk * s.inst.b) ((s.ctx n).jlen - (s.ctx n).blk * s.inst.b) =
    x.drop ((s.ctx n).blk * s.inst.b)

theorem jobProgress_iff {s : State} (hs : s.Good) {n : Fin 16} {x c0 : Bytes} :
    JobProgress s n x c0 ↔ ∃ sh, Progress s n sh x c0 := by
  have pieces : ∀ {sh}, Machine.busy s n = true → jobShape (s.ctx n).op (s.ctx n).mode = some sh →
      jobFold s.inst (s.ctx n)
        ((blocks s.inst.b (s.ctx n).nblk (splitInput sh s.inst.b x)).take (s.ctx n).blk) c0 =
      jobDone s.inst (s.ctx n) sh x c0 (s.ctx n).blk := fun hb hsh => by
    rw [take_blocks (jobFields_of_busy hs hb hsh).blk_le, jobDone]
  constructor
  · rintro ⟨hb, hx, hc0, sh, hsh, hprog⟩
    simp only [pieces hb hsh] at hprog
    obtain ⟨hchain, hout, hrest⟩ := hprog
    exact ⟨sh, hb, hsh, hx, hc0, hchain, hout, hrest⟩
  · rintro ⟨sh, hp⟩
    refine ⟨hp.busy, hp.message_len, hp.start_len, sh, hp.shape, ?_⟩
    simp only [pieces hp.busy hp.shape]
    exact ⟨hp.chain, hp.output, hp.rest⟩

/-- A string read outside the bytes written is the old one. -/
theorem Memory.read_write_outside (m : Memory) {a d k : Nat} {bs : Bytes}
    (h : ∀ y, d ≤ y → y < d + k → y < a ∨ a + bs.length ≤ y) : (m.write a bs).read d k = m.read d k :=
  Memory.read_congr _ _ _ _ fun y hlo hhi => Memory.get_write_outside m a bs y (h y hlo hhi)

/-- What a block step leaves in MSGMEM: the transform of the piece, in its place in the destination. -/
theorem mem_afterBlock {s : State} {n : Fin 16} {sh : JobShape} (hs : s.Good) (hb : busy s n = true)
    (hlt : (s.ctx n).blk < (s.ctx n).nblk) (hsh : jobShape (s.ctx n).op (s.ctx n).mode = some sh) :
    let piece := pieceOf sh (s.ctx n) (s.ctx n).blk s
    (afterBlock s n piece).mem =
      s.mem.write ((s.ctx n).jdst + (s.ctx n).blk * s.inst.b) (jobXform s.inst (s.ctx n) piece.input).1 := by
  simp only [afterBlock, State.setCtx_mem, pieceOf_dstoff, List.take_of_length_le (blockOutput_length hs hb hlt hsh).le]

section

variable {s : State} {n : Fin 16} {sh : JobShape} {x c0 : Bytes}

/-- In a well-formed state the next block of a job is the message's, its output lies in the destination, as long as
MAXOUT allows, and the output so far ends where it begins. -/
theorem Progress.nextBlock_spec (hs : s.Good) (hp : Progress s n sh x c0) (hlt : (s.ctx n).blk < (s.ctx n).nblk) :
    let piece := pieceOf sh (s.ctx n) (s.ctx n).blk s
    let r := jobXform s.inst (s.ctx n) piece.input
    (jobDone s.inst (s.ctx n) sh x c0 (s.ctx n).blk).1.length = (s.ctx n).blk * s.inst.b ∧
    jobDone s.inst (s.ctx n) sh x c0 ((s.ctx n).blk + 1) =
      ((jobDone s.inst (s.ctx n) sh x c0 (s.ctx n).blk).1 ++ r.1, r.2) ∧
    r.1.length ≤ s.inst.b ∧ (s.ctx n).blk * s.inst.b + r.1.length ≤ (s.ctx n).maxout := by
  have hj := jobFields_of_busy hs hp.busy hp.shape
  have hwidth := (legal_spec hs.legal).1
  have hb : 0 < s.inst.b := by omega
  obtain ⟨-, hle, -, hend⟩ := pieceOf_len hb hj.nblk_eq hlt hj.aligned_len
  rw [pieceOf_dstoff, ← hj.maxout_eq] at hend
  have hlen := blockOutput_length hs hp.busy hlt hp.shape
  have hbefore := jobDone_length hs.legal (hs.fields n (present_of_busy hp.busy)) hp.shape hj hp.message_len hp.start_len
    hj.blk_le
  refine ⟨hbefore.trans (Nat.min_eq_left (by omega)), ?_, hlen ▸ hle, hlen ▸ hend⟩
  rw [pieceOf_input hb hj.nblk_eq hlt hp.message_len hp.rest]
  exact jobDone_succ hp.shape hp.chain

/-- The job's own block step takes it one block on: the block's output follows the output so far, and what is overwritten
of the source, where source and destination are one, is the block itself (20_memory.md R90, 43_stream_driver.md R275). -/
theorem Progress.step_block (hs : s.Good) (hp : Progress s n sh x c0) (hlt : (s.ctx n).blk < (s.ctx n).nblk) :
    Progress (afterBlock s n (pieceOf sh (s.ctx n) (s.ctx n).blk s)) n sh x c0 := by
  have hj := jobFields_of_busy hs hp.busy hp.shape
  obtain ⟨hbefore, hnext, hle, hend⟩ := hp.nextBlock_spec hs hlt
  have hmem := mem_afterBlock hs hp.busy hlt hp.shape
  have hctx := ctx_afterBlock_same s n (pieceOf sh (s.ctx n) (s.ctx n).blk s)
  generalize pieceOf sh (s.ctx n) (s.ctx n).blk s = piece at *
  have hinst : (afterBlock s n piece).inst = s.inst := rfl
  have hdone : jobDone s.inst ((afterBlock s n piece).ctx n) sh x c0 ((s.ctx n).blk + 1) =
      jobDone s.inst (s.ctx n) sh x c0 ((s.ctx n).blk + 1) := by rw [hctx]; rfl
  have hblk : ((afterBlock s n piece).ctx n).blk = (s.ctx n).blk + 1 := by rw [hctx]
  refine ⟨(busy_congr hinst (by rw [hctx])).trans hp.busy, by rw [hctx]; exact hp.shape, by rw [hctx]; exact hp.message_len,
    hp.start_len, ?_, ?_, ?_⟩
  · rw [hinst, hblk, hdone, hnext, hctx]
  · rw [hinst, hblk, hdone, hnext, List.length_append, Memory.read_add, hbefore, hctx, hmem, Memory.read_write_same,
      Memory.read_write_outside _ fun y _ hhi => .inl hhi, ← hbefore, hp.output]
  · rw [hinst, hblk, hctx, hmem, Memory.read_write_outside _ fun y hlo hhi => ?_]
    · rw [Nat.succ_mul, ← List.drop_drop, ← hp.rest, Memory.read_drop, Nat.add_assoc, Nat.sub_sub]
    · simp only [Nat.succ_mul] at hlo hhi
      rcases hj.own_overlap with hdis | hsame
      · rw [disjoint_iff] at hdis; omega
      · omega

/-- No byte of the source or destination of a running job, nor the job's context, changes. -/
structure Untouched (s t : State) (n : Fin 16) : Prop where
  inst : t.inst = s.inst
  ctx : t.ctx n = s.ctx n
  mem : ∀ y, inSource (s.ctx n) y = true ∨ inDest (s.ctx n) y = true → t.mem.get y = s.mem.get y

/-- What touches neither a job's context nor its bytes leaves its progress. -/
theorem Progress.of_untouched {t : State} (hs : s.Good) (hp : Progress s n sh x c0) (h : Untouched s t n) :
    Progress t n sh x c0 := by
  have hj := jobFields_of_busy hs hp.busy hp.shape
  have hlen := jobDone_length hs.legal (hs.fields n (present_of_busy hp.busy)) hp.shape hj hp.message_len hp.start_len
    hj.blk_le
  obtain ⟨hinst, hctx, hmem⟩ := h
  simp only [inSource_iff, inDest_iff] at hmem
  refine ⟨(busy_congr hinst (by rw [hctx])).trans hp.busy, by rw [hctx]; exact hp.shape, by rw [hctx]; exact hp.message_len,
    by rw [hinst]; exact hp.start_len, by rw [hinst, hctx]; exact hp.chain, ?_, ?_⟩
  · rw [hinst, hctx, Memory.read_congr t.mem s.mem _ _ fun y hlo hhi => hmem y (.inr ⟨hlo, by omega⟩)]
    exact hp.output
  · rw [hinst, hctx, Memory.read_congr t.mem s.mem _ _ fun y hlo hhi => hmem y (.inl ⟨by omega, by omega⟩)]
    exact hp.rest

end

/-! ### What touches a running job -/

section

variable {s t : State} {n : Fin 16}

/-- No byte of a running job lies in the destination of another (20_memory.md R90, R106). -/
theorem State.Good.not_inDest_other (hs : s.Good) {m : Fin 16} (hmn : m ≠ n) (hm : busy s m = true) (hn : busy s n = true)
    {y : Nat} (hy : inSource (s.ctx n) y = true ∨ inDest (s.ctx n) y = true) : ¬ inDest (s.ctx m) y = true := by
  obtain ⟨hsrc, hdst⟩ := hs.apart m n hmn hm hn
  rcases hy with hy | hy
  · exact fun h => (disjoint_spec ..).1 hsrc y ⟨h, hy⟩
  · exact fun h => (disjoint_spec ..).1 hdst y ⟨h, hy⟩

/-- An engine turn on another context does not touch a running job (20_memory.md R106). -/
theorem untouched_of_turned {m : Fin 16} (hs : s.Good) (hn : busy s n = true) (hmn : m ≠ n) (h : Turned s m t) :
    Untouched s t n := by
  refine ⟨turned_inst h, turned_ctx_other h hmn.symm, fun y hy => ?_⟩
  cases hm : busy s m with
  | true => exact turned_mem_outside hs h fun hd => hs.not_inDest_other hmn hm hn hy ((inDest_iff _ y).2 hd)
  | false =>
    cases h with
    | passed => rfl
    | advanced hb => rw [hm] at hb; cases hb
    | ended hb => rw [hm] at hb; cases hb

/-- A running job ends by the command that names it, or no command touches it (44_control_interleaver.md R305). -/
theorem untouched_of_issued {i : Instr} (hs : s.Good) (hn : busy s n = true) (h : Issued s i t) (ht : busy t n = true) :
    Untouched s t n := by
  have hst := ((busy_iff s n).1 hn).2
  have quiet : t.inst = s.inst → t.ctx n = s.ctx n → t.mem = s.mem → Untouched s t n := fun hi hc hm =>
    ⟨hi, hc, fun y _ => by rw [hm]⟩
  have other : ∀ {m : Fin 16}, i.ctx? = some m → (s.ctx m).state ≠ .busy → t.ctx n = s.ctx n := fun hi hm =>
    issued_ctx_other h fun hin => hm (Option.some.inj (hi.symm.trans hin) ▸ hst)
  cases h with
  | nop => exact quiet rfl rfl rfl
  | rejected => exact quiet rfl rfl rfl
  | initFailed hi _ hb => exact quiet rfl (other (ctx_of_isInit hi) hb) rfl
  | initDone hi _ hb => exact quiet rfl (other (ctx_of_isInit hi) hb) rfl
  | @started _ op _ _ hi hj =>
    refine quiet rfl (other (ctx_of_isJob hi) ?_) rfl
    rw [hj.state, stateBeforeJob]
    split <;> decide
  | spoiled hi _ _ hr => exact quiet rfl (other (ctx_of_isJob hi) (by rw [hr]; decide)) rfl
  | discarded _ hb => exact quiet rfl (other rfl hb) rfl
  | @aborted m hb =>
    have hmn : m ≠ n := by
      rintro rfl
      have hstate := ((busy_iff _ m).1 ht).2
      rw [ctx_failWith_same] at hstate
      exact stateAfterJob_ne _ hstate
    refine ⟨rfl, ctx_failWith_other hmn.symm .., fun y hy => ?_⟩
    have hout := hs.not_inDest_other hmn hb hn hy
    rw [inDest_iff] at hout
    exact (Memory.get_write_zeros ..).trans (if_neg hout)

/-- A written word leaves a locked byte as it was (20_memory.md R89). -/
theorem get_writeMsgmem_locked (j : Nat) (v : Word) {y : Nat} (hl : locked s y = true) :
    (writeMsgmem s j v).mem.get y = s.mem.get y := by
  by_cases hin : j ≤ y ∧ y < j + 4
  · obtain ⟨b, rfl⟩ : ∃ b : Fin 4, y = j + b.val := ⟨⟨y - j, by omega⟩, (Nat.add_sub_cancel' hin.1).symm⟩
    rw [get_writeMsgmem_inside, if_pos hl]
  · exact get_writeMsgmem_outside s v (by omega)

/-- A host write drops the bytes that a running job holds (20_memory.md R89, R51). -/
theorem untouched_of_writeReg {r : Reg} {v : Word} (hn : busy s n = true) (hr : r ≠ .cmd)
    (h : writeReg r v s = .next t) : Untouched s t n := by
  obtain ⟨hinst, hctxs⟩ := writeReg_inst_ctxs hr h
  refine ⟨hinst, State.ctx_congr hctxs n, fun y hy => ?_⟩
  cases r with
  | cmd => exact absurd rfl hr
  | msgmem j =>
    cases h
    exact get_writeMsgmem_locked j v ((locked_iff s y).2 ⟨n, hn, hy⟩)
  | _ => cases h; rfl

/-- No step disturbs a job that is still running after it (20_memory.md R106, 43_stream_driver.md R275). -/
theorem progress_of_stepped {sh : JobShape} {x c0 : Bytes} (hs : s.Good) (hp : Progress s n sh x c0) (h : Stepped s t)
    (ht : busy t n = true) : Progress t n sh x c0 := by
  have taken : ∀ a k, ({ s with agenda := a, tick := k } : State).Good := hs.schedule
  have quiet : t.inst = s.inst → t.ctx n = s.ctx n → t.mem = s.mem → Progress t n sh x c0 := fun hi hc hm =>
    hp.of_untouched hs ⟨hi, hc, fun y _ => by rw [hm]⟩
  cases h with
  | idle => exact hp
  | @turn m a k _ _ h =>
    by_cases hmn : m = n
    · subst hmn
      cases h with
      | passed => exact quiet rfl rfl rfl
      | advanced hb hsh hlt =>
        obtain rfl := Option.some.inj (hp.shape.symm.trans hsh)
        have hp' : Progress { s with agenda := a, tick := k } m sh x c0 := hp.of_untouched hs ⟨rfl, rfl, fun _ _ => rfl⟩
        exact hp'.step_block (taken a k) hlt
      | ended =>
        have hstate := ((busy_iff _ m).1 ht).2
        rw [ctx_finish_same] at hstate
        exact absurd hstate (stateAfterJob_ne _)
    · obtain ⟨hi, hc, hm⟩ := untouched_of_turned (taken a k) hp.busy hmn h
      exact hp.of_untouched hs ⟨hi, hc, hm⟩
  | reset =>
    have hstate := ((busy_iff _ n).1 ht).2
    rw [ctx_resetStep] at hstate
    cases hstate
  | misaligned => exact quiet rfl rfl rfl
  | read => exact quiet rfl rfl rfl
  | @command i rest u _ h =>
    obtain ⟨hi, hc, hm⟩ := untouched_of_issued (taken rest s.tick) hp.busy h ht
    exact hp.of_untouched hs ⟨hi, hc, hm⟩
  | malformed => exact quiet rfl rfl rfl
  | @write a v rest u _ hr h =>
    obtain ⟨hi, hc, hm⟩ := untouched_of_writeReg (s := { s with agenda := rest }) hp.busy hr h
    exact hp.of_untouched hs ⟨hi, hc, hm⟩

end

end Sys2Proof.Machine
end

section
/-! SUPPORT. The end of a job: the message function is what its blocks computed, its padding checked and stripped where the
completion does so, and what the completion leaves in the destination. -/

namespace Sys2Proof.Machine

/-- The result of a job whose blocks gave `y`: all of it, or what is left when its padding is checked and stripped
(43_stream_driver.md R280 to R282, 41_padding.md R193, R198). -/
def jobResult (p : Params) (c : Ctx) (y : Bytes) : Bytes × ErrCode :=
  if unpads c then
    match padLen p.b y with
    | none => ([], .invalidPadding)
    | some k => (y.take (y.length - k), .none)
  else (y, .none)

/-- A job that copies gives what its blocks are cut from (41_padding.md R192). -/
theorem jobDone_copy {p : Params} {c : Ctx} {sh : JobShape} (hl : p.legal = true) (hj : JobFields p c sh) {x c0 : Bytes}
    (hx : x.length = c.jlen) (ho : c.op = .pad ∨ c.op = .unpad) :
    (jobDone p c sh x c0 c.nblk).1 = splitInput sh p.b x := by
  have hb : 0 < p.b := by have := (legal_spec hl).1; omega
  obtain ⟨hle, -⟩ := maxoutOf_le_blocks (l := c.jlen) hb fun h => (hj.aligned_len h).2
  have hcut : (splitInput sh p.b x).length ≤ c.nblk * p.b := by
    rw [splitInput_length sh hb, hx, hj.nblk_eq]; exact hle
  rw [← List.take_of_length_le hcut, ← flatten_blocks]
  rcases ho with ho | ho <;> simp only [jobDone, jobFold, ho]

section

variable {p : Params} {c : Ctx}

theorem jobResult_of_not_unpads {y : Bytes} (h : unpads c = false) : jobResult p c y = (y, .none) := by
  simp only [jobResult, h, Bool.false_eq_true, if_false]

theorem jobResult_of_invalid {y : Bytes} (h : unpads c = true) (hp : padLen p.b y = none) :
    jobResult p c y = ([], .invalidPadding) := by
  simp only [jobResult, h, if_true, hp]

theorem jobResult_of_valid {y : Bytes} {k : Nat} (h : unpads c = true) (hp : padLen p.b y = some k) :
    jobResult p c y = (y.take (y.length - k), .none) := by
  simp only [jobResult, h, if_true, hp]

/-- The jobs whose padding is checked pad nothing (43_stream_driver.md R273). -/
theorem maxout_eq_jlen_of_unpads {sh : JobShape} (hsh : jobShape c.op c.mode = some sh) (hj : JobFields p c sh)
    (h : unpads c = true) : c.maxout = c.jlen := by
  have hne : sh ≠ .padded := by
    rintro rfl
    rcases (unpads_iff c).1 h with ho | ⟨ho, hm⟩
    · simp [ho, jobShape] at hsh
    · simp [ho, jobShape, (blockAligned_iff c.mode).2 hm] at hsh
  rw [hj.maxout_eq]
  cases sh with
  | padded => exact absurd rfl hne
  | aligned => rfl
  | stream => rfl

/-- The output length of a completion without a padding check is that of the output (43_stream_driver.md R280). -/
theorem plainOutlen_eq_maxout {sh : JobShape} (hsh : jobShape c.op c.mode = some sh) (hj : JobFields p c sh) :
    plainOutlen c = c.maxout := by
  rw [plainOutlen, hsh]
  cases sh with
  | padded => rfl
  | aligned => exact hj.maxout_eq.symm
  | stream => exact hj.maxout_eq.symm

/-- DECRYPT delivers the result of what its blocks gave (43_stream_driver.md R276, R280 to R282). -/
theorem message_dec_eq {y c0 x : Bytes} (ho : c.op = .decrypt) (hlen : y.length = x.length)
    (hy : (foldBlocks p c.mode .dec c.nl.toNat c.k
      (blocks p.b (nblkOf (decryptShape c.mode) p.b x.length) x) c0).1 = y) :
    message p c.mode .dec c.nl.toNat c.k c0 x = jobResult p c y := by
  simp only [message, splitInput_decryptShape, hy]
  cases hm : c.mode.blockAligned with
  | false => rw [jobResult_of_not_unpads (by simp [unpads, ho, hm]), if_neg (by decide)]
  | true =>
    have hu : unpads c = true := by simp [unpads, ho, hm]
    rw [if_pos rfl]
    cases hpad : padLen p.b y with
    | none => rw [jobResult_of_invalid hu hpad]
    | some k => rw [jobResult_of_valid hu hpad, hlen]

/-- The message function of a job is the result of all its blocks (43_stream_driver.md R276). -/
theorem jobMessage_eq {sh : JobShape} (hl : p.legal = true) (hf : CtxFields p c) (hsh : jobShape c.op c.mode = some sh)
    (hj : JobFields p c sh) {x c0 : Bytes} (hx : x.length = c.jlen) (hc0 : c0.length = p.b) :
    jobMessage p c c0 x = jobResult p c (jobDone p c sh x c0 c.nblk).1 := by
  cases ho : c.op with
  | encrypt =>
    obtain rfl : encryptShape c.mode = sh := by simpa [ho, jobShape, encryptShape] using hsh
    rw [jobResult_of_not_unpads (by simp [unpads, ho])]
    simp only [jobMessage, message, jobDone, jobFold, ho, hj.nblk_eq, hx]
  | decrypt =>
    obtain rfl : decryptShape c.mode = sh := by simpa [ho, jobShape, decryptShape] using hsh
    have hmax : c.maxout = x.length := by
      rw [hj.maxout_eq, hx, decryptShape]
      split <;> rfl
    have hlen := (jobDone_length_all hl hf hsh hj hx hc0).trans hmax
    simp only [jobMessage, ho]
    refine message_dec_eq ho hlen ?_
    simp only [jobDone, jobFold, ho, splitInput_decryptShape, hj.nblk_eq, hx]
  | pad =>
    obtain rfl : .padded = sh := by simpa [ho, jobShape] using hsh
    rw [jobDone_copy hl hj hx (.inl ho), jobResult_of_not_unpads (by simp [unpads, ho])]
    simp only [jobMessage, ho, splitInput]
  | unpad =>
    obtain rfl : .stream = sh := by simpa [ho, jobShape] using hsh
    have hu : unpads c = true := by simp [unpads, ho]
    rw [jobDone_copy hl hj hx (.inr ho), splitInput]
    simp only [jobMessage, ho]
    cases hpad : padLen p.b x with
    | none => rw [jobResult_of_invalid hu hpad]
    | some k => rw [jobResult_of_valid hu hpad]
  | _ => simp [ho, jobShape] at hsh

end

/-- CDONE of a context is the bit of its number (10_state.md R34). -/
theorem getLsbD_cdoneBit (n : Fin 16) : (cdoneBit n).getLsbD n.val = true := by
  revert n; decide

/-- Zeros written over the last `k` bytes of a range leave the bytes before them. -/
theorem Memory.read_write_zeros_end (m : Memory) {d l k : Nat} (h : k ≤ l) :
    (m.write (d + l - k) (zeros k)).read d l = (m.read d l).take (l - k) ++ zeros k := by
  have hback := Memory.read_write_same m (d + (l - k)) (zeros k)
  rw [zeros_length] at hback
  rw [Memory.read_take, Nat.min_eq_left (Nat.sub_le l k), Nat.add_sub_assoc h]
  conv_lhs => rw [← Nat.sub_add_cancel h]
  rw [Memory.read_add, Nat.sub_add_cancel h, hback, Memory.read_write_outside _ fun y _ hhi => .inl hhi]

/-- The completion of a job whose blocks gave `y` delivers the result of `y`, zeros after it, and its status
(43_stream_driver.md R280 to R282, 41_padding.md R193, R198). -/
theorem complete_delivers {s : State} {n : Fin 16} {sh : JobShape} {y : Bytes} (hs : s.Good) (hb : busy s n = true)
    (hsh : jobShape (s.ctx n).op (s.ctx n).mode = some sh) (hlen : y.length = (s.ctx n).maxout)
    (hy : s.mem.read (s.ctx n).jdst (s.ctx n).maxout = y) :
    let r := jobResult s.inst (s.ctx n) y
    ∃ m : Memory,
      complete n s = .next (finish n (s.ctx n) (stateAfterJob (s.ctx n).op) r.2 r.1.length { s with mem := m }) ∧
      r.1.length ≤ (s.ctx n).maxout ∧
      m.read (s.ctx n).jdst (s.ctx n).maxout = r.1 ++ zeros ((s.ctx n).maxout - r.1.length) := by
  have hj := jobFields_of_busy hs hb hsh
  have hdst := hj.dst_inside
  cases hu : unpads (s.ctx n) with
  | false =>
    rw [complete_of_not_unpads hsh hu, jobResult_of_not_unpads hu, plainOutlen_eq_maxout hsh hj, ← hlen]
    refine ⟨s.mem, rfl, Nat.le_refl _, ?_⟩
    rw [Nat.sub_self, zeros_zero, List.append_nil, hlen, hy]
  | true =>
    have hmax := maxout_eq_jlen_of_unpads hsh hj hu
    have hcheck := congrArg (padLen s.inst.b) hy
    rw [hmax] at hcheck
    rw [complete_of_unpads hsh hu]
    cases hpad : padLen s.inst.b y with
    | none =>
      rw [jobResult_of_invalid hu hpad]
      refine ⟨_, completeUnpad_of_invalid (hmax ▸ hdst) hdst (hcheck.trans hpad), Nat.zero_le _, ?_⟩
      have hback := Memory.read_write_same s.mem (s.ctx n).jdst (zeros (s.ctx n).maxout)
      rwa [zeros_length] at hback
    | some k =>
      obtain ⟨-, -, hk, -⟩ := padLen_eq_some hpad
      have hout : (y.take (y.length - k)).length = (s.ctx n).jlen - k := by
        rw [List.length_take, hlen, hmax]; exact Nat.min_eq_left (Nat.sub_le _ _)
      rw [jobResult_of_valid hu hpad]
      refine ⟨_, by rw [hout]; exact completeUnpad_of_valid (hmax ▸ hdst) (hcheck.trans hpad), by rw [hout]; omega, ?_⟩
      rw [← hmax, Memory.read_write_zeros_end _ (hlen ▸ hk), hy, hout, hlen, hmax, Nat.sub_sub_self (by omega)]

end Sys2Proof.Machine
end

section
/-! SUPPORT. INIT, ENCRYPT and DECRYPT at their issue: which of their outcomes they answer, by the checks they make. -/

namespace Sys2Proof.Machine

/-! ### INIT (43_stream_driver.md R260 to R264) -/

/-- The five INITs are one operation in their mode (43_stream_driver.md R260). -/
theorem exec_of_isInit {i : Instr} {mode : Mode} {n : Fin 16} (h : isInit i mode n) (s : State) :
    exec i s = issueInit mode n s := by
  obtain ⟨rfl, rfl⟩ | ⟨rfl, rfl⟩ | ⟨rfl, rfl⟩ | ⟨rfl, rfl⟩ | ⟨rfl, rfl⟩ := h <;> rfl

section

variable {mode : Mode} {n : Fin 16} {s : State}

/-- The checks of the IV, the nonce and the starting counter that a mode makes (43_stream_driver.md R262). -/
def ivChecks (mode : Mode) (s : State) : Prop :=
  (mode = .cbc ∨ mode = .cfb ∨ mode = .ofb → s.cfg.ivlen.toNat = s.inst.b) ∧
  (mode = .ctr → s.cfg.noncelen.toNat < s.inst.b ∧ s.cfg.ivlen = s.cfg.noncelen ∧
    startCounter s < 256 ^ (s.inst.b - s.cfg.noncelen.toNat))

theorem initCheck_of_keylen_ne (hk : s.cfg.keylen.toNat ≠ s.inst.keyBytes) : initCheck mode s = some .invalidKeyLength :=
  if_pos hk

theorem initCheck_of_ivChecks (hk : s.cfg.keylen.toNat = s.inst.keyBytes) (hiv : ivChecks mode s) :
    initCheck mode s = none := by
  obtain ⟨hiv, hctr⟩ := hiv
  refine (if_neg (not_not_intro hk)).trans ?_
  cases mode with
  | ecb => rfl
  | cbc => exact if_neg (not_not_intro (hiv (.inl rfl)))
  | cfb => exact if_neg (not_not_intro (hiv (.inr (.inl rfl))))
  | ofb => exact if_neg (not_not_intro (hiv (.inr (.inr rfl))))
  | ctr =>
    obtain ⟨hnonce, hlen, hcount⟩ := hctr rfl
    refine if_neg ?_
    rintro (h | h | h)
    · omega
    · exact h hlen
    · exact absurd hcount h.not_gt

theorem initCheck_of_not_ivChecks (hk : s.cfg.keylen.toNat = s.inst.keyBytes) (hiv : ¬ ivChecks mode s) :
    initCheck mode s = some .invalidIVLength := by
  refine (if_neg (not_not_intro hk)).trans ?_
  cases mode with
  | ecb => exact absurd ⟨by simp, by simp⟩ hiv
  | cbc => exact if_pos fun h => hiv ⟨fun _ => h, by simp⟩
  | cfb => exact if_pos fun h => hiv ⟨fun _ => h, by simp⟩
  | ofb => exact if_pos fun h => hiv ⟨fun _ => h, by simp⟩
  | ctr =>
    refine if_pos ?_
    by_contra hno
    rw [not_or, not_or, Nat.not_le, Nat.not_le, not_not] at hno
    exact hiv ⟨by simp, fun _ => hno⟩

/-- INIT that passes its checks (43_stream_driver.md R264). -/
theorem issueInit_done (hp : present s n = true) (hb : (s.ctx n).state ≠ .busy) (hc : initCheck mode s = none) :
    issueInit mode n s = .next (finish n
      { s.ctx n with lastop := .init, mode := mode, k := (keyString s).take s.inst.keyBytes, chain := initChain mode s,
                     nl := initNl mode s } .ready .none 0 s) := by
  simp only [issueInit, onCtx_present hp, if_neg hb, hc]

/-- INIT that fails a check (43_stream_driver.md R263). -/
theorem issueInit_failed {code : ErrCode} (hp : present s n = true) (hb : (s.ctx n).state ≠ .busy)
    (hc : initCheck mode s = some code) :
    issueInit mode n s =
      .next (failWith n (({ s.ctx n with lastop := .init }).cleared s.inst) .empty code s) := by
  simp only [issueInit, onCtx_present hp, if_neg hb, hc]

theorem initChain_eq (mode : Mode) (s : State) :
    initChain mode s =
      if mode = .ecb then zeros s.inst.b
      else if mode = .ctr then
        (ivString s).take s.cfg.noncelen.toNat ++ beBytes (s.inst.b - s.cfg.noncelen.toNat) (startCounter s)
      else (ivString s).take s.inst.b := by
  cases mode <;> rfl

theorem initNl_eq (mode : Mode) (s : State) : initNl mode s = if mode = .ctr then s.cfg.noncelen else 0#5 := by
  cases mode <;> rfl

end

/-! ### ENCRYPT and DECRYPT (43_stream_driver.md R266, R267, R269, R270) -/

section

variable {n : Fin 16} {s : State}

/-- Whether a CTR job's counter wraps, in numbers (42_modes.md R232). -/
theorem jobOverflows_iff (p : Params) (c : Ctx) (k : Nat) :
    jobOverflows p c k = true ↔
      c.mode = .ctr ∧ 1 ≤ k ∧ 256 ^ (p.b - c.nl.toNat) ≤ be (c.chain.drop c.nl.toNat) + k - 1 := by
  rw [jobOverflows, ctrOverflow, Bool.and_eq_true, Bool.and_eq_true, decide_eq_true_eq, decide_eq_true_eq,
    decide_eq_true_eq, counterOf]

/-- NBLK and MAXOUT of an ENCRYPT job, by the mode (43_stream_driver.md R272, R273). -/
theorem encryptShape_sizes (mode : Mode) (b l : Nat) :
    nblkOf (encryptShape mode) b l = (if mode = .ecb ∨ mode = .cbc then l / b + 1 else (l + b - 1) / b) ∧
    maxoutOf (encryptShape mode) b l = if mode = .ecb ∨ mode = .cbc then (l / b + 1) * b else l := by
  cases mode <;> exact ⟨rfl, rfl⟩

/-- NBLK and MAXOUT of a DECRYPT job, by the mode (43_stream_driver.md R272, R273). -/
theorem decryptShape_sizes (mode : Mode) (b l : Nat) :
    nblkOf (decryptShape mode) b l = (if mode = .ecb ∨ mode = .cbc then l / b else (l + b - 1) / b) ∧
    maxoutOf (decryptShape mode) b l = l := by
  cases mode <;> exact ⟨rfl, rfl⟩

variable (hp : present s n = true) (hst : (s.ctx n).state = .ready)
include hp hst

/-- ENCRYPT whose ranges are free: its job starts, or would wrap the counter (43_stream_driver.md R266). -/
theorem execEncrypt_ready
    (hr : rangeOk n s.src.toNat s.len.toNat s.dst.toNat
      (maxoutOf (encryptShape (s.ctx n).mode) s.inst.b s.len.toNat) s = true) :
    execEncrypt n s =
      if jobOverflows s.inst (s.ctx n) (nblkOf (encryptShape (s.ctx n).mode) s.inst.b s.len.toNat) then
        .next (issueFail n { s.ctx n with lastop := .encrypt } .counterOverflow s)
      else .next (s.setCtx n (startedCtx n .encrypt (encryptShape (s.ctx n).mode) s)) := by
  simp only [execEncrypt, onCtx_present hp, hst, hr, ne_eq, not_true_eq_false, if_false, Bool.not_true,
    Bool.false_eq_true]
  rfl

/-- DECRYPT whose ranges are free: its length is not a positive multiple of B where it must be, its job would wrap the
counter, or it starts (43_stream_driver.md R267). -/
theorem execDecrypt_ready
    (hr : rangeOk n s.src.toNat s.len.toNat s.dst.toNat
      (maxoutOf (decryptShape (s.ctx n).mode) s.inst.b s.len.toNat) s = true) :
    execDecrypt n s =
      if (s.ctx n).mode.blockAligned && (s.len.toNat == 0 || s.len.toNat % s.inst.b != 0) then
        .next (issueFail n { s.ctx n with lastop := .decrypt } .invalidLength s)
      else if jobOverflows s.inst (s.ctx n) (nblkOf (decryptShape (s.ctx n).mode) s.inst.b s.len.toNat) then
        .next (issueFail n { s.ctx n with lastop := .decrypt } .counterOverflow s)
      else .next (s.setCtx n (startedCtx n .decrypt (decryptShape (s.ctx n).mode) s)) := by
  simp only [execDecrypt, onCtx_present hp, hst, hr, ne_eq, not_true_eq_false, if_false, Bool.not_true,
    Bool.false_eq_true]
  rfl

end

end Sys2Proof.Machine
end

section
/-! PROOFS. INIT, ENCRYPT and DECRYPT at their issue, the splitter, the round trip of a message, and a running job from its
block steps to its completion. -/

namespace Sys2Proof.Proofs

open Sys2Proof.Machine

/-- Settles O59: a step is one of the outcomes of `Stepped`, and the job's own block step is the only one that touches it. -/
theorem stepKeepsJobProgress : Obligations.StepKeepsJobProgress := by
  intro s t n x c0 hs hp h ht
  obtain ⟨sh, hp⟩ := (jobProgress_iff hs).1 hp
  have hstep := stepped_of_step h
  exact (jobProgress_iff (good_of_stepped hs hstep)).2 ⟨sh, progress_of_stepped hs hp hstep ht⟩

/-- Settles O7. -/
theorem initMakesContextReady : Obligations.InitMakesContextReady := by
  intro i mode n s hi hn hb hk hiv hctr
  rw [exec_of_isInit hi, issueInit_done ((present_iff s n).2 hn) hb (initCheck_of_ivChecks hk ⟨hiv, hctr⟩), initChain_eq,
    initNl_eq]
  rfl

/-- Settles O8. -/
theorem initFailureEmptiesContext : Obligations.InitFailureEmptiesContext := by
  intro i mode n s code hi hn hb hcode
  have hc : initCheck mode s = some code := by
    rcases hcode with ⟨hk, rfl⟩ | ⟨hk, rfl, hiv⟩
    · exact initCheck_of_keylen_ne hk
    · refine initCheck_of_not_ivChecks hk fun ⟨hlen, hctr⟩ => ?_
      rcases hiv with ⟨hm, hne⟩ | ⟨hm, hbad⟩
      · exact hne (hlen hm)
      · obtain ⟨hnonce, heq, hcount⟩ := hctr hm
        rcases hbad with h | h | h
        · omega
        · exact h heq
        · exact absurd hcount h.not_gt
  rw [exec_of_isInit hi, issueInit_failed ((present_iff s n).2 hn) hb hc]
  rfl

/-- Settles O9. -/
theorem encryptStartsJob : Obligations.EncryptStartsJob := by
  intro n s nblk maxout hn hst hnblk hmaxout hr hroom
  obtain ⟨hnblk', hmaxout'⟩ := encryptShape_sizes (s.ctx n).mode s.inst.b s.len.toNat
  obtain rfl := hnblk.trans hnblk'.symm
  obtain rfl := hmaxout.trans hmaxout'.symm
  refine (execEncrypt_ready ((present_iff s n).2 hn) hst hr).trans (if_neg ?_)
  rw [jobOverflows_iff]
  rintro ⟨hm, hpos, hwrap⟩
  exact absurd (hroom hm hpos) hwrap.not_gt

/-- Settles O10. -/
theorem decryptStartsJob : Obligations.DecryptStartsJob := by
  intro n s nblk hn hst hnblk hlen hr hroom
  obtain ⟨hnblk', hmaxout'⟩ := decryptShape_sizes (s.ctx n).mode s.inst.b s.len.toNat
  obtain rfl := hnblk.trans hnblk'.symm
  refine (execDecrypt_ready ((present_iff s n).2 hn) hst (by rwa [hmaxout'])).trans ?_
  rw [if_neg, if_neg, startedCtx, hmaxout']
  · rfl
  · rw [jobOverflows_iff]
    rintro ⟨hm, hpos, hwrap⟩
    exact absurd (hroom hm hpos) hwrap.not_gt
  · rw [Bool.and_eq_true, blockAligned_iff]
    rintro ⟨hm, hbad⟩
    obtain ⟨hpos, hmul⟩ := hlen hm
    simp only [hmul, Bool.or_eq_true, beq_iff_eq, bne_self_eq_false, Bool.false_eq_true, or_false] at hbad
    omega

/-- Settles O11. -/
theorem issueFailureSpendsContext : Obligations.IssueFailureSpendsContext := by
  intro i op n s nblk maxout code hi hn hst hr hcause
  have hp := (present_iff s n).2 hn
  obtain ⟨rfl, rfl, hnblk, hmaxout⟩ | ⟨rfl, rfl, hnblk, hmaxout⟩ := hi
  · obtain ⟨hnblk', hmaxout'⟩ := encryptShape_sizes (s.ctx n).mode s.inst.b s.len.toNat
    obtain rfl := hnblk.trans hnblk'.symm
    obtain rfl := hmaxout.trans hmaxout'.symm
    obtain ⟨hm, rfl, hpos, hwrap⟩ | ⟨hop, -⟩ := hcause
    · exact (execEncrypt_ready hp hst hr).trans (if_pos ((jobOverflows_iff ..).2 ⟨hm, hpos, hwrap⟩))
    · cases hop
  · obtain ⟨hnblk', hmaxout'⟩ := decryptShape_sizes (s.ctx n).mode s.inst.b s.len.toNat
    obtain rfl := hmaxout.trans hmaxout'.symm
    obtain ⟨hm, rfl, hpos, hwrap⟩ | ⟨-, hm, rfl, hlen⟩ := hcause
    · refine (execDecrypt_ready hp hst hr).trans ?_
      rw [if_neg (by simp [hm, Mode.blockAligned]), if_pos]
      · rfl
      · rw [jobOverflows_iff, hnblk', if_neg (by simp [hm]), ← hnblk]
        exact ⟨hm, hpos, hwrap⟩
    · refine (execDecrypt_ready hp hst hr).trans (if_pos ?_)
      rw [Bool.and_eq_true, blockAligned_iff]
      exact ⟨hm, by simpa using hlen⟩

/-- Settles O26. -/
theorem decryptInvertsEncrypt : Obligations.DecryptInvertsEncrypt := by
  intro p mode nl k c0 x hl hk hc hnl hprim
  exact ⟨rfl, message_dec_enc x hl hk hc hnl fun h => hprim ((blockAligned_iff mode).1 h)⟩

/-- Settles O27: the splitter's piece is `pieceOf`, and the bytes of the source are the message. -/
theorem splitterCutsTheMessage : Obligations.SplitterCutsTheMessage := by
  refine ⟨fun mode => by cases mode <;> exact ⟨rfl, rfl, rfl, rfl⟩, ?_⟩
  intro s n sh i hs hb hsh hi c message whole block
  have hj := jobFields_of_busy hs hb hsh
  have hwidth := (legal_spec hs.legal).1
  have hpos : 0 < s.inst.b := by omega
  have hlen : message.length = c.jlen := Memory.read_length ..
  have hwhole : whole = splitInput sh s.inst.b message := by cases sh <;> rfl
  have hinput : (pieceOf sh c i s).input = block := by
    rw [pieceOf_input hpos hj.nblk_eq hi hlen (Memory.read_drop ..).symm, ← hwhole]
  obtain ⟨hwlen, -, hfull, -⟩ := pieceOf_len hpos hj.nblk_eq hi hj.aligned_len
  have hone := pieceOf_wlen_pos hpos hj.nblk_eq hi
  rw [← hwlen, hinput] at hfull hone
  refine ⟨?_, hfull, hone, hlen, fun j hjl => ?_⟩
  · rw [split_ok hpos hj.nblk_eq hi hj.src_inside, ← hinput, hwlen, ← pieceOf_dstoff sh c i s]
  · rw [List.getD_eq_getElem _ _ (hlen ▸ hjl), Memory.getElem_read]

/-- Settles O60: the message function is the result of all blocks (`jobMessage_eq`), and the completion delivers it
(`complete_delivers`). -/
theorem completionDeliversMessage : Obligations.CompletionDeliversMessage := by
  intro s n x c0 hs hp hend
  obtain ⟨sh, hp⟩ := (jobProgress_iff hs).1 hp
  have hj := jobFields_of_busy hs hp.busy hp.shape
  have hf := hs.fields n (present_of_busy hp.busy)
  have hlen := jobDone_length_all hs.legal hf hp.shape hj hp.message_len hp.start_len
  have hout := hp.output
  rw [hend, hlen] at hout
  obtain ⟨m, hcomplete, hle, hread⟩ := complete_delivers hs hp.busy hp.shape hlen hout
  rw [← jobMessage_eq hs.legal hf hp.shape hj hp.message_len hp.start_len] at hcomplete hle hread
  refine ⟨_, (engineTurn_of_blk_eq hp.busy hend).trans hcomplete, ?_⟩
  rw [ctx_finish_same]
  refine ⟨rfl, rfl, ?_, ?_, hread⟩
  · have hinside := hj.dst_inside
    have hmem := (legal_spec hs.legal).2.2.2.1.2.2
    rw [BitVec.toNat_ofNat, Nat.mod_eq_of_lt (by omega)]
  · rw [finish_irqStatus, BitVec.getLsbD_or, getLsbD_cdoneBit, Bool.or_true]

end Sys2Proof.Proofs
end

section
/-! SUPPORT. DISCARD and ABORT at their issue, the engine's turn as one effect on whatever state it meets, and the steps the
jobs have left. -/

namespace Sys2Proof.Machine

/-! ### DISCARD and ABORT (44_control_interleaver.md R302 to R306) -/

section

variable {n : Fin 16} {s : State}

theorem exec_discard_of_not_busy (hp : present s n = true) (hb : (s.ctx n).state ≠ .busy) :
    exec (.discard n) s =
      .next (finish n (({ s.ctx n with lastop := .discard }).cleared s.inst) .empty .none 0 s) := by
  show execDiscard n s = _
  rw [execDiscard, onCtx_present hp, if_neg hb]

theorem exec_abort_of_not_busy (hp : present s n = true) (hb : (s.ctx n).state ≠ .busy) :
    exec (.abort n) s = .next (reject .badState n s) := by
  show execAbort n s = _
  rw [execAbort, onCtx_present hp, if_pos hb]

theorem exec_abort_of_busy (hb : busy s n = true)
    (hm : (s.ctx n).jdst + (s.ctx n).maxout ≤ s.inst.msgmemBytes) :
    exec (.abort n) s =
      .next (failWith n { s.ctx n with lastop := .abort } (stateAfterJob (s.ctx n).op) .aborted
        { s with mem := s.mem.write (s.ctx n).jdst (zeros (s.ctx n).maxout) }) := by
  show execAbort n s = _
  rw [execAbort, onCtx_present (present_of_busy hb), if_neg (not_not_intro ((busy_iff s n).1 hb).2),
    memWrite_ok (.inr (by rwa [zeros_length])), andThen_ok]

/-- A turn on a context that is not BUSY passes (log 7). -/
theorem engineTurn_of_not_busy (hb : busy s n = false) : engineTurn n s = .next s := by
  simp only [engineTurn, hb, Bool.false_eq_true, if_false]

end

/-! ### The effect of an engine step (44_control_interleaver.md R310) -/

/-- What an engine step does to a context's job: the context it leaves, the bytes it writes and where, and the cause it
raises. -/
structure TurnEffect where
  ctx : Ctx
  start : Nat
  bytes : Bytes
  cause : Word

/-- The effect of a step of context `n`, made on a state. -/
def TurnEffect.apply (e : TurnEffect) (n : Fin 16) (s : State) : State :=
  { s with
    ctxs := s.ctxs.set n.val e.ctx
    mem := s.mem.write e.start e.bytes
    irqStatus := s.irqStatus ||| e.cause }

/-- The effect of a block step or copy step (42_modes.md R211, 41_padding.md R192). -/
def blockEffect (sh : JobShape) (n : Fin 16) (s : State) : TurnEffect :=
  let c := s.ctx n
  let r := jobXform s.inst c (pieceOf sh c c.blk s).input
  { ctx := { c with chain := r.2, blk := c.blk + 1 }, start := c.jdst + c.blk * s.inst.b, bytes := r.1, cause := 0#32 }

/-- The effect of a completion that zeroes `k` bytes from `a` on, with the status given. -/
def endEffect (n : Fin 16) (c : Ctx) (a k : Nat) (e : ErrCode) (o : Nat) : TurnEffect :=
  { ctx := { c with state := stateAfterJob c.op, err := e, outlen := BitVec.ofNat 32 o }
    start := a
    bytes := zeros k
    cause := cdoneBit n }

/-- The effect of a completion (43_stream_driver.md R280 to R282, 41_padding.md R193, R198). -/
def completionEffect (n : Fin 16) (s : State) : TurnEffect :=
  let c := s.ctx n
  if unpads c then
    match padLen s.inst.b (s.mem.read c.jdst c.jlen) with
    | none => endEffect n c c.jdst c.maxout .invalidPadding 0
    | some k => endEffect n c (c.jdst + c.jlen - k) k .none (c.jlen - k)
  else endEffect n c c.jdst 0 .none (plainOutlen c)

/-- The effect of the next step of context `n`'s job, of shape `sh`. -/
def turnEffect (sh : JobShape) (n : Fin 16) (s : State) : TurnEffect :=
  if (s.ctx n).blk < (s.ctx n).nblk then blockEffect sh n s else completionEffect n s

section

variable {s t u v : State} {m n : Fin 16} {sh : JobShape}

theorem turnEffect_of_blk_lt (h : (s.ctx n).blk < (s.ctx n).nblk) : turnEffect sh n s = blockEffect sh n s := if_pos h

theorem turnEffect_of_blk_eq (h : (s.ctx n).blk = (s.ctx n).nblk) : turnEffect sh n s = completionEffect n s :=
  if_neg h.not_lt

/-- A completion is one of three: no padding to check, padding that is INVALID, and `k` bytes of padding. -/
theorem completionEffect_cases (n : Fin 16) (s : State) :
    let c := s.ctx n
    (unpads c = false ∧ completionEffect n s = endEffect n c c.jdst 0 .none (plainOutlen c)) ∨
    (unpads c = true ∧ padLen s.inst.b (s.mem.read c.jdst c.jlen) = none ∧
      completionEffect n s = endEffect n c c.jdst c.maxout .invalidPadding 0) ∨
    ∃ k, unpads c = true ∧ padLen s.inst.b (s.mem.read c.jdst c.jlen) = some k ∧
      completionEffect n s = endEffect n c (c.jdst + c.jlen - k) k .none (c.jlen - k) := by
  cases hu : unpads (s.ctx n) with
  | false => exact .inl ⟨hu, by simp only [completionEffect, hu, Bool.false_eq_true, if_false]⟩
  | true =>
    cases hp : padLen s.inst.b (s.mem.read (s.ctx n).jdst (s.ctx n).jlen) with
    | none => exact .inr (.inl ⟨hu, hp, by simp only [completionEffect, hu, if_true, hp]⟩)
    | some k => exact .inr (.inr ⟨k, hu, hp, by simp only [completionEffect, hu, if_true, hp]⟩)

theorem engineTurn_eq_blockEffect (hs : s.Good) (hb : busy s n = true)
    (hsh : jobShape (s.ctx n).op (s.ctx n).mode = some sh) (hlt : (s.ctx n).blk < (s.ctx n).nblk) :
    engineTurn n s = .next ((blockEffect sh n s).apply n s) := by
  obtain ⟨-, -, hturn⟩ := engineTurn_block hs hb hlt hsh
  have hirq : s.irqStatus ||| 0#32 = s.irqStatus := BitVec.or_zero
  rw [hturn, TurnEffect.apply, blockEffect, hirq, ← mem_afterBlock hs hb hlt hsh]
  rfl

theorem engineTurn_eq_completionEffect (hs : s.Good) (hb : busy s n = true)
    (hsh : jobShape (s.ctx n).op (s.ctx n).mode = some sh) (hend : (s.ctx n).blk = (s.ctx n).nblk) :
    engineTurn n s = .next ((completionEffect n s).apply n s) := by
  have hj := jobFields_of_busy hs hb hsh
  have hdst := hj.dst_inside
  have hlen := hj.jlen_le_maxout hs.legal
  rw [engineTurn_of_blk_eq hb hend]
  obtain ⟨hu, he⟩ | ⟨hu, hp, he⟩ | ⟨k, hu, hp, he⟩ := completionEffect_cases n s
  · rw [complete_of_not_unpads hsh hu, he]; rfl
  · rw [complete_of_unpads hsh hu, completeUnpad_of_invalid (by omega) hdst hp, he]; rfl
  · rw [complete_of_unpads hsh hu, completeUnpad_of_valid (by omega) hp, he]; rfl

/-- The engine's turn on a well-formed job makes the job's effect. -/
theorem engineTurn_eq_turnEffect (hs : s.Good) (hb : busy s n = true)
    (hsh : jobShape (s.ctx n).op (s.ctx n).mode = some sh) :
    engineTurn n s = .next ((turnEffect sh n s).apply n s) := by
  rcases (jobFields_of_busy hs hb hsh).blk_le.lt_or_eq with hlt | hend
  · rw [turnEffect_of_blk_lt hlt, engineTurn_eq_blockEffect hs hb hsh hlt]
  · rw [turnEffect_of_blk_eq hend, engineTurn_eq_completionEffect hs hb hsh hend]

/-- A BUSY context of a well-formed state runs a job of some shape (43_stream_driver.md R274). -/
theorem exists_jobShape (hs : s.Good) (hb : busy s n = true) : ∃ sh, jobShape (s.ctx n).op (s.ctx n).mode = some sh :=
  let ⟨sh, hsh, _⟩ := (hs.fields n (present_of_busy hb)).job ((busy_iff s n).1 hb).2
  ⟨sh, hsh⟩

/-- In a well-formed state every engine turn answers a next state. -/
theorem exists_engineTurn (hs : s.Good) (n : Fin 16) : ∃ t, engineTurn n s = .next t := by
  cases hb : busy s n with
  | false => exact ⟨s, engineTurn_of_not_busy hb⟩
  | true =>
    obtain ⟨sh, hsh⟩ := exists_jobShape hs hb
    exact ⟨_, engineTurn_eq_turnEffect hs hb hsh⟩

/-- The bytes of an effect lie in the destination of the job (20_memory.md R106). -/
theorem turnEffect_inside (hs : s.Good) (hb : busy s n = true) (hsh : jobShape (s.ctx n).op (s.ctx n).mode = some sh) :
    (s.ctx n).jdst ≤ (turnEffect sh n s).start ∧
    (turnEffect sh n s).start + (turnEffect sh n s).bytes.length ≤ (s.ctx n).jdst + (s.ctx n).maxout := by
  have hj := jobFields_of_busy hs hb hsh
  have hlen := hj.jlen_le_maxout hs.legal
  rcases hj.blk_le.lt_or_eq with hlt | hend
  · obtain ⟨hout, -⟩ := blockOutput_bounds hs.legal (hs.fields n (present_of_busy hb)) hsh hj hlt
    rw [List.take_of_length_le (blockOutput_length hs hb hlt hsh).le, pieceOf_dstoff] at hout
    simp only [turnEffect_of_blk_lt hlt, blockEffect]
    omega
  · rw [turnEffect_of_blk_eq hend]
    obtain ⟨-, he⟩ | ⟨-, -, he⟩ | ⟨k, -, hp, he⟩ := completionEffect_cases n s
    · simp only [he, endEffect, zeros_length]; omega
    · simp only [he, endEffect, zeros_length]; omega
    · obtain ⟨-, -, hk, -⟩ := padLen_eq_some hp
      rw [Memory.read_length] at hk
      simp only [he, endEffect, zeros_length]; omega

/-- What leaves a job's context and bytes alone leaves the piece of its next block (43_stream_driver.md R274). -/
theorem pieceOf_input_of_untouched (hs : s.Good) (hb : busy s n = true)
    (hsh : jobShape (s.ctx n).op (s.ctx n).mode = some sh) (hlt : (s.ctx n).blk < (s.ctx n).nblk) (h : Untouched s t n) :
    (pieceOf sh (s.ctx n) (s.ctx n).blk t).input = (pieceOf sh (s.ctx n) (s.ctx n).blk s).input := by
  have hj := jobFields_of_busy hs hb hsh
  have hwidth := (legal_spec hs.legal).1
  have hpos : 0 < s.inst.b := by omega
  have hsrc : t.mem.read (s.ctx n).jsrc (s.ctx n).jlen = s.mem.read (s.ctx n).jsrc (s.ctx n).jlen :=
    Memory.read_congr _ _ _ _ fun y hlo hhi => h.mem y (.inl ((inSource_iff ..).2 ⟨hlo, hhi⟩))
  have hrest := Memory.read_drop t.mem (s.ctx n).jsrc (s.ctx n).jlen ((s.ctx n).blk * t.inst.b)
  rw [hsrc] at hrest
  have hinst := h.inst
  rw [pieceOf_input hpos hj.nblk_eq hlt (Memory.read_length ..) (Memory.read_drop ..).symm,
    pieceOf_input (hinst ▸ hpos) (hinst ▸ hj.nblk_eq) hlt (Memory.read_length ..) hrest.symm, hinst]

/-- What leaves a job's context and bytes alone leaves the effect of its next step. -/
theorem turnEffect_of_untouched (hs : s.Good) (hb : busy s n = true)
    (hsh : jobShape (s.ctx n).op (s.ctx n).mode = some sh) (h : Untouched s t n) :
    turnEffect sh n t = turnEffect sh n s := by
  have hj := jobFields_of_busy hs hb hsh
  have hlen := hj.jlen_le_maxout hs.legal
  rcases hj.blk_le.lt_or_eq with hlt | hend
  · rw [turnEffect_of_blk_lt hlt, turnEffect_of_blk_lt (h.ctx ▸ hlt), blockEffect, blockEffect, h.ctx, h.inst,
      pieceOf_input_of_untouched hs hb hsh hlt h]
  · have hdst : t.mem.read (s.ctx n).jdst (s.ctx n).jlen = s.mem.read (s.ctx n).jdst (s.ctx n).jlen :=
      Memory.read_congr _ _ _ _ fun y hlo hhi => h.mem y (.inr ((inDest_iff ..).2 ⟨hlo, by omega⟩))
    rw [turnEffect_of_blk_eq hend, turnEffect_of_blk_eq (h.ctx ▸ hend), completionEffect, completionEffect, h.ctx, h.inst,
      hdst]

/-! ### Engine steps of two contexts (44_control_interleaver.md R315) -/

/-- After a turn on another context the turn on a running job still makes the effect it would have made before. -/
theorem engineTurn_after_other (hs : s.Good) (hmn : m ≠ n) (hn : busy s n = true)
    (hsh : jobShape (s.ctx n).op (s.ctx n).mode = some sh) (hu : engineTurn m s = .next u) :
    engineTurn n u = .next ((turnEffect sh n s).apply n u) := by
  have ht := turned_of_engineTurn hu
  have huntouched := untouched_of_turned hs hn hmn ht
  have hbusy : busy u n = true := (busy_congr huntouched.inst (congrArg Ctx.state huntouched.ctx)).trans hn
  rw [engineTurn_eq_turnEffect (good_of_turned hs ht) hbusy (huntouched.ctx ▸ hsh),
    turnEffect_of_untouched hs hn hsh huntouched]

/-- Writes to two disjoint ranges commute, in the canonical form. -/
theorem Memory.write_comm {m : Memory} (hm : m.wf) {a b : Nat} {xs ys : Bytes}
    (h : disjoint a xs.length b ys.length = true) : (m.write a xs).write b ys = (m.write b ys).write a xs := by
  refine Memory.ext_of_wf (Memory.wf_write (Memory.wf_write hm _ _) _ _)
    (Memory.wf_write (Memory.wf_write hm _ _) _ _) fun x => ?_
  rw [disjoint_iff] at h
  simp only [Memory.get_write]
  split
  · rw [if_neg (by omega)]
  · rfl

/-- Effects on two contexts that write disjoint ranges commute. -/
theorem TurnEffect.apply_comm {e f : TurnEffect} (hs : s.mem.wf) (hmn : m ≠ n)
    (h : disjoint e.start e.bytes.length f.start f.bytes.length = true) :
    f.apply n (e.apply m s) = e.apply m (f.apply n s) := by
  simp only [TurnEffect.apply, Memory.write_comm hs h, BitVec.or_assoc, BitVec.or_comm e.cause f.cause,
    Vector.set_comm e.ctx f.ctx (fun h => hmn (Fin.ext h))]

/-- The effects of two running jobs write disjoint ranges (20_memory.md R90, R106). -/
theorem turnEffects_disjoint {sh' : JobShape} (hs : s.Good) (hmn : m ≠ n) (hm : busy s m = true) (hn : busy s n = true)
    (hsh : jobShape (s.ctx m).op (s.ctx m).mode = some sh) (hsh' : jobShape (s.ctx n).op (s.ctx n).mode = some sh') :
    disjoint (turnEffect sh m s).start (turnEffect sh m s).bytes.length
      (turnEffect sh' n s).start (turnEffect sh' n s).bytes.length = true := by
  have hin := turnEffect_inside hs hm hsh
  have hin' := turnEffect_inside hs hn hsh'
  obtain ⟨-, hapart⟩ := hs.apart m n hmn hm hn
  rw [disjoint_iff] at hapart ⊢
  omega

/-- A turn on another context leaves a context that is not BUSY without a step. -/
theorem engineTurn_idle_after_other (hmn : m ≠ n) (hn : busy s n = false) (hu : engineTurn m s = .next u) :
    engineTurn n u = .next u := by
  have ht := turned_of_engineTurn hu
  refine engineTurn_of_not_busy ((busy_congr (turned_inst ht) ?_).trans hn)
  rw [turned_ctx_other ht hmn.symm]

/-- The turns on two contexts lead to one state in either order. -/
theorem engineTurns_commute (hs : s.Good) (hmn : m ≠ n) (hu : engineTurn m s = .next u) (hv : engineTurn n s = .next v) :
    ∃ t, engineTurn n u = .next t ∧ engineTurn m v = .next t := by
  cases hm : busy s m with
  | false =>
    obtain rfl : s = u := by rw [engineTurn_of_not_busy hm] at hu; exact Host.Outcome.next.inj hu
    exact ⟨v, hv, engineTurn_idle_after_other hmn.symm hm hv⟩
  | true =>
    cases hn : busy s n with
    | false =>
      obtain rfl : s = v := by rw [engineTurn_of_not_busy hn] at hv; exact Host.Outcome.next.inj hv
      exact ⟨u, engineTurn_idle_after_other hmn hn hu, hu⟩
    | true =>
      obtain ⟨sh, hsh⟩ := exists_jobShape hs hm
      obtain ⟨sh', hsh'⟩ := exists_jobShape hs hn
      refine ⟨_, engineTurn_after_other hs hmn hn hsh' hu, ?_⟩
      rw [engineTurn_after_other hs hmn.symm hm hsh hv]
      rw [engineTurn_eq_turnEffect hs hm hsh] at hu
      rw [engineTurn_eq_turnEffect hs hn hsh'] at hv
      cases hu
      cases hv
      rw [TurnEffect.apply_comm hs.mem_wf hmn (turnEffects_disjoint hs hmn hm hn hsh hsh')]

/-! ### The work left (44_control_interleaver.md R312, R316) -/

theorem stepsLeft_of_busy (h : busy s n = true) : stepsLeft s n = (s.ctx n).nblk - (s.ctx n).blk + 1 := if_pos h

theorem stepsLeft_pos_iff : 0 < stepsLeft s n ↔ busy s n = true := by
  unfold stepsLeft
  split
  · next h => exact ⟨fun _ => h, fun _ => Nat.succ_pos _⟩
  · next h => exact ⟨fun h0 => absurd h0 (Nat.lt_irrefl 0), fun hb => absurd hb h⟩

theorem stepsLeft_congr (hi : t.inst = s.inst) (hc : t.ctx n = s.ctx n) : stepsLeft t n = stepsLeft s n := by
  rw [stepsLeft, stepsLeft, busy_congr hi (congrArg Ctx.state hc), hc]

theorem workLeft_pos_iff : 0 < workLeft s ↔ ∃ n, busy s n = true := by
  rw [Nat.pos_iff_ne_zero, workLeft, ne_eq, List.sum_eq_zero_iff]
  simp [← stepsLeft_pos_iff, Nat.pos_iff_ne_zero]

/-- An engine step of a job leaves it one step less. -/
theorem stepsLeft_of_turned (h : Turned s n t) (hb : busy s n = true) : stepsLeft t n + 1 = stepsLeft s n := by
  rw [stepsLeft_of_busy hb]
  cases h with
  | passed hn => rw [hb] at hn; cases hn
  | @advanced sh _ _ hlt =>
    have hctx := ctx_afterBlock_same s n (pieceOf sh (s.ctx n) (s.ctx n).blk s)
    have hbusy : busy (afterBlock s n (pieceOf sh (s.ctx n) (s.ctx n).blk s)) n = true :=
      (busy_congr (s := afterBlock s n _) (t := s) rfl (by rw [hctx])).trans hb
    rw [stepsLeft_of_busy hbusy, hctx]
    show (s.ctx n).nblk - ((s.ctx n).blk + 1) + 1 + 1 = _
    omega
  | ended _ _ hend =>
    rw [hend, Nat.sub_self, Nat.add_right_cancel_iff, ← Nat.le_zero, ← Nat.not_lt, stepsLeft_pos_iff, busy_iff,
      ctx_finish_same]
    exact fun h => stateAfterJob_ne _ h.2

/-- The work left is that of one context and that of the others. -/
theorem workLeft_eq_add_others (s : State) (n : Fin 16) :
    workLeft s = stepsLeft s n + ((ctxNumbers.erase n).map (stepsLeft s)).sum := by
  rw [workLeft, ((List.perm_cons_erase (mem_ctxNumbers n)).map _).sum_eq, List.map_cons, List.sum_cons]

/-- An engine step of a job leaves all jobs together one step less. -/
theorem workLeft_of_turned (h : Turned s n t) (hb : busy s n = true) : workLeft t + 1 = workLeft s := by
  have others : (ctxNumbers.erase n).map (stepsLeft t) = (ctxNumbers.erase n).map (stepsLeft s) :=
    List.map_congr_left fun m hm =>
      stepsLeft_congr (turned_inst h) (turned_ctx_other h (ctxNumbers_nodup.mem_erase_iff.1 hm).1)
  rw [workLeft_eq_add_others t n, workLeft_eq_add_others s n, others, ← stepsLeft_of_turned h hb, Nat.add_right_comm]

/-- The work left does not depend on what is still to come. -/
theorem workLeft_schedule (s : State) (a : List Event) (k : Nat) :
    workLeft ({ s with agenda := a, tick := k } : State) = workLeft s := rfl

/-- The engine alone, with work left, does one step of it, whatever it picks. -/
theorem engineAlone_works (hs : s.Good) (ha : s.agenda = []) (hw : 0 < workLeft s) :
    ∃ u, step s = .next u ∧ u.Good ∧ u.agenda = [] ∧ workLeft u + 1 = workLeft s := by
  obtain ⟨n, hn⟩ := workLeft_pos_iff.1 hw
  rcases pickBusy_cases s with ⟨-, hidle⟩ | ⟨m, hp, hm⟩
  · rw [hidle n] at hn; cases hn
  · have hgood := hs.schedule s.agenda (s.tick + 1)
    obtain ⟨u, hu⟩ := exists_engineTurn hgood m
    have ht := turned_of_engineTurn hu
    refine ⟨u, by rw [step_nil ha, engineAlone_of_pickBusy_some hp, hu], good_of_turned hgood ht, ?_,
      (workLeft_of_turned ht hm).trans (workLeft_schedule ..)⟩
    rw [(turned_frame ht).2]; exact ha

/-- With no host access or reset to come, `k` steps do `k` of the steps left. -/
theorem reaches_workLeft {k : Nat} (hs : s.Good) (ha : s.agenda = []) (hk : k ≤ workLeft s) :
    ∃ u, Reaches k s u ∧ u.Good ∧ u.agenda = [] ∧ workLeft u + k = workLeft s := by
  induction k generalizing s with
  | zero => exact ⟨s, rfl, hs, ha, Nat.add_zero _⟩
  | succ k ih =>
    obtain ⟨w, hstep, hw, hwa, hwork⟩ := engineAlone_works hs ha (by omega)
    obtain ⟨u, hreach, hu, hua, hleft⟩ := ih hw hwa (by omega)
    exact ⟨u, ⟨w, hstep, hreach⟩, hu, hua, by omega⟩

end

end Sys2Proof.Machine
end

section
/-! PROOFS. The control commands and the interleaver: NOP, DISCARD and ABORT, the order of engine steps, ABORT against the
completion step, and the number of steps the jobs take. -/

namespace Sys2Proof.Proofs

open Sys2Proof.Machine

/-- Settles O6: a word with OPC 0 decodes to NOP whatever its other fields. -/
theorem nopChangesNothing : Obligations.NopChangesNothing :=
  ⟨fun _ => rfl, fun w s h =>
    (issue_of_decode (decode_of_opcField_zero ((opcField_eq_iff (by decide)).2 h)) s).trans rfl⟩

/-- Settles O12. -/
theorem discardEmptiesContext : Obligations.DiscardEmptiesContext := by
  intro n s hn hb
  rw [exec_discard_of_not_busy ((present_iff s n).2 hn) hb]
  rfl

/-- Settles O13. -/
theorem abortZeroesDestination : Obligations.AbortZeroesDestination := by
  intro n s hn hst hm
  refine ⟨s.mem.write (s.ctx n).jdst (zeros (s.ctx n).maxout), ?_, Memory.get_write_zeros s.mem _ _⟩
  rw [exec_abort_of_busy ((busy_iff s n).2 ⟨hn, hst⟩) hm]
  rfl

/-- Settles O55: each turn makes the effect it would have made first, and effects on disjoint ranges commute
(`engineTurns_commute`). -/
theorem engineTurnsCommute : Obligations.EngineTurnsCommute := by
  intro s m n hs hmn
  obtain ⟨u, hu⟩ := exists_engineTurn hs m
  obtain ⟨v, hv⟩ := exists_engineTurn hs n
  obtain ⟨t, hut, hvt⟩ := engineTurns_commute hs hmn hu hv
  exact ⟨u, v, t, hu, hv, hut, hvt⟩

/-- Settles O56: either step ends the job, and the other then finds a context that is not BUSY. -/
theorem abortCompletionRace : Obligations.AbortCompletionRace := by
  intro s n hs hb hend
  obtain ⟨sh, hsh⟩ := exists_jobShape hs hb
  constructor
  · obtain ⟨u, hu⟩ := exists_engineTurn hs n
    have hp : present u n = true := (present_congr (turned_inst (turned_of_engineTurn hu)) n).trans (present_of_busy hb)
    refine ⟨u, hu, exec_abort_of_not_busy hp ?_⟩
    cases turned_of_engineTurn hu with
    | passed hn => rw [hb] at hn; cases hn
    | advanced _ _ hlt => omega
    | ended => rw [ctx_finish_same]; exact stateAfterJob_ne _
  · refine ⟨_, exec_abort_of_busy hb (jobFields_of_busy hs hb hsh).dst_inside, ?_, engineTurn_of_not_busy ?_⟩
    · rw [ctx_failWith_same]
    · rw [← Bool.not_eq_true, busy_iff, ctx_failWith_same]
      exact fun h => stateAfterJob_ne _ h.2

/-- Settles O57: every step of the engine alone does one of the steps left (`reaches_workLeft`), and a context is BUSY
exactly while there are some. -/
theorem engineFinishesEveryJob : Obligations.EngineFinishesEveryJob := by
  intro s hs ha
  generalize hw : workLeft s = w
  constructor
  · obtain ⟨t, hreach, ht, hta, hleft⟩ := reaches_workLeft hs ha hw.ge
    refine ⟨t, hreach, ht, hta, fun n => ?_⟩
    rw [← Bool.not_eq_true]
    intro hn
    have := workLeft_pos_iff.2 ⟨n, hn⟩
    omega
  · intro k hk
    obtain ⟨u, hreach, -, -, hleft⟩ := reaches_workLeft hs ha (hw ▸ hk.le)
    exact ⟨u, hreach, workLeft_pos_iff.1 (by omega)⟩

end Sys2Proof.Proofs
end

section
/-! SUPPORT. The checks a command makes at its issue, one family of commands after another: what is rejected and why, and
that a command that passes them is not rejected. -/

namespace Sys2Proof.Machine

/-! ### The families of commands -/

/-- The commands that name a context: the five INITs, the four that start a job, DISCARD and ABORT (30_encoding.md R128). -/
theorem command_cases {i : Instr} {n : Fin 16} (h : i.ctx? = some n) :
    (∃ mode, isInit i mode n) ∨ (∃ op, isJob i op n) ∨ i = .discard n ∨ i = .abort n := by
  cases i with
  | nop => cases h
  | initEcb => cases h; exact .inl ⟨_, .inl ⟨rfl, rfl⟩⟩
  | initCbc => cases h; exact .inl ⟨_, .inr (.inl ⟨rfl, rfl⟩)⟩
  | initCfb => cases h; exact .inl ⟨_, .inr (.inr (.inl ⟨rfl, rfl⟩))⟩
  | initOfb => cases h; exact .inl ⟨_, .inr (.inr (.inr (.inl ⟨rfl, rfl⟩)))⟩
  | initCtr => cases h; exact .inl ⟨_, .inr (.inr (.inr (.inr ⟨rfl, rfl⟩)))⟩
  | encrypt => cases h; exact .inr (.inl ⟨_, .inl ⟨rfl, rfl⟩⟩)
  | decrypt => cases h; exact .inr (.inl ⟨_, .inr (.inl ⟨rfl, rfl⟩)⟩)
  | pad => cases h; exact .inr (.inl ⟨_, .inr (.inr (.inl ⟨rfl, rfl⟩))⟩)
  | unpad => cases h; exact .inr (.inl ⟨_, .inr (.inr (.inr ⟨rfl, rfl⟩))⟩)
  | discard => cases h; exact .inr (.inr (.inl rfl))
  | abort => cases h; exact .inr (.inr (.inr rfl))

section

variable {i : Instr} {mode : Mode} {op : Opcode} {sh : JobShape} {n : Fin 16} {s t : State}

/-- INIT is forbidden on BUSY (60_exceptions.md R342). -/
theorem stateForbids_of_isInit (hi : isInit i mode n) (st : Lifecycle) : stateForbids i st ↔ st = .busy := by
  obtain ⟨rfl, -⟩ | ⟨rfl, -⟩ | ⟨rfl, -⟩ | ⟨rfl, -⟩ | ⟨rfl, -⟩ := hi <;> rfl

theorem startedShape_of_isInit (hi : isInit i mode n) (m : Mode) : startedShape i m = none := by
  obtain ⟨rfl, -⟩ | ⟨rfl, -⟩ | ⟨rfl, -⟩ | ⟨rfl, -⟩ | ⟨rfl, -⟩ := hi <;> rfl

/-- A job is forbidden on any STATE but the one it starts from (60_exceptions.md R342). -/
theorem stateForbids_of_isJob (hi : isJob i op n) (st : Lifecycle) : stateForbids i st ↔ st ≠ stateBeforeJob op := by
  obtain ⟨rfl, rfl⟩ | ⟨rfl, rfl⟩ | ⟨rfl, rfl⟩ | ⟨rfl, rfl⟩ := hi <;> rfl

theorem startedShape_of_isJob (hi : isJob i op n) (m : Mode) : startedShape i m = jobShape op m := by
  obtain ⟨rfl, rfl⟩ | ⟨rfl, rfl⟩ | ⟨rfl, rfl⟩ | ⟨rfl, rfl⟩ := hi <;> rfl

/-- Every job has a shape in every mode (43_stream_driver.md R274). -/
theorem exists_jobShape_of_isJob (hi : isJob i op n) (m : Mode) : ∃ sh, jobShape op m = some sh := by
  obtain ⟨-, rfl⟩ | ⟨-, rfl⟩ | ⟨-, rfl⟩ | ⟨-, rfl⟩ := hi <;> exact ⟨_, rfl⟩

/-! ### BadState and InvalidRange (60_exceptions.md R342, R345) -/

theorem exec_isInit_of_busy (hi : isInit i mode n) (hp : present s n = true) (hb : (s.ctx n).state = .busy) :
    exec i s = .next (reject .badState n s) := by
  rw [exec_of_isInit hi, issueInit, onCtx_present hp, if_pos hb]

/-- The checks of STATE and of the ranges that every job begins with, in this order (60_exceptions.md R345). -/
theorem exec_isJob_eq (hi : isJob i op n) (hp : present s n = true) (hsh : jobShape op (s.ctx n).mode = some sh) :
    ∃ k, exec i s =
      if (s.ctx n).state ≠ stateBeforeJob op then .next (reject .badState n s)
      else if !rangeOk n s.src.toNat s.len.toNat s.dst.toNat (maxoutOf sh s.inst.b s.len.toNat) s then
        .next (reject .invalidRange n s)
      else k := by
  obtain ⟨rfl, rfl⟩ | ⟨rfl, rfl⟩ | ⟨rfl, rfl⟩ | ⟨rfl, rfl⟩ := hi <;> cases hsh
  · exact ⟨_, (onCtx_present hp _ : execEncrypt n s = _)⟩
  · exact ⟨_, (onCtx_present hp _ : execDecrypt n s = _)⟩
  · exact ⟨_, (onCtx_present hp _ : issueCopy .pad .padded n s = _)⟩
  · exact ⟨_, (onCtx_present hp _ : issueCopy .unpad .stream n s = _)⟩

theorem exec_isJob_of_state_ne (hi : isJob i op n) (hp : present s n = true)
    (hst : (s.ctx n).state ≠ stateBeforeJob op) : exec i s = .next (reject .badState n s) := by
  obtain ⟨sh, hsh⟩ := exists_jobShape_of_isJob hi (s.ctx n).mode
  obtain ⟨k, hk⟩ := exec_isJob_eq hi hp hsh
  rw [hk, if_pos hst]

theorem exec_discard_of_busy (hp : present s n = true) (hb : (s.ctx n).state = .busy) :
    exec (.discard n) s = .next (reject .badState n s) := by
  show execDiscard n s = _
  rw [execDiscard, onCtx_present hp, if_pos hb]

/-- Every command on a context whose STATE forbids it is rejected with BadState. -/
theorem exec_of_stateForbids (hi : i.ctx? = some n) (hp : present s n = true)
    (hf : stateForbids i (s.ctx n).state) : exec i s = .next (reject .badState n s) := by
  obtain ⟨mode, hinit⟩ | ⟨op, hjob⟩ | rfl | rfl := command_cases hi
  · exact exec_isInit_of_busy hinit hp ((stateForbids_of_isInit hinit _).1 hf)
  · exact exec_isJob_of_state_ne hjob hp ((stateForbids_of_isJob hjob _).1 hf)
  · exact exec_discard_of_busy hp hf
  · exact exec_abort_of_not_busy hp hf

/-- A job whose ranges are not free is rejected with InvalidRange. -/
theorem exec_isJob_of_range (hi : isJob i op n) (hp : present s n = true) (hst : (s.ctx n).state = stateBeforeJob op)
    (hsh : jobShape op (s.ctx n).mode = some sh)
    (hr : rangeOk n s.src.toNat s.len.toNat s.dst.toNat (maxoutOf sh s.inst.b s.len.toNat) s = false) :
    exec i s = .next (reject .invalidRange n s) := by
  obtain ⟨k, hk⟩ := exec_isJob_eq hi hp hsh
  rw [hk, if_neg (not_not_intro hst), hr]
  rfl

/-- A command that starts a job on ranges that are not free is rejected with InvalidRange. -/
theorem exec_of_range (hi : i.ctx? = some n) (hp : present s n = true) (hf : ¬ stateForbids i (s.ctx n).state)
    (hsh : startedShape i (s.ctx n).mode = some sh)
    (hr : rangeOk n s.src.toNat s.len.toNat s.dst.toNat (maxoutOf sh s.inst.b s.len.toNat) s = false) :
    exec i s = .next (reject .invalidRange n s) := by
  obtain ⟨mode, hinit⟩ | ⟨op, hjob⟩ | rfl | rfl := command_cases hi
  · rw [startedShape_of_isInit hinit] at hsh; cases hsh
  · have hst := not_not.1 (mt (stateForbids_of_isJob hjob _).2 hf)
    exact exec_isJob_of_range hjob hp hst ((startedShape_of_isJob hjob _).symm.trans hsh) hr
  · cases hsh
  · cases hsh

/-! ### Commands that pass the checks -/

/-- Nothing a rejection writes has changed: GSTATUS and REJ_IRQ are as they were (60_exceptions.md R343). -/
def NotRejected (s t : State) : Prop :=
  t.gstatus = s.gstatus ∧ t.irqStatus.getLsbD 31 = s.irqStatus.getLsbD 31

/-- No context's CDONE is REJ_IRQ (10_state.md R34). -/
theorem getLsbD_cdoneBit_31 (n : Fin 16) : (cdoneBit n).getLsbD 31 = false := by
  revert n; decide

theorem notRejected_finish (n : Fin 16) (c : Ctx) (st : Lifecycle) (e : ErrCode) (o : Nat) (s : State) :
    NotRejected s (finish n c st e o s) :=
  ⟨rfl, by rw [finish_irqStatus, BitVec.getLsbD_or, getLsbD_cdoneBit_31, Bool.or_false]⟩

/-- INIT on a context that is not BUSY ends there, whether its checks pass or fail (43_stream_driver.md R263, R264). -/
theorem exec_isInit_of_not_busy (hi : isInit i mode n) (hp : present s n = true) (hb : (s.ctx n).state ≠ .busy) :
    ∃ t, exec i s = .next t ∧ NotRejected s t := by
  rw [exec_of_isInit hi]
  cases hc : initCheck mode s with
  | none => exact ⟨_, issueInit_done hp hb hc, notRejected_finish ..⟩
  | some code => exact ⟨_, issueInit_failed hp hb hc, notRejected_finish ..⟩

/-- A job whose STATE and ranges allow it starts, or spends its context (43_stream_driver.md R269, R270). -/
theorem exec_isJob_of_checks (hi : isJob i op n) (hp : present s n = true) (hst : (s.ctx n).state = stateBeforeJob op)
    (hsh : jobShape op (s.ctx n).mode = some sh)
    (hr : rangeOk n s.src.toNat s.len.toNat s.dst.toNat (maxoutOf sh s.inst.b s.len.toNat) s = true) :
    ∃ t, exec i s = .next t ∧ NotRejected s t := by
  obtain ⟨rfl, rfl⟩ | ⟨rfl, rfl⟩ | ⟨rfl, rfl⟩ | ⟨rfl, rfl⟩ := hi <;> cases hsh
  · show ∃ t, execEncrypt n s = .next t ∧ _
    rw [execEncrypt_ready hp hst hr]
    split
    · exact ⟨_, rfl, notRejected_finish ..⟩
    · exact ⟨_, rfl, rfl, rfl⟩
  · show ∃ t, execDecrypt n s = .next t ∧ _
    rw [execDecrypt_ready hp hst hr]
    split
    · exact ⟨_, rfl, notRejected_finish ..⟩
    · split
      · exact ⟨_, rfl, notRejected_finish ..⟩
      · exact ⟨_, rfl, rfl, rfl⟩
  · exact ⟨_, issueCopy_started hp hst hr, rfl, rfl⟩
  · exact ⟨_, issueCopy_started hp hst hr, rfl, rfl⟩

/-- ABORT of a BUSY context, where it answers, ends the job (44_control_interleaver.md R306). -/
theorem notRejected_of_abort (hp : present s n = true) (hb : (s.ctx n).state = .busy)
    (h : exec (.abort n) s = .next t) : NotRejected s t := by
  replace h : execAbort n s = .next t := h
  rw [execAbort, onCtx_present hp, if_neg (not_not_intro hb)] at h
  obtain ⟨u, hu, ht⟩ := andThen_eq_next h
  obtain ⟨rfl, -⟩ := memWrite_eq_ok hu
  cases ht
  exact notRejected_finish n _ _ _ _ { s with mem := s.mem.write (s.ctx n).jdst (zeros (s.ctx n).maxout) }

/-- The ranges of the job the command starts, if it starts one, are free (20_memory.md R90). -/
abbrev rangesFree (i : Instr) (n : Fin 16) (s : State) : Prop :=
  ∀ sh, startedShape i (s.ctx n).mode = some sh →
    rangeOk n s.src.toNat s.len.toNat s.dst.toNat (maxoutOf sh s.inst.b s.len.toNat) s = true

/-- A command other than ABORT whose STATE and ranges allow it answers a next state, and is not rejected. -/
theorem exec_of_checks (hi : i.ctx? = some n) (hp : present s n = true) (hf : ¬ stateForbids i (s.ctx n).state)
    (hr : rangesFree i n s) (hab : i ≠ .abort n) : ∃ t, exec i s = .next t ∧ NotRejected s t := by
  obtain ⟨mode, hinit⟩ | ⟨op, hjob⟩ | rfl | rfl := command_cases hi
  · exact exec_isInit_of_not_busy hinit hp (mt (stateForbids_of_isInit hinit _).2 hf)
  · have hst := not_not.1 (mt (stateForbids_of_isJob hjob _).2 hf)
    obtain ⟨sh, hsh⟩ := exists_jobShape_of_isJob hjob (s.ctx n).mode
    exact exec_isJob_of_checks hjob hp hst hsh (hr sh ((startedShape_of_isJob hjob _).trans hsh))
  · exact ⟨_, exec_discard_of_not_busy hp hf, notRejected_finish ..⟩
  · exact absurd rfl hab

/-- A command whose STATE and ranges allow it is not rejected. -/
theorem notRejected_of_checks (hi : i.ctx? = some n) (hp : present s n = true)
    (hf : ¬ stateForbids i (s.ctx n).state) (hr : rangesFree i n s) (h : exec i s = .next t) : NotRejected s t := by
  by_cases hab : i = .abort n
  · subst hab
    exact notRejected_of_abort hp (not_not.1 hf) h
  · obtain ⟨u, hu, hquiet⟩ := exec_of_checks hi hp hf hr hab
    cases hu.symm.trans h
    exact hquiet

end

end Sys2Proof.Machine
end

section
/-! SUPPORT. Every event of a well-formed state answers a next state: commands, bus accesses, engine turns and reset. -/

namespace Sys2Proof.Machine

section

variable {n : Fin 16} {s : State}

/-- ABORT of a well-formed job answers: the range it zeroes lies in MSGMEM (20_memory.md R90). -/
theorem exists_exec_abort (hs : s.Good) (hb : busy s n = true) : ∃ t, exec (.abort n) s = .next t := by
  obtain ⟨sh, hsh⟩ := exists_jobShape hs hb
  exact ⟨_, exec_abort_of_busy hb (jobFields_of_busy hs hb hsh).dst_inside⟩

/-- Every command of a well-formed state answers a next state: one of the three rejections, or it passes the checks. -/
theorem exists_exec (hs : s.Good) (i : Instr) : ∃ t, exec i s = .next t := by
  cases hi : i.ctx? with
  | none =>
    cases i with
    | nop => exact ⟨s, rfl⟩
    | _ => cases hi
  | some n =>
    cases hp : present s n with
    | false => exact ⟨_, exec_absent hi hp⟩
    | true =>
      by_cases hf : stateForbids i (s.ctx n).state
      · exact ⟨_, exec_of_stateForbids hi hp hf⟩
      by_cases hr : rangesFree i n s
      · by_cases hab : i = .abort n
        · subst hab
          exact exists_exec_abort hs ((busy_iff s n).2 ⟨(present_iff s n).1 hp, not_not.1 hf⟩)
        · obtain ⟨t, ht, -⟩ := exec_of_checks hi hp hf hr hab
          exact ⟨t, ht⟩
      · simp only [rangesFree, not_forall, Bool.not_eq_true] at hr
        obtain ⟨sh, hsh, hbad⟩ := hr
        exact ⟨_, exec_of_range hi hp hf hsh hbad⟩

/-- The issue of any word answers, malformed words included (60_exceptions.md R340). -/
theorem exists_issue (hs : s.Good) (w : Word) : ∃ t, issue w s = .next t := by
  cases hd : decode w with
  | error e => exact ⟨_, issue_of_error hd s⟩
  | ok i => rw [issue_of_decode hd]; exact exists_exec hs i

theorem exists_writeReg (hs : s.Good) (r : Reg) (v : Word) : ∃ t, writeReg r v s = .next t := by
  cases r with
  | cmd => exact exists_issue hs v
  | _ => exact ⟨_, rfl⟩

theorem exists_hostAccess (hs : s.Good) (a : BusAccess) : ∃ t, hostAccess a s = .next t := by
  cases a with
  | read offset => rcases hostRead_eq offset s with ⟨-, h⟩ | ⟨-, h⟩ <;> exact ⟨_, h⟩
  | write offset v =>
    by_cases ha : offset.toNat % 4 = 0
    · obtain ⟨t, ht⟩ := exists_writeReg hs (regAt s.inst offset.toNat) v
      exact ⟨_, hostWrite_aligned_next ha ht⟩
    · exact ⟨_, hostWrite_misaligned ha v s⟩

theorem exists_engineAlone (hs : s.Good) : ∃ t, engineAlone s = .next t := by
  rcases pickBusy_cases s with ⟨h, -⟩ | ⟨n, h, -⟩
  · exact ⟨s, engineAlone_of_pickBusy_none h⟩
  · rw [engineAlone_of_pickBusy_some h]
    exact exists_engineTurn (hs.schedule s.agenda _) n

theorem exists_runEvent (hs : s.Good) (e : Event) : ∃ t, runEvent e s = .next t := by
  cases e with
  | host a => exact exists_hostAccess hs a
  | engine n => exact exists_engineTurn hs n
  | rst => exact ⟨_, rfl⟩

end

end Sys2Proof.Machine
end

section
/-! SUPPORT. The interrupt causes an event can set: none, REJ_IRQ, or CDONE of one context there is. -/

namespace Sys2Proof.Machine

/-- No cause, or one that is implemented: REJ_IRQ, or CDONE of a context there is (60_exceptions.md R350). -/
abbrev isCause (p : Params) (bit : Word) : Prop :=
  bit = 0#32 ∨ bit = rejIrqBit ∨ ∃ n : Fin 16, n.val < p.nctx ∧ bit = cdoneBit n

/-- Of IRQ_STATUS, `t` has no bit that `s` has not, but for one cause at most (60_exceptions.md R353). -/
def SetsAtMostOneCause (s t : State) : Prop :=
  ∃ bit, isCause s.inst bit ∧ t.irqStatus &&& ~~~(s.irqStatus ||| bit) = 0#32

section

variable {s t : State}

theorem SetsAtMostOneCause.of_raised {bit : Word} (hc : isCause s.inst bit) (h : t.irqStatus = s.irqStatus ||| bit) :
    SetsAtMostOneCause s t :=
  ⟨bit, hc, by rw [h]; exact BitVec.and_not_self _⟩

/-- What only clears bits sets no cause. -/
theorem SetsAtMostOneCause.of_cleared {m : Word} (h : t.irqStatus = s.irqStatus &&& m) : SetsAtMostOneCause s t := by
  refine ⟨0#32, .inl rfl, ?_⟩
  rw [h, BitVec.or_zero, BitVec.and_comm s.irqStatus, BitVec.and_assoc]
  exact (congrArg (m &&& ·) (BitVec.and_not_self _)).trans BitVec.and_zero

theorem SetsAtMostOneCause.of_unchanged (h : t.irqStatus = s.irqStatus) : SetsAtMostOneCause s t :=
  .of_raised (bit := 0#32) (.inl rfl) (h.trans BitVec.or_zero.symm)

theorem SetsAtMostOneCause.of_rejIrq (h : t.irqStatus = s.irqStatus ||| rejIrqBit) : SetsAtMostOneCause s t :=
  .of_raised (.inr (.inl rfl)) h

theorem SetsAtMostOneCause.of_cdone {n : Fin 16} (hp : present s n = true) (h : t.irqStatus = s.irqStatus ||| cdoneBit n) :
    SetsAtMostOneCause s t :=
  .of_raised (.inr (.inr ⟨n, (present_iff s n).1 hp, rfl⟩)) h

/-- A command raises REJ_IRQ where it is rejected, and CDONE of its context where it ends there. -/
theorem issued_setsAtMostOneCause {i : Instr} (h : Issued s i t) : SetsAtMostOneCause s t := by
  cases h with
  | nop => exact .of_unchanged rfl
  | rejected => exact .of_rejIrq rfl
  | initFailed _ hp => exact .of_cdone hp rfl
  | initDone _ hp => exact .of_cdone hp rfl
  | started => exact .of_unchanged rfl
  | spoiled _ _ hp => exact .of_cdone hp rfl
  | discarded hp => exact .of_cdone hp rfl
  | aborted hb => exact .of_cdone (present_of_busy hb) rfl

/-- An engine turn raises CDONE of its context, where it ends the job. -/
theorem turned_setsAtMostOneCause {n : Fin 16} (h : Turned s n t) : SetsAtMostOneCause s t := by
  cases h with
  | passed => exact .of_unchanged rfl
  | advanced => exact .of_unchanged rfl
  | ended hb => exact .of_cdone (present_of_busy hb) rfl

/-- A register write other than a command sets no cause, and one to IRQ_STATUS clears some (10_state.md R34). -/
theorem writeReg_setsAtMostOneCause {r : Reg} {v : Word} (hr : r ≠ .cmd) (h : writeReg r v s = .next t) :
    SetsAtMostOneCause s t := by
  cases r with
  | cmd => exact absurd rfl hr
  | irqStatus => cases h; exact .of_cleared rfl
  | msgmem j => cases h; exact .of_unchanged (by rw [writeMsgmem_frame])
  | _ => cases h; exact .of_unchanged rfl

theorem stepped_setsAtMostOneCause (h : Stepped s t) : SetsAtMostOneCause s t := by
  cases h with
  | idle => exact .of_unchanged rfl
  | turn _ h => exact (turned_setsAtMostOneCause h :)
  | reset => exact .of_cleared (m := 0#32) BitVec.and_zero.symm
  | misaligned => exact .of_unchanged rfl
  | read => exact .of_unchanged rfl
  | command _ h => exact (issued_setsAtMostOneCause h :)
  | malformed => exact .of_rejIrq rfl
  | write _ hr h => exact (writeReg_setsAtMostOneCause hr h :)

end

end Sys2Proof.Machine
end

section
/-! PROOFS. Exceptions: the causes of a rejection, what a rejection writes, the machine that never stops, and the interrupt
causes a step sets. -/

namespace Sys2Proof.Proofs

open Sys2Proof.Machine

/-- Settles O15: `reject` and the CTX field, written out. -/
theorem rejectWritesOnlyStatus : Obligations.RejectWritesOnlyStatus := reject_ctxField

/-- Settles O16: a word that passes the field checks is a command on a context there is, and that command makes the checks of
STATE and of the ranges in this order. -/
theorem rejectionCausesExactly : Obligations.RejectionCausesExactly := by
  intro w s hopc
  have h0 : opcField w ≠ 0 := mt (opcField_eq_iff (by decide)).1 hopc
  refine ⟨issue_of_not_wellFormed h0, fun hw => ?_⟩
  obtain ⟨hchecks, hlt⟩ := (wellFormedWord_iff s.inst w).1 hw
  have hp : present s (ctxField w) = true := (present_iff s _).2 hlt
  obtain ⟨i, hi⟩ := exists_decodeOpcode hchecks.opc hchecks.mode (ctxField w)
  have hd : decode w = .ok i := (decode_of_checks hchecks).trans hi
  obtain ⟨he, -⟩ | ⟨-, -, -, hctx⟩ := decode_eq_ok hd
  · exact absurd he h0
  rw [issue_of_decode hd]
  exact ⟨i, ctxField w, hd, hctx, rfl, exec_of_stateForbids hctx hp, fun hf =>
    ⟨fun sh hsh hr => exec_of_range hctx hp hf hsh hr, fun hr t ht => notRejected_of_checks hctx hp hf hr ht⟩⟩

/-- Settles O51: the engine alone answers, and so does every event the agenda can hold. -/
theorem goodMachineNeverStops : Obligations.GoodMachineNeverStops := by
  intro s hs
  cases ha : s.agenda with
  | nil => rw [step_nil ha]; exact exists_engineAlone hs
  | cons e rest => rw [step_cons ha]; exact exists_runEvent (hs.schedule rest s.tick) e

/-- Settles O54, by the kind of step. -/
theorem stepSetsAtMostOneCause : Obligations.StepSetsAtMostOneCause :=
  fun _ _ h => stepped_setsAtMostOneCause (stepped_of_step h)

end Sys2Proof.Proofs
end
